-- ==== Sys2Proof/Word.lean ====
section
/-! DEFINITION. The word, symbol and digit types of the PCU (spec/00_scope.md rules R4, R9, R10). -/

namespace Sys2Proof

/-- A 32-bit register or command word (R9, R31, R100). -/
abbrev Word := BitVec 32

/-- A symbol, held in the 21 bits that are SYM_W's maximum and the width of the operand field SYM (R4, R101).
That a symbol is below 2^SYM_W is the business of `Instr.wellFormed` and of the state invariant. -/
abbrev Symbol := BitVec 21

/-- One binary digit of a code: `false` is the digit 0 and `true` the digit 1 (R10). -/
abbrev Digit := Bool

/-- A code or other bit string: the head is the first digit, the one nearest the root of the code tree (R10). -/
abbrev Code := List Digit

end Sys2Proof
end

