-- ==== Sys2Proof/Config.lean ====
section
/-! DEFINITION. The implementation parameters of the PCU and the free values of the model
(spec/00_scope.md rules R4 to R7, spec/20_memory.md rules R65, R74, R80). -/

namespace Sys2Proof

/-- The parameters an implementation fixes. Each is an argument of the model (93_implementation_defined.md U8, U9, I7):
a state carries the configuration of its unit, nothing a step does changes it, and every statement holds for all of them. -/
structure Config where
  /-- SYM_W, the symbol width in bits (R4). -/
  symW : Nat
  /-- MAX_SYMS, the capacity of the frequency table (R5). -/
  maxSyms : Nat
  /-- CNT_W, the width in bits of every count, weight and of TOTAL (R6). -/
  cntW : Nat
  /-- PCU_BASE, where the register space lies in the host's physical map (R80, OPEN). -/
  pcuBase : Nat
  deriving DecidableEq, Repr

/-- The ranges R4, R5 and R6 give the parameters. PCU_BASE is unconstrained. -/
abbrev Config.wf (c : Config) : Prop :=
  (1 ≤ c.symW ∧ c.symW ≤ 21) ∧ (1 ≤ c.maxSyms ∧ c.maxSyms ≤ 513) ∧ (1 ≤ c.cntW ∧ c.cntW ≤ 32)

/-- The reference configuration of 00_scope.md section 3: SYM_W = 21, MAX_SYMS = 256, CNT_W = 32.
DESIGN CHOICE (log 2): PCU_BASE has no reference value in the spec; 0 stands here. No statement rests on it. -/
def Config.reference : Config := { symW := 21, maxSyms := 256, cntW := 32, pcuBase := 0 }

/-- The `n`-th free draw of a bus read whose value the spec leaves open: a read while BUSY = 1 (R65) and the read of a
host-faulted access (R74). It has no body: nothing can be proved of its value (log 3). -/
opaque Config.freeRead : Nat → Word

end Sys2Proof
end

