-- ==== Sys2Proof/Syntax.lean ====
section
/-! DEFINITION. The nine commands of the PCU (spec/30_encoding.md rules R100 to R103, spec/opcode_table.json). -/

namespace Sys2Proof

/-- One constructor per row of the opcode map (R103), its operand in the form R101 gives the row. -/
inductive Instr where
  /-- NOP, form N (R135). -/
  | nop
  /-- CLEAR, form N (R130). -/
  | clear
  /-- LOAD_SYM sym, form S (R132). -/
  | loadSym (sym : Symbol)
  /-- BUILD_SF, form N (R140). -/
  | buildSf
  /-- BUILD_HUFF, form N (R160). -/
  | buildHuff
  /-- ENC sym, form S (R172). -/
  | enc (sym : Symbol)
  /-- DEC_BIT b, form B (R180). -/
  | decBit (b : Digit)
  /-- DEC_END, form N (R182). -/
  | decEnd
  /-- QUERY idx, form I (R195). -/
  | query (idx : BitVec 16)
  deriving DecidableEq, Repr

end Sys2Proof
end

