-- ==== Sys2Proof/WellFormed.lean ====
section
/-! DEFINITION. Well-formed commands: the one operand check that the syntax does not already make, the symbol range
(spec/30_encoding.md rules R101, R106). -/

namespace Sys2Proof

/-- A symbol operand must be below 2^SYM_W (R106); BIT and IDX take every value of their fields (R101, R102). -/
def Instr.wellFormed (cfg : Config) : Instr → Bool
  | .nop => true
  | .clear => true
  | .loadSym sym => decide (sym.toNat < 2 ^ cfg.symW)
  | .buildSf => true
  | .buildHuff => true
  | .enc sym => decide (sym.toNat < 2 ^ cfg.symW)
  | .decBit _ => true
  | .decEnd => true
  | .query _ => true

end Sys2Proof
end

