-- ==== Sys2Proof/Decode.lean ====
section
/-! DEFINITION. The command decoder, total on all 2^32 words, and the encoder (spec/30_encoding.md rules R100 to R108). -/

namespace Sys2Proof

/-- The four operand forms (R101). -/
inductive Form where
  | n
  | s
  | b
  | i
  deriving DecidableEq, Repr

/-- The operand bits a form does not use, which must be 0 (R101, R105). -/
def Form.reservedMask : Form → Word
  | .n => 0x0FFFFFFF#32
  | .s => 0x0FE00000#32
  | .b => 0x0FFFFFFE#32
  | .i => 0x0FFF0000#32

/-- The opcodes that R103 assigns. -/
inductive Op where
  | nop
  | clear
  | loadSym
  | buildSf
  | buildHuff
  | enc
  | decBit
  | decEnd
  | query
  deriving DecidableEq, Repr

/-- OPC of a command (R103, first column). -/
def Op.code : Op → BitVec 4
  | .nop => 0x0#4
  | .clear => 0x1#4
  | .loadSym => 0x2#4
  | .buildSf => 0x3#4
  | .buildHuff => 0x4#4
  | .enc => 0x5#4
  | .decBit => 0x6#4
  | .decEnd => 0x7#4
  | .query => 0x8#4

/-- The operand form of a command (R103, third column). -/
def Op.form : Op → Form
  | .nop => .n
  | .clear => .n
  | .loadSym => .s
  | .buildSf => .n
  | .buildHuff => .n
  | .enc => .s
  | .decBit => .b
  | .decEnd => .n
  | .query => .i

/-- The command an opcode selects; 0x9 to 0xF are reserved (R104). -/
def Op.ofCode (opc : BitVec 4) : Option Op :=
  if opc = 0x0#4 then some .nop
  else if opc = 0x1#4 then some .clear
  else if opc = 0x2#4 then some .loadSym
  else if opc = 0x3#4 then some .buildSf
  else if opc = 0x4#4 then some .buildHuff
  else if opc = 0x5#4 then some .enc
  else if opc = 0x6#4 then some .decBit
  else if opc = 0x7#4 then some .decEnd
  else if opc = 0x8#4 then some .query
  else none

/-- `op = w[31:28]` (R100). -/
def opcField (w : Word) : BitVec 4 := BitVec.ofNat 4 (w.toNat / 2 ^ 28)

/-- `sym = zext_32(w[20:0])`, the operand of form S (R101). -/
def symField (w : Word) : Symbol := w.setWidth 21

/-- `b = w[0]`, the operand of form B (R101). -/
def bitField (w : Word) : Digit := w.getLsbD 0

/-- `idx = zext_32(w[15:0])`, the operand of form I (R101). -/
def idxField (w : Word) : BitVec 16 := w.setWidth 16

/-- The command with its operand assembled from the word (R101, R102). -/
def Op.assemble (op : Op) (w : Word) : Instr :=
  match op with
  | .nop => .nop
  | .clear => .clear
  | .loadSym => .loadSym (symField w)
  | .buildSf => .buildSf
  | .buildHuff => .buildHuff
  | .enc => .enc (symField w)
  | .decBit => .decBit (bitField w)
  | .decEnd => .decEnd
  | .query => .query (idxField w)

/-- What a command word decodes to: a command, or one of the two illegal classes of R108. -/
inductive Decoded where
  /-- A command and its operand. -/
  | instr (i : Instr)
  /-- A reserved opcode (R104): the engine executes R222. -/
  | illegalCommand
  /-- A reserved operand bit set (R105) or a symbol out of range (R106). -/
  | illegalOperand
  deriving DecidableEq, Repr

/-- The decode function of R108, line by line. -/
def decode (cfg : Config) (w : Word) : Decoded :=
  match Op.ofCode (opcField w) with
  | none => .illegalCommand
  | some op =>
    if w &&& op.form.reservedMask ≠ 0#32 then .illegalOperand
    else if op.form = .s ∧ 2 ^ cfg.symW ≤ (symField w).toNat then .illegalOperand
    else .instr (op.assemble w)

/-- `OPC << 28 | operand` with every reserved bit 0 (R101, R110): the operand is below 2^28, so the sum is the OR. -/
def commandWord (op : Op) (operand : Nat) : Word := BitVec.ofNat 32 (op.code.toNat * 2 ^ 28 + operand)

/-- The word of a command (R101, R103). -/
def encode : Instr → Word
  | .nop => commandWord .nop 0
  | .clear => commandWord .clear 0
  | .loadSym sym => commandWord .loadSym sym.toNat
  | .buildSf => commandWord .buildSf 0
  | .buildHuff => commandWord .buildHuff 0
  | .enc sym => commandWord .enc sym.toNat
  | .decBit b => commandWord .decBit b.toNat
  | .decEnd => commandWord .decEnd 0
  | .query idx => commandWord .query idx.toNat

/-- The command word of a table row: its low `nbits` bits, every bit above them 0. A command is one 32-bit word, and
bit 0 of the table's numbering is bit 0 of the word (R9, R100). -/
def tableWord (nbits w : Nat) : Word := BitVec.ofNat 32 (w % 2 ^ nbits)

/-- The command the decoder reads from a table word in the reference configuration, `none` where it decodes to an
illegal class. -/
def decodeTableWord (nbits w : Nat) : Option Instr :=
  match decode Config.reference (tableWord nbits w) with
  | .instr i => some i
  | .illegalCommand => none
  | .illegalOperand => none

end Sys2Proof
end

