-- ==== Sys2Proof/Machine/State.lean ====
section
/-! DEFINITION. The state of the PCU (spec/10_state.md rules R30 to R52), what the outside world can do to it
(spec/20_memory.md rule R60, spec/70_reset_and_hazards.md rules R240, R241), the reasons a step can stop, and the
state after reset. -/

namespace Sys2Proof.Machine

/-- The outcome codes of R220. The codes 12 to 255 are never produced, so the type has no value for them. -/
inductive ErrCode where
  /-- Code 0. -/
  | ok
  /-- Code 1, raised by ENC (R172). -/
  | unknownSymbol
  /-- Code 2, raised by DEC_END (R182). -/
  | incompleteCode
  /-- Code 3, raised by DEC_BIT (R183). -/
  | emptyCodeTable
  /-- Code 4: assigned and never produced (R220, 90_conflicts.md C1). -/
  | emptyInput
  /-- Code 5, a reserved opcode (R222). -/
  | illegalCommand
  /-- Code 6, a reserved operand bit or a symbol out of range (R105, R106). -/
  | illegalOperand
  /-- Code 7, raised by LOAD_SYM (R132). -/
  | alphabetOverflow
  /-- Code 8, raised by LOAD_SYM (R132). -/
  | countOverflow
  /-- Code 9, raised by ENC, DEC_BIT and DEC_END (R134). -/
  | notBuilt
  /-- Code 10, raised by LOAD_SYM, BUILD_SF and BUILD_HUFF (R133). -/
  | sequenceLost
  /-- Code 11, raised by QUERY (R197). -/
  | indexOutOfRange
  deriving DecidableEq, Repr

/-- The tag of the code table: which builder made it, if any (R44). -/
inductive CodeTag where
  | none
  | sf
  | huff
  deriving DecidableEq, Repr

/-- One entry of the frequency table (R43). The count is a natural number; that it fits CNT_W bits is part of the state
invariant, as R133 derives (log 5). -/
structure Entry where
  sym : Symbol
  cnt : Nat
  deriving DecidableEq, Repr

/-- What a bus access does. -/
inductive AccessKind where
  | read
  | write (data : Word)
  deriving DecidableEq, Repr

/-- One bus access of the host: its kind, its physical address, its size in bytes and its byte-lane mask (R60, R73, R74). -/
structure Access where
  kind : AccessKind
  addr : Nat
  bytes : Nat
  lanes : BitVec 4
  deriving DecidableEq, Repr

/-- One atomic step of the system (R60), or the reset input (R240). -/
inductive Turn where
  /-- The host performs one access. -/
  | host (a : Access)
  /-- The command engine takes its step, if it is enabled (R62). -/
  | engine
  /-- The reset input is asserted; the host may attempt an access in the same step (R241, R231). -/
  | reset (during : Option Access)
  deriving DecidableEq, Repr

/-- Reasons the machine stops with a fault. There is none: the PCU has no trap (R224), every command completes (R62,
R250), and a host fault is recorded in the state while the unit goes on (R231, `State.hostFault`). -/
inductive Fault
  deriving DecidableEq, Repr

/-- Reasons the model gives an instruction no meaning. -/
inductive Refusal where
  /-- Raised by an arm of `exec` whose command has no meaning yet; safe (the model stops). No arm raises it. -/
  | notModelled (mnemonic : String)
  deriving DecidableEq, Repr

/-- The state: the configuration, the record of R50, and the model's own fields for the outside world. -/
structure State where
  /-- The unit's configuration: not state (R30), and never changed by a step. -/
  cfg : Config
  /-- The frequency table FT (R43). -/
  ft : List Entry
  /-- The tag of the code table (R44). -/
  ctag : CodeTag
  /-- The code table CT, one code per FT entry, meaningful when `ctag` is not `none` (R44). -/
  ct : List Code
  /-- The decoder buffer (R46). -/
  dbuf : Code
  /-- STATUS.DEC_DEAD (R46). -/
  ddead : Bool
  /-- STATUS.SEQ_LOST (R47). -/
  seqLost : Bool
  /-- STATUS.CMD_OVERRUN (R48). -/
  overrun : Bool
  /-- The pending-command latch; STATUS.BUSY is 1 exactly when it holds a word (R49). -/
  pend : Option Word
  /-- STATUS.ERR: the outcome code of the last completed command (R38). -/
  err : ErrCode
  /-- STATUS.SYM_VALID (R35). -/
  symValid : Bool
  /-- RESULT_SYM (R40). -/
  resSym : Symbol
  /-- RESULT_COUNT (R40). -/
  resCount : Nat
  /-- The result code: RESULT_LEN is its length and RESULT_CODE its packing (R40, R41). -/
  resCode : Code
  /-- The model's own: the steps still to come, oldest first, as the outside world chose them (R60, log 1). -/
  turns : List Turn
  /-- The model's own: the word the last bus read returned to the host (log 6). -/
  busData : Word
  /-- The model's own: the host program has faulted; never cleared (R231, log 4). -/
  hostFault : Bool
  /-- The model's own: how many free reads have been drawn (R65, R74, log 3). -/
  draws : Nat
  deriving DecidableEq, Repr

/-- The state of a unit of configuration `cfg` right after reset, nothing scheduled (R240). CT's contents are
unspecified and unobservable then (R242): DESIGN CHOICE (log 7), the empty list. -/
def State.resetOf (cfg : Config) : State where
  cfg := cfg
  ft := []
  ctag := .none
  ct := []
  dbuf := []
  ddead := false
  seqLost := false
  overrun := false
  pend := none
  err := .ok
  symValid := false
  resSym := 0#21
  resCount := 0
  resCode := []
  turns := []
  busData := 0#32
  hostFault := false
  draws := 0

/-- The machine right after reset, in the reference configuration (R240, 00_scope.md section 3; log 2). -/
def State.reset : State := State.resetOf Config.reference

end Sys2Proof.Machine
end

