-- ==== Sys2Proof/Machine/Ops.lean ====
section
/-! DEFINITION. The named operations every command is built from: completion and raising (spec/20_memory.md rule R64,
spec/60_exceptions.md rules R220, R221), the frequency-table updates, table invalidation and installation, the decoder
buffer. -/

namespace Sys2Proof.Machine

/-- The result tuple (s, n, c) a command may produce (R64). -/
structure Result where
  sym : Symbol
  cnt : Nat
  code : Code
  deriving DecidableEq, Repr

/-- The result of a command that produced none: 0 in every result register (R64). -/
def Result.zero : Result := { sym := 0#21, cnt := 0, code := [] }

/-- `finish(E)` (R64): the outcome code, the result registers, SYM_VALID, and nothing else. `r` is the tuple the command
produced, if any, and `isDecBit` says whether the command is DEC_BIT. -/
def State.finish (s : State) (e : ErrCode) (r : Option Result) (isDecBit : Bool) : State :=
  let shown := if e = .ok then r else none
  { s with
    err := e
    resSym := (shown.getD .zero).sym
    resCount := (shown.getD .zero).cnt
    resCode := (shown.getD .zero).code
    symValid := isDecBit && shown.isSome }

/-- `finish(OK)` without a result. -/
def State.finishOk (s : State) : State := s.finish .ok none false

/-- `finish(OK) with result r` of ENC and QUERY. -/
def State.finishWith (s : State) (r : Result) : State := s.finish .ok (some r) false

/-- `finish(OK) with result r` of a symbol-emitting DEC_BIT: SYM_VALID <- 1. -/
def State.finishEmit (s : State) (r : Result) : State := s.finish .ok (some r) true

/-- `raise E`: `finish(E)` for an error code (R13, R221). This is the whole of taking an error: there is no trap entry and
no return (R224, R225). -/
def State.raise (s : State) (e : ErrCode) : State := s.finish e none false

/-- `dbuf <- ""; ddead <- 0` (R46). -/
def State.emptyDecoder (s : State) : State := { s with dbuf := [], ddead := false }

/-- `ctag <- NONE; dbuf <- ""; ddead <- 0`: the code table no longer matches FT (R132, R134). CT's contents stay and
cannot be observed (R44). -/
def State.invalidate (s : State) : State := { s with ctag := .none, dbuf := [], ddead := false }

/-- `seqLost <- 1; ctag <- NONE; dbuf <- ""; ddead <- 0`: what an overflowing LOAD_SYM does before it raises (R132). -/
def State.loseSequence (s : State) : State :=
  { s with seqLost := true, ctag := .none, dbuf := [], ddead := false }

/-- `ct <- codes; ctag <- tag; dbuf <- ""; ddead <- 0`: a successful build (R140, R160). -/
def State.install (s : State) (tag : CodeTag) (codes : List Code) : State :=
  { s with ctag := tag, ct := codes, dbuf := [], ddead := false }

/-- `ft <- l`. -/
def State.setFt (s : State) (l : List Entry) : State := { s with ft := l }

/-- One more occurrence of an entry's symbol (R132). -/
def Entry.bump (e : Entry) : Entry := { e with cnt := e.cnt + 1 }

/-- TOTAL = Σ FT[i].cnt (R42). -/
def totalOf (ft : List Entry) : Nat := (ft.map Entry.cnt).sum

/-- The largest TOTAL of a configuration, 2^CNT_W − 1 (R6, R133). -/
def maxTotal (cfg : Config) : Nat := 2 ^ cfg.cntW - 1

/-- The pending-command latch is emptied by the command's completion (R62). -/
def State.retire (s : State) : State := { s with pend := none }

/-- The engine's last act in its step, `pend <- none`, on whatever the command answered (R62). -/
def retireOutcome : Host.Outcome State Fault Refusal → Host.Outcome State Fault Refusal
  | .next t => .next t.retire
  | .fault r => .fault r
  | .refused r => .refused r

/-- Goes on with the next state of an outcome; a stop stays that stop. -/
def andThen {α β : Type} (o : Host.Outcome α Fault Refusal) (f : α → Host.Outcome β Fault Refusal) :
    Host.Outcome β Fault Refusal :=
  match o with
  | .next t => f t
  | .fault r => .fault r
  | .refused r => .refused r

/-- The reset input (R240, R241): every element of the record R50 takes its reset value. The configuration is no state
(R30); the schedule, the host's last read word, the host-fault record (never cleared, R231) and the draw counter belong
to the outside world and stay. -/
def State.assertReset (s : State) : State :=
  { State.resetOf s.cfg with
    turns := s.turns
    busData := s.busData
    hostFault := s.hostFault
    draws := s.draws }

end Sys2Proof.Machine
end

