-- ==== Sys2Proof/Machine/Operands.lean ====
section
/-! DEFINITION. What each operand form names in the state (spec/30_encoding.md rules R101, R102, R106): a symbol by value
(form S), a digit (form B), an entry index (form I). Form N names nothing. -/

namespace Sys2Proof.Machine

/-- The range check of a symbol operand: sym < 2^SYM_W (R106). -/
def symInRange (cfg : Config) (sym : Symbol) : Bool := decide (sym.toNat < 2 ^ cfg.symW)

/-- Form S: the index i of the FT entry with FT[i].sym = sym, if there is one; at most one by R43, and the first is taken
(R132, R172). -/
def findEntry (ft : List Entry) (sym : Symbol) : Option Nat := ft.findIdx? (fun e => decide (e.sym = sym))

/-- The codes CT[0] .. CT[N-1] the lookups range over (R44, R180). -/
def State.codes (s : State) : List Code := s.ct.take s.ft.length

/-- CT[i] (R44). On a valid table i < N = |CT|; past the end the empty string stands. -/
def State.codeAt (s : State) (i : Nat) : Code := s.ct.getD i []

/-- FT[i].cnt (R43). Only asked for i < N; past the end 0 stands. -/
def State.cntAt (s : State) (i : Nat) : Nat := ((s.ft[i]?).map Entry.cnt).getD 0

/-- FT[i].sym (R43). Only asked for i < N; past the end 0 stands. -/
def State.symAt (s : State) (i : Nat) : Symbol := ((s.ft[i]?).map Entry.sym).getD 0#21

/-- The result tuple (FT[i].sym, FT[i].cnt, CT[i]) of ENC, DEC_BIT and a QUERY on a valid table (R172, R180, R195). -/
def State.row (s : State) (i : Nat) : Result := { sym := s.symAt i, cnt := s.cntAt i, code := s.codeAt i }

/-- The result tuple (FT[i].sym, FT[i].cnt, "") of a QUERY on an unbuilt table (R196). -/
def State.rowUncoded (s : State) (i : Nat) : Result := { sym := s.symAt i, cnt := s.cntAt i, code := [] }

/-- Form B: `nb <- dbuf ++ b` (R180). -/
def State.fed (s : State) (b : Digit) : Code := s.dbuf ++ [b]

/-- The index i < N with CT[i] = c, if there is one; at most one by R184, and the first is taken (R180). -/
def State.matchCode (s : State) (c : Code) : Option Nat := s.codes.findIdx? (fun d => decide (d = c))

/-- Some i < N has isPrefix(c, CT[i]) (R10, R180). -/
def State.extendable (s : State) (c : Code) : Bool := s.codes.any (fun d => c.isPrefixOf d)

end Sys2Proof.Machine
end

