-- ==== Sys2Proof/Machine/Flags.lean ====
section
/-! DEFINITION. The derived values and the STATUS word: every register that is a function of the state
(spec/10_state.md rules R33 to R42, R50; spec/60_exceptions.md rule R220). -/

namespace Sys2Proof

/-- MAX_CODE_LEN = max(1, MAX_SYMS − 1) (R7). -/
def Config.maxCodeLen (c : Config) : Nat := max 1 (c.maxSyms - 1)

/-- CODE_WORDS = ceil(MAX_CODE_LEN / 32) (R7). -/
def Config.codeWords (c : Config) : Nat := (c.maxCodeLen + 31) / 32

end Sys2Proof

namespace Sys2Proof.Machine

/-- The code of an outcome in STATUS.ERR (R220). -/
def ErrCode.toByte : ErrCode → BitVec 8
  | .ok => 0#8
  | .unknownSymbol => 1#8
  | .incompleteCode => 2#8
  | .emptyCodeTable => 3#8
  | .emptyInput => 4#8
  | .illegalCommand => 5#8
  | .illegalOperand => 6#8
  | .alphabetOverflow => 7#8
  | .countOverflow => 8#8
  | .notBuilt => 9#8
  | .sequenceLost => 10#8
  | .indexOutOfRange => 11#8

/-- STATUS.TABLE_ALG: 0, 1, 2 for NONE, SF, HUFF (R37, R44). -/
def CodeTag.alg : CodeTag → BitVec 2
  | .none => 0#2
  | .sf => 1#2
  | .huff => 2#2

/-- STATUS.TABLE_VALID = (ctag ≠ NONE) (R44). -/
def State.tableValid (s : State) : Bool := decide (s.ctag ≠ .none)

/-- STATUS.BUSY: the latch holds a word (R36, R49). -/
def State.busy (s : State) : Bool := s.pend.isSome

/-- N_SYMS = |FT| (R42). -/
def State.nSyms (s : State) : Nat := s.ft.length

/-- TOTAL (R42). -/
def State.total (s : State) : Nat := totalOf s.ft

/-- Σ FT[i].cnt × len(CT[i]) over the entries (R39). -/
def weightedLength : List Entry → List Code → Nat
  | [], _ => 0
  | _ :: _, [] => 0
  | e :: ft, c :: ct => e.cnt * c.length + weightedLength ft ct

/-- SUMWL (R39): 0 while no table is valid. -/
def State.sumwl (s : State) : Nat := if s.tableValid then weightedLength s.ft s.ct else 0

/-- DEC_BUF_LEN = len(dbuf) (R46). -/
def State.decBufLen (s : State) : Nat := s.dbuf.length

/-- The STATUS word (R35, R50): BUSY at bit 0, TABLE_VALID at 1, TABLE_ALG at 3:2, SYM_VALID at 4, DEC_DEAD at 5, SEQ_LOST at 6,
CMD_OVERRUN at 7, ERR at 15:8, and 0 above. The fields do not overlap, so their sum is the OR of R50. -/
def State.status (s : State) : Word :=
  BitVec.ofNat 32
    (s.busy.toNat + s.tableValid.toNat * 2 ^ 1 + s.ctag.alg.toNat * 2 ^ 2 + s.symValid.toNat * 2 ^ 4 + s.ddead.toNat * 2 ^ 5
      + s.seqLost.toNat * 2 ^ 6 + s.overrun.toNat * 2 ^ 7 + s.err.toByte.toNat * 2 ^ 8)

/-- What a STATUS read returns while BUSY = 1: bit 0 is 1, bit 7 is the current CMD_OVERRUN, every other field is the free
word's (R65), and the reserved bits 31:16, which are no field, are 0 (R35). -/
def busyStatus (overrun : Bool) (free : Word) : Word :=
  (free &&& 0x0000FF7E#32) ||| 0x00000001#32 ||| (if overrun then 0x00000080#32 else 0x00000000#32)

/-- The natural number whose bit j is digit j of the string: the first digit is the least significant bit (R41). -/
def digitsToNat : Code → Nat
  | [] => 0
  | d :: ds => d.toNat + 2 * digitsToNat ds

/-- RESULT_CODE[k]: bit j is c[32k + j] when 32k + j < len(c), and 0 otherwise (R41). -/
def packWord (c : Code) (k : Nat) : Word := BitVec.ofNat 32 (digitsToNat ((c.drop (32 * k)).take 32))

/-- The host's reading of a result code: the `len` digits of the RESULT_CODE words (R41, R175). -/
def unpackDigits (len : Nat) (words : Nat → Word) : Code :=
  (List.range len).map (fun i => (words (i / 32)).getLsbD (i % 32))

end Sys2Proof.Machine
end

