-- ==== Sys2Proof/Machine/Bus.lean ====
section
/-! DEFINITION. The register map and the host's accesses (spec/10_state.md rules R31 to R41, spec/20_memory.md rules R61,
R63, R65, R66, R70 to R74, R77, R78, R80). -/

namespace Sys2Proof.Machine

/-- The registers of the map R31. -/
inductive Reg where
  | id
  | param0
  | param1
  | cmd
  | status
  | resultSym
  | resultCount
  | resultLen
  | nSyms
  | total
  | sumwlLo
  | sumwlHi
  | decBufLen
  | resultCode (k : Fin 16)
  | reserved
  deriving DecidableEq, Repr

/-- The register at a word index (offset divided by 4): the map of R31, offsets 0x34 to 0x3C and 0x80 to 0xFC reserved. -/
def regAtIndex (n : Nat) : Reg :=
  if n = 0 then .id
  else if n = 1 then .param0
  else if n = 2 then .param1
  else if n = 3 then .cmd
  else if n = 4 then .status
  else if n = 5 then .resultSym
  else if n = 6 then .resultCount
  else if n = 7 then .resultLen
  else if n = 8 then .nSyms
  else if n = 9 then .total
  else if n = 10 then .sumwlLo
  else if n = 11 then .sumwlHi
  else if n = 12 then .decBufLen
  else if 16 ≤ n ∧ n < 32 then .resultCode (Fin.ofNat 16 (n - 16))
  else .reserved

/-- The register at a word-aligned byte offset (R31). -/
def regAt (off : Nat) : Reg := regAtIndex (off / 4)

/-- The constant of ID (R32). -/
def idValue : Word := 0x50435531#32

/-- PARAM0: [7:0] SYM_W, [15:8] CNT_W, [31:16] 0 (R33). -/
def param0Value (cfg : Config) : Word := BitVec.ofNat 32 (cfg.symW % 2 ^ 8 + cfg.cntW % 2 ^ 8 * 2 ^ 8)

/-- PARAM1: [15:0] MAX_SYMS, [31:16] MAX_CODE_LEN (R33). -/
def param1Value (cfg : Config) : Word := BitVec.ofNat 32 (cfg.maxSyms % 2 ^ 16 + cfg.maxCodeLen % 2 ^ 16 * 2 ^ 16)

/-- What a read of a register returns while BUSY = 0, as a function of the state (R31 to R42, R66). CMD and the reserved
offsets read 0 (R34, R66). -/
def State.regValue (s : State) : Reg → Word
  | .id => idValue
  | .param0 => param0Value s.cfg
  | .param1 => param1Value s.cfg
  | .cmd => 0#32
  | .status => s.status
  | .resultSym => s.resSym.setWidth 32
  | .resultCount => BitVec.ofNat 32 s.resCount
  | .resultLen => BitVec.ofNat 32 (s.resCode.length % 2 ^ 10)
  | .nSyms => BitVec.ofNat 32 (s.nSyms % 2 ^ 10)
  | .total => BitVec.ofNat 32 s.total
  | .sumwlLo => BitVec.ofNat 32 s.sumwl
  | .sumwlHi => BitVec.ofNat 32 (s.sumwl / 2 ^ 32)
  | .decBufLen => BitVec.ofNat 32 (s.decBufLen % 2 ^ 10)
  | .resultCode k => packWord s.resCode k.val
  | .reserved => 0#32

/-- Bits [8k+7:8k] of a register, which a bus bridge finds at its word offset + k: little-endian byte lanes (R70). -/
def byteLane (w : Word) (k : Nat) : BitVec 8 := w.extractLsb' (8 * k) 8

/-- The access lies within the register space: PCU_BASE to PCU_BASE + 0xFF (R80). -/
def Access.inWindow (a : Access) (cfg : Config) : Bool := decide (cfg.pcuBase ≤ a.addr ∧ a.addr < cfg.pcuBase + 256)

/-- The offset of an access from PCU_BASE (R80). -/
def Access.offset (a : Access) (cfg : Config) : Nat := a.addr - cfg.pcuBase

/-- The defined accesses: 32 bits wide with all four byte lanes enabled, at an offset within 0x00..0xFC with bits [1:0] = 00
(R73). -/
def Access.defined (a : Access) (cfg : Config) : Bool :=
  a.inWindow cfg && decide (a.offset cfg % 4 = 0) && decide (a.bytes = 4) && decide (a.lanes = 0xF#4)

/-- The host receives a word. -/
def State.returnWord (s : State) (w : Word) : State := { s with busData := w }

/-- The host receives a word the spec leaves open: the next free draw. -/
def State.returnFree (s : State) : State := { s with busData := Config.freeRead s.draws, draws := s.draws + 1 }

/-- A STATUS read while BUSY = 1 (R65). -/
def State.returnBusyStatus (s : State) : State :=
  { s with busData := busyStatus s.overrun (Config.freeRead s.draws), draws := s.draws + 1 }

/-- A defined read (R65, R66): while BUSY = 1 the three constants, two fields of STATUS and its reserved bits have a value and
every other register has none; a reserved offset, which is no register, reads 0 whether busy or not (R31; log 8). No read
changes the unit (R77). -/
def State.busRead (s : State) (r : Reg) : State :=
  if s.busy then
    match r with
    | .id => s.returnWord (s.regValue .id)
    | .param0 => s.returnWord (s.regValue .param0)
    | .param1 => s.returnWord (s.regValue .param1)
    | .status => s.returnBusyStatus
    | .reserved => s.returnWord (s.regValue .reserved)
    | _ => s.returnFree
  else s.returnWord (s.regValue r)

/-- A write to CMD: latched when the latch is empty (R61), dropped with CMD_OVERRUN otherwise (R63). -/
def State.writeCmd (s : State) (w : Word) : State :=
  match s.pend with
  | none => { s with pend := some w }
  | some _ => { s with overrun := true }

/-- A write to STATUS: bit 7 = 1 clears CMD_OVERRUN; nothing else matters (R78). -/
def State.writeStatus (s : State) (w : Word) : State := if w.getLsbD 7 then { s with overrun := false } else s

/-- A defined write (R61, R63, R72, R78): only CMD and STATUS take one. -/
def State.busWrite (s : State) (r : Reg) (w : Word) : State :=
  match r with
  | .cmd => s.writeCmd w
  | .status => s.writeStatus w
  | _ => s

/-- Any other access (R74, R231): the unit is unchanged, a read returns a free word, and the host program is recorded as
faulted for good (log 4). -/
def State.hostFaulted (s : State) (k : AccessKind) : State :=
  match k with
  | .read => { s with hostFault := true }.returnFree
  | .write _ => { s with hostFault := true }

/-- One access of the host. -/
def State.access (s : State) (a : Access) : State :=
  if a.defined s.cfg then
    match a.kind with
    | .read => s.busRead (regAt (a.offset s.cfg))
    | .write w => s.busWrite (regAt (a.offset s.cfg)) w
  else s.hostFaulted a.kind

/-- The reset input, with what the host attempts in the same step: an access has no effect on the unit (R241), and one outside
R73 is a host fault in this step as in any other (R231; DEDUCED, log 4). A defined access has no effect at all. -/
def State.resetDuring (s : State) (during : Option Access) : State :=
  match during with
  | none => s.assertReset
  | some a => if a.defined s.cfg then s.assertReset else (s.hostFaulted a.kind).assertReset

end Sys2Proof.Machine
end

