-- ==== Sys2Proof/Machine/ShannonFano.lean ====
section
/-! DEFINITION. The Shannon-Fano recursive splitter and BUILD_SF (spec/41_shannon_fano.md rules R140 to R143). -/

namespace Sys2Proof.Machine

/-- An element of the list the splitter works on: an FT entry index and that entry's count (R141). -/
structure Item where
  idx : Nat
  cnt : Nat
  deriving DecidableEq, Repr

/-- The FT entries as items, in index order. -/
def itemsOf (ft : List Entry) : List Item := ft.zipIdx.map (fun p => { idx := p.2, cnt := p.1.cnt })

/-- The sort key (-cnt, idx) ascending: by count descending and, among equal counts, by entry index ascending (R141). -/
def Item.before (a b : Item) : Bool := decide (b.cnt < a.cnt) || (decide (a.cnt = b.cnt) && decide (a.idx ≤ b.idx))

/-- `order` of R141. -/
def sfOrder (ft : List Entry) : List Item := (itemsOf ft).insertionSort (fun a b => a.before b = true)

/-- The sum of the counts of a list of items. -/
def itemTotal (l : List Item) : Nat := (l.map Item.cnt).sum

/-- The scan of R142 from position `k` on, `run` being the running sum so far: the first index whose running sum reaches
half of `total`, tested as 2 × run ≥ total. -/
def scanSplit (total run k : Nat) : List Item → Nat
  | [] => k
  | x :: xs => if total ≤ 2 * (run + x.cnt) then k else scanSplit total (run + x.cnt) (k + 1) xs

/-- `splitPoint(L)` (R142). -/
def splitPoint (l : List Item) : Nat := scanSplit (itemTotal l) 0 0 l

/-- `split(L, prefix)` (R143), answering the (index, code) pairs it writes. The fuel bounds the depth of the recursion; the
number of items is enough, since both sides of a split are shorter than the list (R145, R150). The guard on an empty right
side is kept as the algorithm writes it (90_conflicts.md C2). -/
def sfSplit : Nat → List Item → Code → List (Nat × Code)
  | 0, _, _ => []
  | _ + 1, [], _ => []
  | _ + 1, [x], p => [(x.idx, if p = [] then [false] else p)]
  | fuel + 1, x :: y :: rest, p =>
    let l := x :: y :: rest
    let i := splitPoint l
    let left := l.take (i + 1)
    let right := l.drop (i + 1)
    sfSplit fuel left (p ++ [false]) ++ (if right = [] then [] else sfSplit fuel right (p ++ [true]))

/-- The code a list of (index, code) pairs gives an index; the empty string for an index it does not hold. -/
def codeOf (pairs : List (Nat × Code)) (i : Nat) : Code := (pairs.lookup i).getD []

/-- The list of the codes of entries 0 to n − 1. -/
def codesOf (n : Nat) (pairs : List (Nat × Code)) : List Code := (List.range n).map (codeOf pairs)

/-- `sfCodes(ft)` (R143): the base call `split(order, "")`, the codes written back to each entry's own index. An empty FT
gives the empty table. -/
def sfCodes (ft : List Entry) : List Code := codesOf ft.length (sfSplit ft.length (sfOrder ft) [])

/-- BUILD_SF (R140). -/
def execBuildSf (s : State) : Host.Outcome State Fault Refusal :=
  if s.seqLost then .next (s.raise .sequenceLost) else .next (s.install .sf (sfCodes s.ft)).finishOk

end Sys2Proof.Machine
end

