-- ==== Sys2Proof/Machine/Huffman.lean ====
section
/-! DEFINITION. The Huffman tree builder and BUILD_HUFF (spec/42_huffman.md rules R160 to R165). -/

namespace Sys2Proof.Machine

/-- A node of the queue (R161): its weight, its insertion sequence number, and its payload, which maps entry indices to
partial codes. -/
structure Node where
  weight : Nat
  seq : Nat
  payload : List (Nat × Code)
  deriving DecidableEq, Repr

/-- Step 1, the seed nodes in first-occurrence order (R161). -/
def seedNodes (ft : List Entry) : List Node :=
  ft.zipIdx.map (fun p => { weight := p.1.cnt, seq := p.2, payload := [(p.2, [])] })

/-- The key (weight, seq) of `a` is less than that of `b`, lexicographically (R162). -/
def Node.keyLt (a b : Node) : Bool := decide (a.weight < b.weight) || (decide (a.weight = b.weight) && decide (a.seq < b.seq))

/-- `popMin` (R162): the node with the least key, and the nodes that stay. -/
def popMin : List Node → Option (Node × List Node)
  | [] => none
  | n :: q =>
    match popMin q with
    | none => some (n, [])
    | some (m, rest) => if m.keyLt n then some (m, n :: rest) else some (n, m :: rest)

/-- Prepends a digit to every code of a payload (R164). -/
def prependAll (d : Digit) (p : List (Nat × Code)) : List (Nat × Code) := p.map (fun ic => (ic.1, d :: ic.2))

/-- The node pushed for the first-popped `a` and the second-popped `b` (R164), its sequence number given (R163). -/
def mergeNodes (a b : Node) (seq : Nat) : Node where
  weight := a.weight + b.weight
  seq := seq
  payload := prependAll false a.payload ++ prependAll true b.payload

/-- The merge loop (R164): the payload of the one node left. `seq` is the sequence number of the next merged node; the fuel
bounds the number of merges, which is one less than the number of nodes. -/
def huffMerge : Nat → Nat → List Node → List (Nat × Code)
  | fuel, seq, q =>
    match popMin q with
    | none => []
    | some (a, q1) =>
      match popMin q1 with
      | none => a.payload
      | some (b, q2) =>
        match fuel with
        | 0 => []
        | f + 1 => huffMerge f (seq + 1) (mergeNodes a b seq :: q2)

/-- `huffCodes(ft)` (R165): the empty table for N = 0, ["0"] for N = 1 without a merge (R167), else the merge loop's payload
in entry order. -/
def huffCodes (ft : List Entry) : List Code :=
  if ft.length = 0 then []
  else if ft.length = 1 then [[false]]
  else codesOf ft.length (huffMerge ft.length ft.length (seedNodes ft))

/-- BUILD_HUFF (R160). -/
def execBuildHuff (s : State) : Host.Outcome State Fault Refusal :=
  if s.seqLost then .next (s.raise .sequenceLost) else .next (s.install .huff (huffCodes s.ft)).finishOk

end Sys2Proof.Machine
end

