-- ==== Sys2Proof/Machine/Lookup.lean ====
section
/-! DEFINITION. The lookups: ENC (spec/43_encode.md rule R172), DEC_BIT and DEC_END (spec/44_decode.md rules R180 to R183),
QUERY (spec/45_analytics.md rules R195 to R197). -/

namespace Sys2Proof.Machine

/-- ENC's rule on a symbol in range (R172). -/
def State.encSym (s : State) (sym : Symbol) : State :=
  if s.ctag = .none then s.raise .notBuilt
  else
    match findEntry s.ft sym with
    | none => s.raise .unknownSymbol
    | some i => s.finishWith { sym := sym, cnt := s.cntAt i, code := s.codeAt i }

/-- ENC sym (R172). A symbol of 2^SYM_W or more is IllegalOperand and nothing else (R106, log 9). -/
def execEnc (sym : Symbol) (s : State) : Host.Outcome State Fault Refusal :=
  if symInRange s.cfg sym then .next (s.encSym sym) else .next (s.raise .illegalOperand)

/-- DEC_BIT's scan of one digit on a live buffer (R180): a match emits and empties the buffer, a proper prefix waits, and a
buffer that can match no code any more is dead (R181). -/
def State.feed (s : State) (nb : Code) : State :=
  match s.matchCode nb with
  | some i => { s with dbuf := [] }.finishEmit (s.row i)
  | none =>
    if s.extendable nb then { s with dbuf := nb }.finishOk else { s with dbuf := nb, ddead := true }.finishOk

/-- DEC_BIT b (R180). -/
def execDecBit (b : Digit) (s : State) : Host.Outcome State Fault Refusal :=
  if s.ctag = .none then .next (s.raise .notBuilt)
  else if s.ft.length = 0 then .next (s.raise .emptyCodeTable)
  else if s.ddead then .next s.finishOk
  else .next (s.feed (s.fed b))

/-- DEC_END (R182). On an empty buffer it changes nothing but the completion's fields: a dead buffer is never empty (R46). -/
def execDecEnd (s : State) : Host.Outcome State Fault Refusal :=
  if s.ctag = .none then .next (s.raise .notBuilt)
  else if s.dbuf ≠ [] then .next (s.emptyDecoder.raise .incompleteCode)
  else .next s.finishOk

/-- QUERY idx (R195): the row with its code on a valid table, without one on an unbuilt table (R196). -/
def execQuery (idx : BitVec 16) (s : State) : Host.Outcome State Fault Refusal :=
  if s.ft.length ≤ idx.toNat then .next (s.raise .indexOutOfRange)
  else if s.ctag = .none then .next (s.finishWith (s.rowUncoded idx.toNat))
  else .next (s.finishWith (s.row idx.toNat))

end Sys2Proof.Machine
end

