-- ==== Sys2Proof/Machine/Sequence.lean ====
section
/-! DEFINITION. NOP, CLEAR and LOAD_SYM (spec/40_sequence.md rules R130 to R135). -/

namespace Sys2Proof.Machine

/-- NOP (R135). -/
def execNop (s : State) : Host.Outcome State Fault Refusal := .next s.finishOk

/-- What CLEAR does before it finishes (R130): `ft <- []; ctag <- NONE; dbuf <- ""; ddead <- 0; seqLost <- 0`. -/
def State.clearSequence (s : State) : State :=
  { s with ft := [], ctag := .none, dbuf := [], ddead := false, seqLost := false }

/-- CLEAR (R130). -/
def execClear (s : State) : Host.Outcome State Fault Refusal := .next s.clearSequence.finishOk

/-- The successful end of a LOAD_SYM: the new FT, the table invalidated, the decoder emptied (R132, R134). -/
def State.loaded (s : State) (ft : List Entry) : State := ((s.setFt ft).invalidate).finishOk

/-- LOAD_SYM's rule on a symbol in range (R132), its checks in the order of R223. -/
def State.loadSym (s : State) (sym : Symbol) : State :=
  if s.seqLost then s.raise .sequenceLost
  else if s.total = maxTotal s.cfg then s.loseSequence.raise .countOverflow
  else
    match findEntry s.ft sym with
    | some i => s.loaded (s.ft.modify i Entry.bump)
    | none =>
      if s.ft.length = s.cfg.maxSyms then s.loseSequence.raise .alphabetOverflow
      else s.loaded (s.ft ++ [{ sym := sym, cnt := 1 }])

/-- LOAD_SYM sym (R132). A symbol of 2^SYM_W or more is IllegalOperand and nothing else (R106); the decoder never hands
one on (R108), so this arm of the test is for the command as syntax only (log 9). -/
def execLoadSym (sym : Symbol) (s : State) : Host.Outcome State Fault Refusal :=
  if symInRange s.cfg sym then .next (s.loadSym sym) else .next (s.raise .illegalOperand)

end Sys2Proof.Machine
end

