-- ==== Sys2Proof/Machine/Dispatch.lean ====
section
/-! DEFINITION. exec: one arm per command (spec/30_encoding.md rule R103). -/

namespace Sys2Proof.Machine

def exec (i : Instr) (s : State) : Host.Outcome State Fault Refusal :=
  match i with
  | .nop => Sys2Proof.Machine.execNop s
  | .clear => Sys2Proof.Machine.execClear s
  | .loadSym sym => Sys2Proof.Machine.execLoadSym sym s
  | .buildSf => Sys2Proof.Machine.execBuildSf s
  | .buildHuff => Sys2Proof.Machine.execBuildHuff s
  | .enc sym => Sys2Proof.Machine.execEnc sym s
  | .decBit b => Sys2Proof.Machine.execDecBit b s
  | .decEnd => Sys2Proof.Machine.execDecEnd s
  | .query idx => Sys2Proof.Machine.execQuery idx s

end Sys2Proof.Machine
end

