-- ==== Sys2Proof/Machine/Engine.lean ====
section
/-! DEFINITION. The command engine and one turn of the system (spec/20_memory.md rules R60, R62; spec/60_exceptions.md rule
R222). -/

namespace Sys2Proof.Machine

/-- Executes what a command word decodes to (R108): a command's own rule, or one of the two raises that come before it. -/
def execDecoded (d : Decoded) (s : State) : Host.Outcome State Fault Refusal :=
  match d with
  | .instr i => exec i s
  | .illegalCommand => .next (s.raise .illegalCommand)
  | .illegalOperand => .next (s.raise .illegalOperand)

/-- The engine step (R62), enabled exactly when the latch holds a word; without one nothing happens. -/
def engineStep (s : State) : Host.Outcome State Fault Refusal :=
  match s.pend with
  | none => .next s
  | some w => retireOutcome (execDecoded (decode s.cfg w) s)

/-- One turn of the system (R60, R240, R241). -/
def runTurn (t : Turn) (s : State) : Host.Outcome State Fault Refusal :=
  match t with
  | .host a => .next (s.access a)
  | .engine => engineStep s
  | .reset during => .next (s.resetDuring during)

/-- A list of turns, one after the other. -/
def runTurns : List Turn → State → Host.Outcome State Fault Refusal
  | [], s => .next s
  | t :: ts, s => andThen (runTurn t s) (runTurns ts)

/-- The machine's next step: the next turn of the schedule, and with the schedule empty the engine's (weak fairness, R60,
R250); with neither a turn nor a pending command the unit idles (log 1). -/
def advance (s : State) : Host.Outcome State Fault Refusal :=
  match s.turns with
  | [] => engineStep s
  | t :: ts => runTurn t { s with turns := ts }

/-- A command word placed where the engine takes its next one, the engine's turn being next. -/
def State.latch (s : State) (w : Word) : State := { s with pend := some w, turns := .engine :: s.turns }

end Sys2Proof.Machine
end

