-- ==== Sys2Proof/Machine/Step.lean ====
section
/-! DEFINITION. The step of the machine (spec/20_memory.md rule R60), and the placing of a command for the host's checks. -/

namespace Sys2Proof.Machine

/-- One atomic step of the system: a host access, an engine step or a reset (R60, R240). -/
def step (s : State) : Host.Outcome State Fault Refusal := advance s

/-- `s` with a table word in the pending-command latch and the engine's turn next: the PCU has no program counter and
fetches nothing (R79, R112); a command runs once a CMD write has latched it (R61), so a program comes to run by its words
being placed in the latch one at a time (log 10). -/
def State.withFetchWord (s : State) (nbits w : Nat) : State := s.latch (tableWord nbits w)

end Sys2Proof.Machine
end

