-- ==== Sys2Proof/Machine/HostSide.lean ====
section
/-! DEFINITION. The host procedures over the register interface, which recover the document's build, encode and decode
(spec/00_scope.md rule R8, spec/30_encoding.md rule R111, spec/40_sequence.md rule R137, spec/43_encode.md rule R175,
spec/44_decode.md rules R186, R187), and the document's own buffer scan. -/

namespace Sys2Proof.Machine

/-- `BusWrite(PCU_BASE + off, 4, w)` (R13). -/
def busWriteTurn (cfg : Config) (off : Nat) (w : Word) : Turn :=
  .host { kind := .write w, addr := cfg.pcuBase + off, bytes := 4, lanes := 0xF#4 }

/-- `BusRead(PCU_BASE + off, 4)` (R13). -/
def busReadTurn (cfg : Config) (off : Nat) : Turn :=
  .host { kind := .read, addr := cfg.pcuBase + off, bytes := 4, lanes := 0xF#4 }

/-- Issues a command word and waits: the CMD write, then the engine step that the WAIT loop sees the end of (R110, R111).
The STATUS reads of the loop change nothing of the unit (R77) and are left out (DEDUCED, log 12). -/
def issueWord (w : Word) (s : State) : Host.Outcome State Fault Refusal :=
  runTurns [busWriteTurn s.cfg 0x0C w, .engine] s

/-- Issues one command. -/
def issue (i : Instr) (s : State) : Host.Outcome State Fault Refusal := issueWord (encode i) s

/-- Issues commands in the order written, each followed by WAIT (R111). -/
def issueAll : List Instr → State → Host.Outcome State Fault Refusal
  | [], s => .next s
  | i :: is, s => andThen (issue i s) (issueAll is)

/-- The algorithm of a `BUILD <alg>` (R111). -/
inductive Alg where
  | sf
  | huff
  deriving DecidableEq, Repr

/-- The build command of an algorithm. -/
def Alg.command : Alg → Instr
  | .sf => .buildSf
  | .huff => .buildHuff

/-- The tag a build of the algorithm leaves. -/
def Alg.tag : Alg → CodeTag
  | .sf => .sf
  | .huff => .huff

/-- The builder of an algorithm. -/
def Alg.codes : Alg → List Entry → List Code
  | .sf => sfCodes
  | .huff => huffCodes

/-- `LOAD_STR` (R111). -/
def loadProgram (seq : List Symbol) : List Instr := seq.map Instr.loadSym

/-- `BUILD <alg> "s"`, the document's build(sequence) (R111, R137). -/
def buildProgram (alg : Alg) (seq : List Symbol) : List Instr := .clear :: (loadProgram seq ++ [alg.command])

/-- STATUS.ERR of a STATUS word (R35). -/
def errField (w : Word) : BitVec 8 := w.extractLsb' 8 8

/-- STATUS.SYM_VALID of a STATUS word (R35). -/
def symValidField (w : Word) : Bool := w.getLsbD 4

/-- The digits of the result code as the host reads them while BUSY = 0: the RESULT_LEN digits of RESULT_CODE (R41, R66). -/
def readCode (s : State) : Code :=
  unpackDigits (s.regValue .resultLen).toNat (fun k => s.regValue (.resultCode (Fin.ofNat 16 k)))

/-- The symbol of RESULT_SYM (R40). -/
def readSym (s : State) : Symbol := (s.regValue .resultSym).setWidth 21

/-- What a host procedure answers, with the state it leaves: a value, or the outcome code it stopped at. -/
abbrev HostAnswer (α : Type) := Except (BitVec 8) α × State

/-- The document's encode(sequence) (R175). -/
def encodeSeq : List Symbol → State → Host.Outcome (HostAnswer Code) Fault Refusal
  | [], s => .next (.ok [], s)
  | x :: xs, s =>
    andThen (issue (.enc x) s) fun t =>
      if errField (t.regValue .status) ≠ 0#8 then .next (.error (errField (t.regValue .status)), t)
      else andThen (encodeSeq xs t) fun a => .next (a.1.map (readCode t ++ ·), a.2)

/-- The document's decode(bits) (R186). -/
def decodeSeq : Code → State → Host.Outcome (HostAnswer (List Symbol)) Fault Refusal
  | [], s =>
    andThen (issue .decEnd s) fun t =>
      if errField (t.regValue .status) ≠ 0#8 then .next (.error (errField (t.regValue .status)), t)
      else .next (.ok [], t)
  | d :: ds, s =>
    andThen (issue (.decBit d) s) fun t =>
      if errField (t.regValue .status) ≠ 0#8 then .next (.error (errField (t.regValue .status)), t)
      else
        andThen (decodeSeq ds t) fun a =>
          .next (a.1.map (fun out => if symValidField (t.regValue .status) then readSym t :: out else out), a.2)

/-- The document's decode algorithm on a code table (§4.5, R187): digits accumulate in a buffer; whenever the buffer equals a
code, its symbol is emitted and the buffer reset. Answers the symbols and the buffer left at the end. -/
def bufferScan (table : List (Symbol × Code)) : Code → Code → List Symbol × Code
  | buf, [] => ([], buf)
  | buf, d :: ds =>
    match table.find? (fun p => decide (p.2 = buf ++ [d])) with
    | some p => (p.1 :: (bufferScan table [] ds).1, (bufferScan table [] ds).2)
    | none => bufferScan table (buf ++ [d]) ds

/-- The code table as pairs of a symbol and its code (R44). -/
def State.table (s : State) : List (Symbol × Code) := (s.ft.map Entry.sym).zip s.ct

end Sys2Proof.Machine
end

