-- ==== Sys2Proof/Machine/Analytics.lean ====
section
/-! DEFINITION. The host-side analytics (spec/45_analytics.md rules R198 to R203): the rows read with QUERY, and the
statistics over exact numbers. Nothing a step does depends on this file. -/

namespace Sys2Proof.Machine

/-- The result tuple as the host reads it from the result registers while BUSY = 0 (R40, R66). -/
def readResult (s : State) : Result where
  sym := readSym s
  cnt := (s.regValue .resultCount).toNat
  code := readCode s

/-- QUERY of a list of indices, each row read back (R198). -/
def queryRows : List Nat → State → Host.Outcome (List Result × State) Fault Refusal
  | [], s => .next ([], s)
  | i :: is, s =>
    andThen (issue (.query (BitVec.ofNat 16 i)) s) fun t =>
      andThen (queryRows is t) fun a => .next (readResult t :: a.1, a.2)

/-- The document's analytics rows, for i = 0 to N_SYMS − 1 in first-occurrence order (R198). -/
def analyticsRows (s : State) : Host.Outcome (List Result × State) Fault Refusal := queryRows (List.range s.nSyms) s

/-- Probability: count / TOTAL, an exact rational (R200). -/
def probability (s : State) (cnt : Nat) : ℚ := (cnt : ℚ) / (s.total : ℚ)

/-- Average code length: SUMWL / TOTAL (R201), and 0 for the empty table (R203). -/
def averageLength (s : State) : ℚ := if s.total = 0 then 0 else (s.sumwl : ℚ) / (s.total : ℚ)

/-- Entropy: −Σ probability × log2(probability) over exact reals (R202); the empty sum is 0 (R203). A real logarithm has no
program, so this one definition is not computable; no step uses it. -/
noncomputable def entropy (s : State) : ℝ :=
  - (s.ft.map (fun e => ((e.cnt : ℝ) / (s.total : ℝ)) * Real.logb 2 ((e.cnt : ℝ) / (s.total : ℝ)))).sum

end Sys2Proof.Machine
end

