-- ==== Sys2Proof/Safety.lean ====
section
/-! DEFINITION. The notions the statements are made of: the prefix property, Kraft sums, the frequency table of a sequence, the
unit's part of a state, the accesses outside R73 (spec/20_memory.md), and the state invariant (spec/10_state.md rules R40 to R47). -/

namespace Sys2Proof.Machine

/-- The prefix property: no code of the list is a prefix of the code at another place (R44, R146, R169). -/
abbrev PrefixFree (codes : List Code) : Prop := codes.Pairwise (fun c d => ¬ c <+: d ∧ ¬ d <+: c)

/-- Σ 2^(−len(c)) over the codes (R147, R170). -/
def kraftSum (codes : List Code) : ℚ := (codes.map (fun c => (1 / 2 : ℚ) ^ c.length)).sum

/-- Every bit string is a prefix of some code or has some code as a prefix (R147, R170). -/
def Complete (codes : List Code) : Prop := ∀ d : Code, ∃ c ∈ codes, d <+: c ∨ c <+: d

/-- The distinct symbols of a sequence in first-occurrence order (R131, R136). -/
def firstOccurrences : List Symbol → List Symbol
  | [] => []
  | x :: xs => x :: (firstOccurrences xs).filter (fun y => decide (y ≠ x))

/-- The document's frequency table of a sequence (R136). -/
def frequencyTable (seq : List Symbol) : List Entry :=
  (firstOccurrences seq).map (fun x => { sym := x, cnt := seq.count x })

/-- A state without what belongs to the outside world: the schedule, the host's last word, the host-fault record, the draw
counter. Two states with the same unit part show the host the same unit. -/
def State.unitPart (s : State) : State := { s with turns := [], busData := 0#32, hostFault := false, draws := 0 }

/-- An access outside R73: outside the window, misaligned, not 32 bits wide, or without all four byte lanes (R73, R74). -/
abbrev Access.outsideR73 (a : Access) (cfg : Config) : Prop :=
  a.addr < cfg.pcuBase ∨ cfg.pcuBase + 0xFC < a.addr ∨ (a.addr - cfg.pcuBase) % 4 ≠ 0 ∨ a.bytes ≠ 4 ∨ a.lanes ≠ 0xF#4

/-- The frequency table's invariants (R43, R133). -/
structure FtInv (s : State) : Prop where
  symsDistinct : (s.ft.map Entry.sym).Nodup
  countsPositive : ∀ e ∈ s.ft, 1 ≤ e.cnt
  totalBound : s.total ≤ maxTotal s.cfg
  sizeBound : s.ft.length ≤ s.cfg.maxSyms
  symRange : ∀ e ∈ s.ft, e.sym.toNat < 2 ^ s.cfg.symW

/-- The code table's invariants (R44, R133): a valid table is the one its builder makes from FT. -/
structure TableInv (s : State) : Prop where
  sfBuilt : s.ctag = .sf → s.ct = sfCodes s.ft
  huffBuilt : s.ctag = .huff → s.ct = huffCodes s.ft
  oneCodeEach : s.ctag ≠ .none → s.ct.length = s.ft.length
  codeLengths : s.ctag ≠ .none → ∀ c ∈ s.ct, 1 ≤ c.length ∧ c.length ≤ s.cfg.maxCodeLen
  prefixFree : s.ctag ≠ .none → PrefixFree s.ct
  singleLeaf : s.ctag ≠ .none → s.ft.length = 1 → s.ct = [[false]]
  lostHasNone : s.seqLost = true → s.ctag = .none

/-- The decoder's invariants (R46, R181, R185). -/
structure DecoderInv (s : State) : Prop where
  emptyWithoutTable : s.ctag = .none ∨ s.ft = [] → s.dbuf = [] ∧ s.ddead = false
  liveExtends : s.ddead = false → s.dbuf = [] ∨ ∃ c ∈ s.codes, s.dbuf <+: c ∧ s.dbuf ≠ c
  deadMatchesNone : s.ddead = true → s.dbuf ≠ [] ∧ ∀ c ∈ s.codes, ¬ s.dbuf <+: c
  deadByOneDigit : s.ddead = true → s.dbuf.dropLast = [] ∨ ∃ c ∈ s.codes, s.dbuf.dropLast <+: c ∧ s.dbuf.dropLast ≠ c
  lengthBound : s.dbuf.length ≤ s.cfg.maxCodeLen

/-- The completion fields' invariants (R35, R40, R64, R220). -/
structure ResultInv (s : State) : Prop where
  neverEmptyInput : s.err ≠ .emptyInput
  zeroAfterError : s.err ≠ .ok → s.resSym = 0#21 ∧ s.resCount = 0 ∧ s.resCode = []
  symRange : s.resSym.toNat < 2 ^ s.cfg.symW
  countRange : s.resCount ≤ maxTotal s.cfg
  codeRange : s.resCode.length ≤ s.cfg.maxCodeLen
  symValidHasCode : s.symValid = true → s.err = .ok ∧ s.resCode ≠ []

/-- The state invariant: a legal configuration and the four groups above. -/
structure Inv (s : State) : Prop where
  cfgWf : s.cfg.wf
  ftInv : FtInv s
  tableInv : TableInv s
  decoderInv : DecoderInv s
  resultInv : ResultInv s

/-- Two states that may differ only in the contents of a code table that is not valid (R44, R242). -/
def StaleEq (s t : State) : Prop :=
  { s with ct := [] } = { t with ct := [] } ∧ (s.ctag = .none ∨ s.ct = t.ct)

end Sys2Proof.Machine
end

