-- ==== Sys2Proof/Certificates/Slice0/Obligations.lean ====
section
/-! DEFINITION. The statements of this model for the provers, in the order of the spec's files. -/

open Sys2Proof Sys2Proof.Machine

/-! ### Encoding (spec/30_encoding.md) -/

/-- One word of every command, written from R103 and R101, and what the decoder reads from it. -/
def Obligations.DecodeReadsSampleWords : Prop :=
  decode Config.reference 0x00000000#32 = .instr .nop ∧
  decode Config.reference 0x10000000#32 = .instr .clear ∧
  decode Config.reference 0x20000061#32 = .instr (.loadSym 0x61#21) ∧
  decode Config.reference 0x30000000#32 = .instr .buildSf ∧
  decode Config.reference 0x40000000#32 = .instr .buildHuff ∧
  decode Config.reference 0x50000068#32 = .instr (.enc 0x68#21) ∧
  decode Config.reference 0x60000001#32 = .instr (.decBit true) ∧
  decode Config.reference 0x70000000#32 = .instr .decEnd ∧
  decode Config.reference 0x80000003#32 = .instr (.query 3#16) ∧
  decode Config.reference 0x90000000#32 = .illegalCommand ∧
  decode Config.reference 0x10000100#32 = .illegalOperand

/-- Every well-formed command, with every operand value its form admits, decodes from its own encoding (R101, R103, R108). -/
def Obligations.DecodeOfEncodeIsTheCommand : Prop :=
  ∀ (cfg : Config) (i : Instr), i.wellFormed cfg = true → decode cfg (encode i) = .instr i

/-- A word that decodes to a command is that command's encoding, and the command is well-formed: no two words mean one
command, and no word outside the encoder's is accepted (R105, R106, R108). -/
def Obligations.EncodeOfDecodeIsTheWord : Prop :=
  ∀ (cfg : Config) (w : Word) (i : Instr), decode cfg w = .instr i → encode i = w ∧ i.wellFormed cfg = true

/-- R103: each row of the opcode map selects by `w AND mask = match`, subject to the symbol range check of R106; the opcodes 0x9 to 0xF
are reserved. -/
def Obligations.OpcodeMapSelectsByMatchAndMask : Prop :=
  ∀ (cfg : Config) (w : Word),
    (w &&& 0xFFFFFFFF#32 = 0x00000000#32 → decode cfg w = .instr .nop) ∧
    (w &&& 0xFFFFFFFF#32 = 0x10000000#32 → decode cfg w = .instr .clear) ∧
    (w &&& 0xFFE00000#32 = 0x20000000#32 → w.toNat % 2 ^ 21 < 2 ^ cfg.symW →
      decode cfg w = .instr (.loadSym (BitVec.ofNat 21 (w.toNat % 2 ^ 21)))) ∧
    (w &&& 0xFFFFFFFF#32 = 0x30000000#32 → decode cfg w = .instr .buildSf) ∧
    (w &&& 0xFFFFFFFF#32 = 0x40000000#32 → decode cfg w = .instr .buildHuff) ∧
    (w &&& 0xFFE00000#32 = 0x50000000#32 → w.toNat % 2 ^ 21 < 2 ^ cfg.symW →
      decode cfg w = .instr (.enc (BitVec.ofNat 21 (w.toNat % 2 ^ 21)))) ∧
    (w &&& 0xFFFFFFFE#32 = 0x60000000#32 → decode cfg w = .instr (.decBit (decide (w.toNat % 2 = 1)))) ∧
    (w &&& 0xFFFFFFFF#32 = 0x70000000#32 → decode cfg w = .instr .decEnd) ∧
    (w &&& 0xFFFF0000#32 = 0x80000000#32 → decode cfg w = .instr (.query (BitVec.ofNat 16 (w.toNat % 2 ^ 16)))) ∧
    (9 ≤ w.toNat / 2 ^ 28 → decode cfg w = .illegalCommand)

/-- R104, R222: a pending word with OPC 0x9 to 0xF, whatever its operand bits, completes with ERR = 5 (IllegalCommand) and changes
nothing but the completion's fields, when the engine's turn comes or the schedule is empty. -/
def Obligations.ReservedOpcodeCompletesAsIllegalCommand : Prop :=
  ErrCode.illegalCommand.toByte = 5#8 ∧
  ∀ (s : State) (w : Word), s.pend = some w → 9 ≤ w.toNat / 2 ^ 28 →
    (s.turns = [] →
      step s = .next { s with pend := none, err := .illegalCommand, symValid := false,
                              resSym := 0#21, resCount := 0, resCode := [] }) ∧
    (∀ ts, s.turns = .engine :: ts →
      step s = .next { s with turns := ts, pend := none, err := .illegalCommand, symValid := false,
                              resSym := 0#21, resCount := 0, resCode := [] })

/-- R105, R106: a pending word with OPC 0x0 to 0x8 and a reserved operand bit of its form set, or a LOAD_SYM or ENC whose SYM is
2^SYM_W or more, completes with ERR = 6 (IllegalOperand) and changes nothing but the completion's fields, when the engine's turn comes
or the schedule is empty. -/
def Obligations.BadOperandCompletesAsIllegalOperand : Prop :=
  ErrCode.illegalOperand.toByte = 6#8 ∧
  ∀ (s : State) (w : Word), s.pend = some w →
    ((w.toNat / 2 ^ 28 ∈ [0, 1, 3, 4, 7] ∧ w &&& 0x0FFFFFFF#32 ≠ 0#32) ∨
     (w.toNat / 2 ^ 28 ∈ [2, 5] ∧ (w &&& 0x0FE00000#32 ≠ 0#32 ∨ 2 ^ s.cfg.symW ≤ w.toNat % 2 ^ 21)) ∨
     (w.toNat / 2 ^ 28 = 6 ∧ w &&& 0x0FFFFFFE#32 ≠ 0#32) ∨
     (w.toNat / 2 ^ 28 = 8 ∧ w &&& 0x0FFF0000#32 ≠ 0#32)) →
    (s.turns = [] →
      step s = .next { s with pend := none, err := .illegalOperand, symValid := false,
                              resSym := 0#21, resCount := 0, resCode := [] }) ∧
    (∀ ts, s.turns = .engine :: ts →
      step s = .next { s with turns := ts, pend := none, err := .illegalOperand, symValid := false,
                              resSym := 0#21, resCount := 0, resCode := [] })

/-! ### Steps, the bus and reset (spec/20_memory.md, spec/10_state.md, spec/70_reset_and_hazards.md) -/

/-- R62: when the pending word decodes to a command, the engine's step, by its turn or with the schedule empty, is that
command's own rule followed by the emptying of the latch. -/
def Obligations.StepRunsTheDecodedCommand : Prop :=
  ∀ (s : State) (w : Word) (i : Instr), s.pend = some w → decode s.cfg w = .instr i →
    (s.turns = [] → step s = retireOutcome (exec i s)) ∧
    (∀ ts, s.turns = .engine :: ts → step s = retireOutcome (exec i { s with turns := ts }))

/-- R61, R63: a CMD write with the latch empty latches the word, so BUSY reads 1, and nothing else changes; with the latch full it is
dropped and sets CMD_OVERRUN, and nothing else changes, the command in flight included. -/
def Obligations.CmdWriteIsLatchedOrDropped : Prop :=
  ∀ (s : State) (w : Word) (ts : List Turn),
    s.turns = .host { kind := .write w, addr := s.cfg.pcuBase + 0x0C, bytes := 4, lanes := 0xF#4 } :: ts →
    (s.pend = none → ∃ t, step s = .next t ∧ t = { s with turns := ts, pend := some w } ∧ t.status.getLsbD 0 = true) ∧
    (∀ v, s.pend = some v → step s = .next { s with turns := ts, overrun := true })

/-- R78, and the writes of R72: a STATUS write with bit 7 = 1 clears CMD_OVERRUN and one with bit 7 = 0 changes nothing; a word write to any other offset
but CMD's is ignored; all of it while busy or not. -/
def Obligations.WritesBesideCmdOnlyClearOverrun : Prop :=
  ∀ (s : State) (w : Word) (off : Nat) (ts : List Turn), off % 4 = 0 → off < 256 → off ≠ 0x0C →
    s.turns = .host { kind := .write w, addr := s.cfg.pcuBase + off, bytes := 4, lanes := 0xF#4 } :: ts →
    (off = 0x10 → w.toNat / 2 ^ 7 % 2 = 1 → step s = .next { s with turns := ts, overrun := false }) ∧
    (off = 0x10 → w.toNat / 2 ^ 7 % 2 = 0 → step s = .next { s with turns := ts }) ∧
    (off ≠ 0x10 → step s = .next { s with turns := ts })

/-- R77: no read, defined or not, while busy or not, changes anything of the unit. -/
def Obligations.ReadsHaveNoSideEffects : Prop :=
  ∀ (s : State) (a : Access) (ts : List Turn), a.kind = .read → s.turns = .host a :: ts →
    ∃ t, step s = .next t ∧ t.unitPart = s.unitPart ∧ t.turns = ts

/-- What idle reads of ID, PARAM0, PARAM1, CMD, STATUS and the reserved offsets return (R32, R33, R34, R35, R50, R66). -/
def Obligations.IdleReadsOfIdentityAndStatus : Prop :=
  ∀ (s : State) (off : Nat) (ts : List Turn), Inv s → s.pend = none → off % 4 = 0 → off < 256 →
    s.turns = .host { kind := .read, addr := s.cfg.pcuBase + off, bytes := 4, lanes := 0xF#4 } :: ts →
    ∃ v : Word, step s = .next { s with turns := ts, busData := v } ∧
      (off = 0x00 → v = 0x50435531#32) ∧
      (off = 0x04 → v.toNat = s.cfg.symW + 2 ^ 8 * s.cfg.cntW) ∧
      (off = 0x08 → v.toNat = s.cfg.maxSyms + 2 ^ 16 * max 1 (s.cfg.maxSyms - 1)) ∧
      (off = 0x0C → v = 0#32) ∧
      (off = 0x10 → v.toNat =
        (if s.ctag = .none then 0 else 2) + (if s.ctag = .sf then 4 else if s.ctag = .huff then 8 else 0)
          + 2 ^ 4 * s.symValid.toNat + 2 ^ 5 * s.ddead.toNat + 2 ^ 6 * s.seqLost.toNat + 2 ^ 7 * s.overrun.toNat
          + 2 ^ 8 * (match s.err with
              | .ok => 0 | .unknownSymbol => 1 | .incompleteCode => 2 | .emptyCodeTable => 3 | .emptyInput => 4
              | .illegalCommand => 5 | .illegalOperand => 6 | .alphabetOverflow => 7 | .countOverflow => 8
              | .notBuilt => 9 | .sequenceLost => 10 | .indexOutOfRange => 11)) ∧
      ((0x34 ≤ off ∧ off ≤ 0x3C) ∨ 0x80 ≤ off → v = 0#32)

/-- What idle reads of the result and table registers return (R31, R39, R40, R42, R46). -/
def Obligations.IdleReadsOfResultsAndTotals : Prop :=
  ∀ (s : State) (off : Nat) (ts : List Turn), Inv s → s.pend = none → off % 4 = 0 → off < 256 →
    s.turns = .host { kind := .read, addr := s.cfg.pcuBase + off, bytes := 4, lanes := 0xF#4 } :: ts →
    ∃ v : Word, step s = .next { s with turns := ts, busData := v } ∧
      (off = 0x14 → v.toNat = s.resSym.toNat) ∧
      (off = 0x18 → v.toNat = s.resCount) ∧
      (off = 0x1C → v.toNat = s.resCode.length) ∧
      (off = 0x20 → v.toNat = s.ft.length) ∧
      (off = 0x24 → v.toNat = (s.ft.map Entry.cnt).sum) ∧
      (off = 0x28 → v.toNat = s.sumwl % 2 ^ 32) ∧
      (off = 0x2C → v.toNat = s.sumwl / 2 ^ 32) ∧
      (off = 0x30 → v.toNat = s.dbuf.length)

/-- R41: bit j of an idle read of RESULT_CODE[k] is digit 32k + j of the result code, and 0 past its end. -/
def Obligations.IdleReadOfResultCodeIsItsPacking : Prop :=
  ∀ (s : State) (k : Nat) (ts : List Turn), s.pend = none → k < 16 →
    s.turns = .host { kind := .read, addr := s.cfg.pcuBase + (0x40 + 4 * k), bytes := 4, lanes := 0xF#4 } :: ts →
    ∃ v : Word, step s = .next { s with turns := ts, busData := v } ∧
      (∀ j, j < 32 → v.getLsbD j = if 32 * k + j < s.resCode.length then s.resCode.getD (32 * k + j) false else false) ∧
      (s.resCode.length ≤ s.cfg.maxCodeLen → s.cfg.codeWords ≤ k → v = 0#32)

/-- R39: SUMWL is Σ cnt × len on a valid table and 0 otherwise, it is below 2^41, SUMWL_LO and SUMWL_HI are its two words with
SUMWL_HI[31:9] = 0, and it is 0 after reset. -/
def Obligations.SumwlIsWeightedLengthBelowTwoPow41 : Prop :=
  ∀ s : State, Inv s →
    s.sumwl = (if s.ctag = .none then 0
               else ((List.range s.ft.length).map (fun i => (s.ft.getD i ⟨0#21, 0⟩).cnt * (s.ct.getD i []).length)).sum) ∧
    s.sumwl < 2 ^ 41 ∧
    (s.regValue .sumwlLo).toNat = s.sumwl % 2 ^ 32 ∧ (s.regValue .sumwlHi).toNat = s.sumwl / 2 ^ 32 ∧
    (s.regValue .sumwlHi).toNat < 2 ^ 9 ∧ State.reset.sumwl = 0

/-- R31, R35, R65: a read while BUSY = 1 returns the constants of ID and PARAM, a STATUS with BUSY = 1, the current CMD_OVERRUN, bits
31:16 zero and every other bit free, 0 at a reserved offset, and of every other register a free word; it changes nothing of the unit.
That a reserved offset reads 0 and CMD a free word while BUSY = 1 is how the model reads R31, R34, R65 and R72 together (log 8). -/
def Obligations.BusyReadsGiveConstantsStatusOrFree : Prop :=
  ∀ (s : State) (w : Word) (off : Nat) (ts : List Turn), s.pend = some w → off % 4 = 0 → off < 256 →
    s.turns = .host { kind := .read, addr := s.cfg.pcuBase + off, bytes := 4, lanes := 0xF#4 } :: ts →
    ∃ t, step s = .next t ∧ t.unitPart = s.unitPart ∧
      (off = 0x00 → t.busData = 0x50435531#32) ∧
      (off = 0x04 → s.cfg.wf → t.busData.toNat = s.cfg.symW + 2 ^ 8 * s.cfg.cntW) ∧
      (off = 0x08 → s.cfg.wf → t.busData.toNat = s.cfg.maxSyms + 2 ^ 16 * max 1 (s.cfg.maxSyms - 1)) ∧
      (off = 0x10 → ∀ j, j < 32 → t.busData.getLsbD j =
        if j = 0 then true else if j = 7 then s.overrun else if j < 16 then (Config.freeRead s.draws).getLsbD j else false) ∧
      (0x34 ≤ off ∧ off < 0x40 ∨ 0x80 ≤ off → t.busData = 0#32) ∧
      (off = 0x0C ∨ 0x14 ≤ off ∧ off < 0x34 ∨ 0x40 ≤ off ∧ off < 0x80 → t.busData = Config.freeRead s.draws)

/-- R74, R231: an access that is not an aligned 32-bit access with all lanes within 0x00..0xFC changes nothing of the unit; a read
returns a free word; the host program is recorded as faulted. In the same step as reset the unit is reset by the reset alone, and
the host fault is recorded and a read is free too (log 4). -/
def Obligations.UndefinedAccessIsAHostFault : Prop :=
  ∀ (s : State) (a : Access) (ts : List Turn), a.outsideR73 s.cfg →
    (s.turns = .host a :: ts ∨ s.turns = .reset (some a) :: ts) →
    ∃ t, step s = .next t ∧
      t.unitPart = (if s.turns = .host a :: ts then s.unitPart else (State.resetOf s.cfg).unitPart) ∧
      t.hostFault = true ∧ (a.kind = .read → t.busData = Config.freeRead s.draws)

/-- R231: a host fault is never cleared, by reset or otherwise, and only an access outside R73 records one, be it in a step of its own
or in the same step as reset; no step changes the configuration. -/
def Obligations.HostFaultIsStickyAndOnlyFromUndefinedAccess : Prop :=
  ∀ s t : State, step s = .next t →
    t.cfg = s.cfg ∧ (s.hostFault = true → t.hostFault = true) ∧
    (s.hostFault = false → t.hostFault = true → ∃ a ts,
      (s.turns = .host a :: ts ∨ s.turns = .reset (some a) :: ts) ∧ a.outsideR73 s.cfg)

/-- R240, R241: reset, at any time and with any access in the same step, leaves exactly the reset values, and every register but the
three constants then reads 0. The schedule, the host's last word, the host-fault record and the draw counter are the outside world's:
reset leaves them, but for an access outside R73 in the same step, which is a host fault as ever (R231, log 4). That CT is the empty
list then is the model's choice (log 7). -/
def Obligations.ResetInputRestoresTheResetState : Prop :=
  ∀ (s : State) (d : Option Access) (ts : List Turn), s.turns = .reset d :: ts →
    ∃ t, step s = .next t ∧ t =
      { cfg := s.cfg, ft := [], ctag := .none, ct := [], dbuf := [], ddead := false, seqLost := false, overrun := false,
        pend := none, err := .ok, symValid := false, resSym := 0#21, resCount := 0, resCode := [],
        turns := ts, busData := t.busData, hostFault := t.hostFault, draws := t.draws } ∧
      ((∀ a, d = some a → ¬ a.outsideR73 s.cfg) →
        t.busData = s.busData ∧ t.hostFault = s.hostFault ∧ t.draws = s.draws) ∧
      (∀ a, d = some a → a.outsideR73 s.cfg → t.hostFault = true) ∧
      ∀ off, off % 4 = 0 → 0x0C ≤ off → off < 256 → t.regValue (regAt off) = 0#32

/-- The reset state of every legal configuration, and of the reference configuration, meets the invariant. -/
def Obligations.ResetStateMeetsTheInvariant : Prop :=
  Inv State.reset ∧ ∀ cfg : Config, cfg.wf → Inv (State.resetOf cfg)

/-- From every state that meets the invariant, every step gives a state that meets it: FT is a frequency table within its bounds
(R43, R133), a valid CT is its builder's prefix-free table of FT (R44), the decoder buffer is as R46 says, and the result registers
hold what a completion may leave (R40, R64, R220). -/
def Obligations.EveryStepKeepsTheInvariant : Prop :=
  ∀ s t : State, Inv s → step s = .next t → Inv t

/-- R62, R224, R250: no step stops; the engine's turn always empties the latch. -/
def Obligations.EveryStepAnswersANextState : Prop :=
  ∀ s : State, ∃ t, step s = .next t ∧
    ((s.turns = [] ∨ ∃ ts, s.turns = .engine :: ts) → t.pend = none)

/-- R60, R250 under the model's schedule: when the outside world's turns are over, one more step leaves the unit idle. -/
def Obligations.ScheduleEndsWithTheUnitIdle : Prop :=
  ∀ s : State, ∃ t, Host.Core.run Sys2Proof.core (s.turns.length + 1) s = .next t ∧ t.pend = none ∧ t.turns = []

/-- R60: the machine runs its schedule turn by turn, so what is stated of lists of turns (and of the host procedures made of them) is
stated of runs of `step`. -/
def Obligations.RunsOfStepAreRunsOfTurns : Prop :=
  ∀ (ts : List Turn) (s : State),
    Host.Core.run Sys2Proof.core ts.length { s with turns := ts } = runTurns ts { s with turns := [] }

/-- R67, R69, R77: from an idle unit, whatever the host does but write CMD, and whatever engine turns fall between, nothing of the unit
changes but CMD_OVERRUN: every read before the next command returns values of one state. -/
def Obligations.IdleUnitKeepsItsStateUntilTheNextCommand : Prop :=
  ∀ (ts : List Turn) (s t : State), s.pend = none →
    (∀ x ∈ ts, x = .engine ∨ ∃ a, x = .host a ∧ (a.kind = .read ∨ a.addr ≠ s.cfg.pcuBase + 0x0C)) →
    runTurns ts s = .next t →
    { t with overrun := s.overrun }.unitPart = s.unitPart ∧ (t.overrun = true → s.overrun = true)

/-- R44, R242: the contents of a code table that is not valid cannot be observed: from two states that differ only in them, every step
gives states that differ at most so, and every register reads the same. -/
def Obligations.StaleCodeTableCannotBeObserved : Prop :=
  ∀ s t : State, StaleEq s t →
    (∀ r : Reg, s.regValue r = t.regValue r) ∧
    (∀ s' : State, step s = .next s' → ∃ t', step t = .next t' ∧ StaleEq s' t' ∧ s'.busData = t'.busData)

/-! ### Commands: sequence loading (spec/40_sequence.md) -/

/-- R135: NOP is the word 0 exactly; it completes OK and changes nothing but the completion's fields. -/
def Obligations.NopOnlyCompletes : Prop :=
  (∀ (cfg : Config) (w : Word), decode cfg w = .instr .nop ↔ w = 0x00000000#32) ∧
  ∀ s : State, exec .nop s = .next { s with err := .ok, symValid := false, resSym := 0#21, resCount := 0, resCode := [] }

/-- R130: CLEAR is the word 0x10000000 exactly; it empties FT, invalidates the code table, empties the decoder, clears SEQ_LOST and completes OK; CMD_OVERRUN stays.
In the reset state it changes nothing, and no other command clears SEQ_LOST. -/
def Obligations.ClearStartsAnEmptySequence : Prop :=
  (∀ (cfg : Config) (w : Word), decode cfg w = .instr .clear ↔ w = 0x10000000#32) ∧
  (∀ s : State, ∃ t, exec .clear s = .next t ∧
    t = { s with ft := [], ctag := .none, dbuf := [], ddead := false, seqLost := false,
                 err := .ok, symValid := false, resSym := 0#21, resCount := 0, resCode := [] } ∧
    t.nSyms = 0 ∧ t.total = 0 ∧ t.sumwl = 0 ∧ t.overrun = s.overrun) ∧
  (∀ cfg : Config, exec .clear (State.resetOf cfg) = .next (State.resetOf cfg)) ∧
  ∀ (i : Instr) (s t : State), exec i s = .next t → s.seqLost = true → t.seqLost = false → i = .clear

/-- R132: LOAD_SYM, its checks in their order. Its word is 0x20000000 with the symbol in bits 20:0. A symbol out of range is
IllegalOperand before anything else. SequenceLost changes nothing. CountOverflow comes before the new-symbol test. A symbol in FT has its
count incremented in place; a new one, with room, is appended with count 1, and without room is AlphabetOverflow. Success and both
overflows invalidate the code table and empty the decoder; the overflows set SEQ_LOST and leave FT. Nothing else but the completion's
fields changes. -/
def Obligations.LoadSymFollowsItsRule : Prop :=
  (∀ sym : Symbol, encode (.loadSym sym) = 0x20000000#32 ||| sym.setWidth 32) ∧
  ∀ (s : State) (sym : Symbol),
    (2 ^ s.cfg.symW ≤ sym.toNat →
      exec (.loadSym sym) s = .next { s with err := .illegalOperand, symValid := false,
                                             resSym := 0#21, resCount := 0, resCode := [] }) ∧
    (sym.toNat < 2 ^ s.cfg.symW → s.seqLost = true →
      exec (.loadSym sym) s = .next { s with err := .sequenceLost, symValid := false,
                                             resSym := 0#21, resCount := 0, resCode := [] }) ∧
    (sym.toNat < 2 ^ s.cfg.symW → s.seqLost = false → (s.ft.map Entry.cnt).sum = 2 ^ s.cfg.cntW - 1 →
      exec (.loadSym sym) s =
        .next { s with seqLost := true, ctag := .none, dbuf := [], ddead := false, err := .countOverflow, symValid := false,
                       resSym := 0#21, resCount := 0, resCode := [] }) ∧
    (sym.toNat < 2 ^ s.cfg.symW → s.seqLost = false → (s.ft.map Entry.cnt).sum ≠ 2 ^ s.cfg.cntW - 1 →
      (∀ (before after : List Entry) (n : Nat), s.ft = before ++ ⟨sym, n⟩ :: after → sym ∉ before.map Entry.sym →
        exec (.loadSym sym) s =
          .next { s with ft := before ++ ⟨sym, n + 1⟩ :: after, ctag := .none, dbuf := [], ddead := false, err := .ok, symValid := false,
                         resSym := 0#21, resCount := 0, resCode := [] }) ∧
      (sym ∉ s.ft.map Entry.sym → s.ft.length = s.cfg.maxSyms →
        exec (.loadSym sym) s =
          .next { s with seqLost := true, ctag := .none, dbuf := [], ddead := false, err := .alphabetOverflow, symValid := false,
                         resSym := 0#21, resCount := 0, resCode := [] }) ∧
      (sym ∉ s.ft.map Entry.sym → s.ft.length ≠ s.cfg.maxSyms →
        exec (.loadSym sym) s =
          .next { s with ft := s.ft ++ [⟨sym, 1⟩], ctag := .none, dbuf := [], ddead := false, err := .ok, symValid := false,
                         resSym := 0#21, resCount := 0, resCode := [] }))

/-- R131: an entry never moves and is never removed except by CLEAR: every other command keeps every entry at its index with its symbol and
at least its count, and new entries come after all others. -/
def Obligations.EntriesKeepTheirPlaces : Prop :=
  ∀ (i : Instr) (s t : State), exec i s = .next t → i ≠ .clear →
    s.ft.map Entry.sym <+: t.ft.map Entry.sym ∧
    ∀ (k : Nat) (e : Entry), s.ft[k]? = some e → ∃ e', t.ft[k]? = some e' ∧ e'.sym = e.sym ∧ e.cnt ≤ e'.cnt

/-- R136, R137: the host's CLEAR, LOAD_SYM of every symbol, and a build, on a sequence within the capacity limits, leave the document's
frequency table of the sequence, in first-occurrence order with TOTAL its length, and the builder's table of it; and every command
on the way, CLEAR, each LOAD_SYM and the build, completes OK. -/
def Obligations.BuildProcedureGivesTheDocumentsTables : Prop :=
  ∀ (alg : Alg) (seq : List Symbol) (s : State), s.pend = none → (∀ x ∈ seq, x.toNat < 2 ^ s.cfg.symW) →
    seq.length ≤ 2 ^ s.cfg.cntW - 1 → (firstOccurrences seq).length ≤ s.cfg.maxSyms →
    ∃ t, issueAll (buildProgram alg seq) s = .next t ∧
      t.ft = frequencyTable seq ∧ t.total = seq.length ∧ t.ctag = alg.tag ∧ t.ct = alg.codes (frequencyTable seq) ∧
      t.seqLost = false ∧ t.err = .ok ∧ t.dbuf = [] ∧ t.pend = none ∧
      ∀ k, 1 ≤ k → ∃ u, issueAll ((buildProgram alg seq).take k) s = .next u ∧ u.err = .ok

/-- R133: a sequence beyond a capacity limit leaves SEQ_LOST set, no code table, and the build refused with SequenceLost. -/
def Obligations.OversizedSequenceIsLost : Prop :=
  ∀ (alg : Alg) (seq : List Symbol) (s : State), s.pend = none → (∀ x ∈ seq, x.toNat < 2 ^ s.cfg.symW) →
    (2 ^ s.cfg.cntW - 1 < seq.length ∨ s.cfg.maxSyms < (firstOccurrences seq).length) →
    ∃ t, issueAll (buildProgram alg seq) s = .next t ∧
      t.seqLost = true ∧ t.ctag = .none ∧ t.err = .sequenceLost ∧ t.total ≤ 2 ^ s.cfg.cntW - 1 ∧
      t.ft.length ≤ s.cfg.maxSyms

/-! ### Commands: the builders (spec/41_shannon_fano.md, spec/42_huffman.md) -/

/-- R140: BUILD_SF is the word 0x30000000 exactly. With the sequence intact it installs the Shannon-Fano table of FT, sets TABLE_VALID and
TABLE_ALG = 1, empties the decoder and completes OK, so that SUMWL is the weighted length of the new table; FT, SEQ_LOST and CMD_OVERRUN
stay. With SEQ_LOST = 1 it is SequenceLost and changes nothing. An empty FT gives the empty table and one entry gives ["0"]. -/
def Obligations.BuildSfInstallsTheShannonFanoTable : Prop :=
  (∀ (cfg : Config) (w : Word), decode cfg w = .instr .buildSf ↔ w = 0x30000000#32) ∧
  (∀ s : State,
    (s.seqLost = false → ∃ t, exec .buildSf s = .next t ∧
      t = { s with ctag := .sf, ct := sfCodes s.ft, dbuf := [], ddead := false, err := .ok, symValid := false,
                   resSym := 0#21, resCount := 0, resCode := [] } ∧
      t.tableValid = true ∧ t.ctag.alg = 1#2 ∧ t.sumwl = weightedLength s.ft (sfCodes s.ft)) ∧
    (s.seqLost = true → exec .buildSf s = .next { s with err := .sequenceLost, symValid := false,
                                                         resSym := 0#21, resCount := 0, resCode := [] })) ∧
  sfCodes [] = [] ∧ ∀ e : Entry, sfCodes [e] = [[false]]

/-- R160: BUILD_HUFF is the word 0x40000000 exactly and acts likewise, with the Huffman table and TABLE_ALG = 2. An empty FT gives the
empty table, one entry gives ["0"], and two give "0" to the first when its count is at most the second's, else "1". -/
def Obligations.BuildHuffInstallsTheHuffmanTable : Prop :=
  (∀ (cfg : Config) (w : Word), decode cfg w = .instr .buildHuff ↔ w = 0x40000000#32) ∧
  (∀ s : State,
    (s.seqLost = false → ∃ t, exec .buildHuff s = .next t ∧
      t = { s with ctag := .huff, ct := huffCodes s.ft, dbuf := [], ddead := false, err := .ok, symValid := false,
                   resSym := 0#21, resCount := 0, resCode := [] } ∧
      t.tableValid = true ∧ t.ctag.alg = 2#2 ∧ t.sumwl = weightedLength s.ft (huffCodes s.ft)) ∧
    (s.seqLost = true → exec .buildHuff s = .next { s with err := .sequenceLost, symValid := false,
                                                           resSym := 0#21, resCount := 0, resCode := [] })) ∧
  huffCodes [] = [] ∧ (∀ e : Entry, huffCodes [e] = [[false]]) ∧
  ∀ a b : Entry, huffCodes [a, b] = if a.cnt ≤ b.cnt then [[false], [true]] else [[true], [false]]

/-- R141: the order is a permutation of the entries with their counts, sorted by count descending and, among equal counts, by entry
index ascending. -/
def Obligations.ShannonFanoOrderIsTheSortedPermutation : Prop :=
  ∀ ft : List Entry,
    (sfOrder ft).Perm ((List.range ft.length).map (fun i => ⟨i, (ft.getD i ⟨0#21, 0⟩).cnt⟩)) ∧
    (sfOrder ft).Pairwise (fun a b => b.cnt < a.cnt ∨ (a.cnt = b.cnt ∧ a.idx < b.idx))

/-- R142: the split point of a non-empty list is the first index whose running sum, doubled, reaches the total. -/
def Obligations.SplitPointIsTheFirstHalf : Prop :=
  ∀ (l : List Item) (k : Nat), l ≠ [] →
    (splitPoint l = k ↔
      k < l.length ∧ (l.map Item.cnt).sum ≤ 2 * ((l.take (k + 1)).map Item.cnt).sum ∧
      ∀ m, m < k → 2 * ((l.take (m + 1)).map Item.cnt).sum < (l.map Item.cnt).sum)

/-- R145: on every contiguous slice of the order with two elements or more the split point is at most |L| − 2: neither side of a split
is ever empty. -/
def Obligations.SplitSidesAreNeverEmpty : Prop :=
  ∀ (ft : List Entry) (l : List Item), (∀ e ∈ ft, 1 ≤ e.cnt) → l <:+: sfOrder ft → 2 ≤ l.length →
    splitPoint l ≤ l.length - 2 ∧ l.drop (splitPoint l + 1) ≠ [] ∧ l.take (splitPoint l + 1) ≠ []

/-- R143: the base call and the recursion, in the model's terms: the empty FT has the empty table; else each entry has the code the split of
the order from the empty string writes to its index; a one-element list is a terminal, and a longer one is split at the split point, the
left side under the string with "0" added and the right under it with "1". Any fuel of at least the list's length gives the same pairs. -/
def Obligations.ShannonFanoSplitFollowsItsRecursion : Prop :=
  sfCodes [] = [] ∧
  (∀ ft : List Entry, sfCodes ft =
    (List.range ft.length).map (fun i => ((sfSplit ft.length (sfOrder ft) []).lookup i).getD [])) ∧
  ∀ (ft : List Entry) (l : List Item) (p : Code) (fuel : Nat), (∀ e ∈ ft, 1 ≤ e.cnt) → l <:+: sfOrder ft → l.length ≤ fuel →
    (∀ x, l = [x] → sfSplit fuel l p = [(x.idx, if p = [] then [false] else p)]) ∧
    (2 ≤ l.length → sfSplit fuel l p =
      sfSplit fuel (l.take (splitPoint l + 1)) (p ++ [false]) ++ sfSplit fuel (l.drop (splitPoint l + 1)) (p ++ [true]))

/-- R144, R146, R150: the Shannon-Fano table has one code per entry, no code is a prefix of another, and every length is between 1 and
max(1, N − 1). -/
def Obligations.ShannonFanoTableIsAPrefixCode : Prop :=
  ∀ ft : List Entry, (sfCodes ft).length = ft.length ∧ PrefixFree (sfCodes ft) ∧
    ∀ c ∈ sfCodes ft, 1 ≤ c.length ∧ c.length ≤ max 1 (ft.length - 1)

/-- R147: for two entries or more the Shannon-Fano code is complete: its Kraft sum is 1, and every bit string is a prefix of a code or
extends one; for one entry the table is ["0"], and a string that starts with 1 is neither. -/
def Obligations.ShannonFanoTableIsComplete : Prop :=
  ∀ ft : List Entry,
    (2 ≤ ft.length → kraftSum (sfCodes ft) = 1 ∧ Complete (sfCodes ft)) ∧
    (ft.length = 1 → sfCodes ft = [[false]] ∧ ∀ d : Code, ¬ ∃ c ∈ sfCodes ft, true :: d <+: c ∨ c <+: true :: d)

/-- R162: popMin removes the node with the least key (weight, seq), lexicographically, and keeps the others. -/
def Obligations.PopMinTakesTheLeastKey : Prop :=
  ∀ (q : List Node) (n : Node) (rest : List Node), popMin q = some (n, rest) →
    q.Perm (n :: rest) ∧
    ∀ m ∈ rest, n.weight < m.weight ∨ (n.weight = m.weight ∧ n.seq ≤ m.seq)

/-- R161, R163, R164, R165: the builder in its own terms. For two entries or more the table is the merge loop's payload, in entry order,
on seed nodes (count, index, index ↦ ""); with two nodes or more in the queue the loop pops twice, prepends "0" to the first-popped
node's codes and "1" to the second's, pushes their union with the sum of their weights under the next sequence number, and goes on;
with one node left it answers that node's payload. -/
def Obligations.HuffmanMergeFollowsItsLoop : Prop :=
  (∀ ft : List Entry, 2 ≤ ft.length →
    huffCodes ft = (List.range ft.length).map (fun i => ((huffMerge ft.length ft.length
      ((List.range ft.length).map (fun j => ⟨(ft.getD j ⟨0#21, 0⟩).cnt, j, [(j, [])]⟩))).lookup i).getD [])) ∧
  (∀ (fuel seq : Nat) (q : List Node), q.length ≤ fuel → 2 ≤ q.length →
    ∃ a q1 b q2, popMin q = some (a, q1) ∧ popMin q1 = some (b, q2) ∧ q.Perm (a :: b :: q2) ∧
      huffMerge fuel seq q =
        huffMerge fuel (seq + 1)
          (⟨a.weight + b.weight, seq,
            a.payload.map (fun ic => (ic.1, false :: ic.2)) ++ b.payload.map (fun ic => (ic.1, true :: ic.2))⟩ :: q2)) ∧
  (∀ (fuel seq : Nat) (n : Node), huffMerge fuel seq [n] = n.payload)

/-- R164, R171, R169: the Huffman table has one code per entry, no code is a prefix of another, and every length is between 1 and
max(1, N − 1). -/
def Obligations.HuffmanTableIsAPrefixCode : Prop :=
  ∀ ft : List Entry, (huffCodes ft).length = ft.length ∧ PrefixFree (huffCodes ft) ∧
    ∀ c ∈ huffCodes ft, 1 ≤ c.length ∧ c.length ≤ max 1 (ft.length - 1)

/-- R170, R167: for two entries or more the Huffman code is complete; for one entry both builders give ["0"]. -/
def Obligations.HuffmanTableIsComplete : Prop :=
  ∀ ft : List Entry,
    (2 ≤ ft.length → kraftSum (huffCodes ft) = 1 ∧ Complete (huffCodes ft)) ∧
    (ft.length = 1 → huffCodes ft = [[false]] ∧ huffCodes ft = sfCodes ft)

/-- R168: for every FT with an entry, the SUMWL after BUILD_HUFF is at most that of every prefix code of non-empty codes over the same
entries, and at most the SUMWL after BUILD_SF. -/
def Obligations.HuffmanTableIsOptimal : Prop :=
  ∀ (s t u : State), 1 ≤ s.ft.length → exec .buildHuff s = .next t → exec .buildSf s = .next u → s.seqLost = false →
    (∀ codes : List Code, codes.length = s.ft.length → PrefixFree codes → (∀ c ∈ codes, c ≠ []) →
      t.sumwl ≤ weightedLength s.ft codes) ∧
    t.sumwl ≤ u.sumwl

/-! ### Commands: the lookups (spec/43_encode.md, spec/44_decode.md, spec/45_analytics.md) -/

/-- R172, R174: ENC, its checks in their order. Its word is 0x50000000 with the symbol in bits 20:0. A symbol out of range is
IllegalOperand; without a table ENC is NotBuilt; a symbol without an entry is UnknownSymbol, with every result register 0; a symbol that
has an entry completes OK with the symbol, its count and its code in the result registers. Nothing else changes: FT, CT, the decoder state
and the sticky flags stay. -/
def Obligations.EncFollowsItsRule : Prop :=
  (∀ sym : Symbol, encode (.enc sym) = 0x50000000#32 ||| sym.setWidth 32) ∧
  ∀ (s : State) (sym : Symbol),
    (2 ^ s.cfg.symW ≤ sym.toNat → exec (.enc sym) s = .next { s with err := .illegalOperand, symValid := false,
                                                                     resSym := 0#21, resCount := 0, resCode := [] }) ∧
    (sym.toNat < 2 ^ s.cfg.symW → s.ctag = .none → exec (.enc sym) s = .next { s with err := .notBuilt, symValid := false,
                                                                                      resSym := 0#21, resCount := 0, resCode := [] }) ∧
    (sym.toNat < 2 ^ s.cfg.symW → s.ctag ≠ .none →
      (sym ∉ s.ft.map Entry.sym → exec (.enc sym) s = .next { s with err := .unknownSymbol, symValid := false,
                                                                     resSym := 0#21, resCount := 0, resCode := [] }) ∧
      (∀ (before after : List Entry) (n : Nat) (c : Code), s.ft = before ++ ⟨sym, n⟩ :: after → sym ∉ before.map Entry.sym →
        s.ct[before.length]? = some c →
        exec (.enc sym) s = .next { s with err := .ok, symValid := false, resSym := sym, resCount := n, resCode := c }))

/-- R180, R183: DEC_BIT, its tests in their order. Its words are 0x60000000 and 0x60000001. Without a table NotBuilt; on a valid
empty table EmptyCodeTable; on a dead buffer the digit is discarded. Else, when buffer and digit are the code of entry i, whichever i that
is, it emits that entry's symbol, count and code, sets SYM_VALID and empties the buffer; a proper beginning of a code waits in the buffer;
and a string that begins no code is kept and sets DEC_DEAD. Nothing else changes. -/
def Obligations.DecBitFollowsItsRule : Prop :=
  (∀ b : Digit, encode (.decBit b) = if b then 0x60000001#32 else 0x60000000#32) ∧
  ∀ (s : State) (b : Digit), Inv s →
    (s.ctag = .none → exec (.decBit b) s = .next { s with err := .notBuilt, symValid := false,
                                                          resSym := 0#21, resCount := 0, resCode := [] }) ∧
    (s.ctag ≠ .none → s.ft = [] → exec (.decBit b) s = .next { s with err := .emptyCodeTable, symValid := false,
                                                                      resSym := 0#21, resCount := 0, resCode := [] }) ∧
    (s.ctag ≠ .none → s.ft ≠ [] → s.ddead = true → exec (.decBit b) s = .next { s with err := .ok, symValid := false,
                                                                                       resSym := 0#21, resCount := 0, resCode := [] }) ∧
    (s.ctag ≠ .none → s.ft ≠ [] → s.ddead = false →
      (∀ (i : Nat) (e : Entry), s.ft[i]? = some e → s.ct[i]? = some (s.dbuf ++ [b]) →
        exec (.decBit b) s =
          .next { s with dbuf := [], err := .ok, symValid := true,
                         resSym := e.sym, resCount := e.cnt, resCode := s.dbuf ++ [b] }) ∧
      (s.dbuf ++ [b] ∉ s.ct → (∃ c ∈ s.ct, s.dbuf ++ [b] <+: c) →
        exec (.decBit b) s = .next { s with dbuf := s.dbuf ++ [b], err := .ok, symValid := false,
                                            resSym := 0#21, resCount := 0, resCode := [] }) ∧
      ((∀ c ∈ s.ct, ¬ s.dbuf ++ [b] <+: c) →
        exec (.decBit b) s = .next { s with dbuf := s.dbuf ++ [b], ddead := true, err := .ok, symValid := false,
                                            resSym := 0#21, resCount := 0, resCode := [] }))

/-- R182: DEC_END is the word 0x70000000 exactly; it is OK on an empty buffer, IncompleteCode on unmatched digits with the buffer emptied and DEC_DEAD cleared, and
NotBuilt without a table. -/
def Obligations.DecEndReportsTheBuffer : Prop :=
  (∀ (cfg : Config) (w : Word), decode cfg w = .instr .decEnd ↔ w = 0x70000000#32) ∧
  ∀ s : State,
    (s.ctag = .none →
      exec .decEnd s = .next { s with err := .notBuilt, symValid := false, resSym := 0#21, resCount := 0, resCode := [] }) ∧
    (s.ctag ≠ .none → s.dbuf ≠ [] →
      exec .decEnd s =
        .next { s with dbuf := [], ddead := false,
                       err := .incompleteCode, symValid := false, resSym := 0#21, resCount := 0, resCode := [] }) ∧
    (s.ctag ≠ .none → s.dbuf = [] →
      exec .decEnd s = .next { s with err := .ok, symValid := false, resSym := 0#21, resCount := 0, resCode := [] })

/-- R181: in a state that meets the invariant, a dead buffer is the one digit 1 on the table of a single symbol. -/
def Obligations.DeadBufferOnlyWithOneSymbol : Prop :=
  ∀ s : State, Inv s → s.ddead = true → s.ft.length = 1 ∧ s.dbuf = [true]

/-- R195, R196, R197: QUERY is 0x80000000 with the index in bits 15:0. QUERY of an entry returns its symbol and count, with its code on a valid table and the empty code on an unbuilt one;
an index of N_SYMS or more is IndexOutOfRange; nothing else changes. -/
def Obligations.QueryReturnsTheRow : Prop :=
  (∀ idx : BitVec 16, encode (.query idx) = 0x80000000#32 ||| idx.setWidth 32) ∧
  ∀ (s : State) (idx : BitVec 16),
    (∀ (e : Entry) (c : Code), s.ft[idx.toNat]? = some e → s.ctag ≠ .none → s.ct[idx.toNat]? = some c →
      exec (.query idx) s =
        .next { s with err := .ok, symValid := false, resSym := e.sym, resCount := e.cnt, resCode := c }) ∧
    (∀ e : Entry, s.ft[idx.toNat]? = some e → s.ctag = .none →
      exec (.query idx) s =
        .next { s with err := .ok, symValid := false, resSym := e.sym, resCount := e.cnt, resCode := [] }) ∧
    (s.ft.length ≤ idx.toNat →
      exec (.query idx) s =
        .next { s with err := .indexOutOfRange, symValid := false, resSym := 0#21, resCount := 0, resCode := [] })

/-! ### Rules about all commands (spec/60_exceptions.md, spec/10_state.md) -/

/-- R221: errors are precise. Whatever the word decodes to, an outcome other than OK leaves the state as it was but for the completion's fields
(all result registers 0, SYM_VALID 0) and, for the two overflows, SEQ_LOST, the invalidated table and the emptied decoder, and for
IncompleteCode the emptied decoder. -/
def Obligations.ErrorsArePrecise : Prop :=
  ∀ (d : Decoded) (s t : State), execDecoded d s = .next t → t.err ≠ .ok →
    t = { (if t.err = .countOverflow ∨ t.err = .alphabetOverflow
            then { s with seqLost := true, ctag := .none, dbuf := [], ddead := false }
            else if t.err = .incompleteCode then { s with dbuf := [], ddead := false } else s) with
          err := t.err, symValid := false, resSym := 0#21, resCount := 0, resCode := [] }

/-- R220: the outcome codes and the columns "raised by" and "cause": which words complete with which code, and in which
states. EmptyInput is never produced, and every code is one of 0 to 11. -/
def Obligations.OutcomeCodesAreRaisedByTheirCommands : Prop :=
  ([.ok, .unknownSymbol, .incompleteCode, .emptyCodeTable, .emptyInput, .illegalCommand, .illegalOperand, .alphabetOverflow,
    .countOverflow, .notBuilt, .sequenceLost, .indexOutOfRange] : List ErrCode).map ErrCode.toByte =
    (List.range 12).map (BitVec.ofNat 8) ∧
  ∀ (d : Decoded) (s t : State), execDecoded d s = .next t →
    match t.err with
    | .ok => ∃ i, d = .instr i
    | .unknownSymbol => ∃ x, d = .instr (.enc x) ∧ s.ctag ≠ .none ∧ x ∉ s.ft.map Entry.sym
    | .incompleteCode => d = .instr .decEnd ∧ s.ctag ≠ .none ∧ s.dbuf ≠ []
    | .emptyCodeTable => ∃ b, d = .instr (.decBit b) ∧ s.ctag ≠ .none ∧ s.ft = []
    | .emptyInput => False
    | .illegalCommand => d = .illegalCommand
    | .illegalOperand => d = .illegalOperand ∨ ∃ x, 2 ^ s.cfg.symW ≤ x.toNat ∧ (d = .instr (.loadSym x) ∨ d = .instr (.enc x))
    | .alphabetOverflow => ∃ x, d = .instr (.loadSym x) ∧ x ∉ s.ft.map Entry.sym ∧ s.ft.length = s.cfg.maxSyms
    | .countOverflow => ∃ x, d = .instr (.loadSym x) ∧ s.total = 2 ^ s.cfg.cntW - 1
    | .notBuilt => s.ctag = .none ∧ ((∃ x, d = .instr (.enc x)) ∨ (∃ b, d = .instr (.decBit b)) ∨ d = .instr .decEnd)
    | .sequenceLost => s.seqLost = true ∧ ((∃ x, d = .instr (.loadSym x)) ∨ d = .instr .buildSf ∨ d = .instr .buildHuff)
    | .indexOutOfRange => ∃ x, d = .instr (.query x) ∧ s.ft.length ≤ x.toNat

/-- R43, R51, R47, R134: only CLEAR and LOAD_SYM write FT; only the two builds write CT; only CLEAR clears SEQ_LOST; only an overflowing
LOAD_SYM sets it; the table's tag becomes SF or HUFF only by its build and becomes NONE only by CLEAR or LOAD_SYM. -/
def Obligations.OnlyTheirCommandsWriteTheTables : Prop :=
  ∀ (i : Instr) (s t : State), exec i s = .next t →
    (t.ft ≠ s.ft → i = .clear ∨ ∃ sym, i = .loadSym sym) ∧
    (t.ct ≠ s.ct → i = .buildSf ∨ i = .buildHuff) ∧
    (s.seqLost = true → t.seqLost = false → i = .clear) ∧
    (s.seqLost = false → t.seqLost = true → (∃ sym, i = .loadSym sym) ∧ (t.err = .countOverflow ∨ t.err = .alphabetOverflow)) ∧
    (t.ctag ≠ s.ctag → (t.ctag = .sf ∧ i = .buildSf) ∨ (t.ctag = .huff ∧ i = .buildHuff) ∨
      (t.ctag = .none ∧ (i = .clear ∨ ∃ sym, i = .loadSym sym)))

/-- The frame of every command (R51, R64): the configuration, the pending latch, CMD_OVERRUN and everything of the outside world stay;
NOP, ENC, DEC_BIT, DEC_END and QUERY leave FT, CT, its tag and SEQ_LOST, and NOP, ENC and QUERY the decoder too. The unit has no data
memory. -/
def Obligations.CommandFrames : Prop :=
  ∀ (i : Instr) (s t : State), exec i s = .next t →
    (t.cfg = s.cfg ∧ t.pend = s.pend ∧ t.overrun = s.overrun ∧ t.turns = s.turns ∧ t.busData = s.busData ∧
      t.hostFault = s.hostFault ∧ t.draws = s.draws) ∧
    (i = .nop ∨ (∃ x, i = .enc x) ∨ (∃ b, i = .decBit b) ∨ i = .decEnd ∨ (∃ x, i = .query x) →
      t.ft = s.ft ∧ t.ctag = s.ctag ∧ t.ct = s.ct ∧ t.seqLost = s.seqLost) ∧
    (i = .nop ∨ (∃ x, i = .enc x) ∨ (∃ x, i = .query x) → t.dbuf = s.dbuf ∧ t.ddead = s.ddead) ∧
    (i = .buildSf ∨ i = .buildHuff → t.ft = s.ft ∧ t.seqLost = s.seqLost)

/-- R35, R40, R64: after every command SYM_VALID is 1 exactly when the command was a DEC_BIT that emitted a symbol, and only ENC, QUERY
and such a DEC_BIT leave anything but 0 in the result registers. -/
def Obligations.CompletionWritesTheResultRegisters : Prop :=
  ∀ (i : Instr) (s t : State), exec i s = .next t →
    (t.symValid = true ↔ ∃ b, i = .decBit b ∧ s.ctag ≠ .none ∧ s.ft ≠ [] ∧ s.ddead = false ∧ s.dbuf ++ [b] ∈ s.codes) ∧
    ((t.resSym ≠ 0#21 ∨ t.resCount ≠ 0 ∨ t.resCode ≠ []) →
      t.err = .ok ∧ ((∃ x, i = .enc x) ∨ (∃ x, i = .query x) ∨ t.symValid = true))

/-! ### Host procedures and analytics (spec/43_encode.md to spec/45_analytics.md) -/

/-- R175, R176, R174: on a valid table the host's encode of a sequence of its symbols answers the concatenation of their codes, read
through RESULT_LEN and RESULT_CODE, and leaves FT, CT and the decoder; for a sequence whose frequency table is FT its length is SUMWL;
and an encode that meets a symbol without an entry answers UnknownSymbol (code 1) and no bit string. -/
def Obligations.EncodeConcatenatesTheCodes : Prop :=
  ∀ (s : State) (seq : List Symbol), Inv s → s.ctag ≠ .none → s.pend = none → (∀ x ∈ seq, x ∈ s.ft.map Entry.sym) →
    (∃ bits t, encodeSeq seq s = .next (.ok bits, t) ∧
      bits = (seq.map (fun x => (s.table.lookup x).getD [])).flatten ∧
      t.ft = s.ft ∧ t.ct = s.ct ∧ t.ctag = s.ctag ∧ t.dbuf = s.dbuf ∧ t.ddead = s.ddead ∧ t.pend = none ∧
      (frequencyTable seq = s.ft → bits.length = s.sumwl)) ∧
    (∀ (x : Symbol) (after : List Symbol), x ∉ s.ft.map Entry.sym → x.toNat < 2 ^ s.cfg.symW →
      ∃ t, encodeSeq (seq ++ x :: after) s = .next (.error 1#8, t))

/-- R186, R187, R183: on a valid non-empty table, with the buffer empty, the host's decode of any digits answers exactly what the
document's buffer scan answers: its symbols when its buffer ends empty, IncompleteCode (code 2) when it does not; the decoder buffer is
empty afterwards. On a valid empty table a non-empty input is EmptyCodeTable (code 3). -/
def Obligations.DecodeAgreesWithTheBufferScan : Prop :=
  ∀ (s : State) (bits : Code), Inv s → s.ctag ≠ .none → s.pend = none → s.dbuf = [] →
    (s.ft ≠ [] → ∃ t,
      decodeSeq bits s =
        .next (if (bufferScan s.table [] bits).2 = [] then .ok (bufferScan s.table [] bits).1 else .error 2#8, t) ∧
      t.dbuf = [] ∧ t.ddead = false ∧ t.ft = s.ft ∧ t.ct = s.ct ∧ t.ctag = s.ctag) ∧
    (s.ft = [] → bits ≠ [] → ∃ t, decodeSeq bits s = .next (.error 3#8, t)) ∧
    (s.ft = [] → bits = [] → ∃ t, decodeSeq bits s = .next (.ok [], t))

/-- R188: decode(encode(S)) = S on any valid table, whichever builder made it, when every symbol of S has an entry. -/
def Obligations.DecodeOfEncodeIsTheSequence : Prop :=
  ∀ (s : State) (seq : List Symbol), Inv s → s.ctag ≠ .none → s.pend = none → s.dbuf = [] →
    (∀ x ∈ seq, x ∈ s.ft.map Entry.sym) →
    ∃ bits t u, encodeSeq seq s = .next (.ok bits, t) ∧ decodeSeq bits t = .next (.ok seq, u)

/-- R198: on a valid table the rows read back with QUERY are the entries' symbols, counts and codes in first-occurrence order. -/
def Obligations.AnalyticsRowsAreTheTable : Prop :=
  ∀ s : State, Inv s → s.ctag ≠ .none → s.pend = none →
    ∃ t, analyticsRows s = .next ((s.ft.zip s.ct).map (fun p => ⟨p.1.sym, p.1.cnt, p.2⟩), t)

/-- R200, R201: probabilities are positive, at most 1 and sum to 1, and the average code length is Σ probability × length. -/
def Obligations.ProbabilitiesAndAverageAreExact : Prop :=
  ∀ s : State, Inv s → 0 < s.total →
    (∀ e ∈ s.ft, 0 < probability s e.cnt ∧ probability s e.cnt ≤ 1) ∧
    (s.ft.map (fun e => probability s e.cnt)).sum = 1 ∧
    (s.ctag ≠ .none → averageLength s = ((s.ft.zip s.ct).map (fun p => probability s p.1.cnt * (p.2.length : ℚ))).sum)

/-- R204, R203: on every valid table the entropy is at most the average code length; the average after BUILD_HUFF is at most that after
BUILD_SF; one symbol has average 1 and entropy 0; two symbols
of equal count have entropy 1; an empty FT has both 0. -/
def Obligations.EntropyIsAtMostTheAverageLength : Prop :=
  ∀ s : State, Inv s →
    (s.ctag ≠ .none → 0 < s.total → entropy s ≤ (averageLength s : ℝ)) ∧
    (∀ t u, 0 < s.total → s.seqLost = false → exec .buildHuff s = .next t → exec .buildSf s = .next u →
      averageLength t ≤ averageLength u) ∧
    (s.ctag ≠ .none → s.ft.length = 1 → averageLength s = 1 ∧ entropy s = 0) ∧
    (∀ x y n, s.ft = [⟨x, n⟩, ⟨y, n⟩] → entropy s = 1) ∧
    (s.ft = [] → averageLength s = 0 ∧ entropy s = 0)
end

