-- ==== Sys2Proof/Laws/Builders.lean ====
section
/-! SUPPORT. Lemmas about the parts of the two builders: the items and their order, the scan of the split point, the queue, the
merge, and the writing back of codes to entry indices (spec/41_shannon_fano.md rules R141 to R143, spec/42_huffman.md rules
R161 to R165). -/

namespace Sys2Proof.Machine

/-! ### Shannon-Fano -/

theorem itemsOf_eq (ft : List Entry) :
    itemsOf ft = (List.range ft.length).map (fun i => ⟨i, (ft.getD i ⟨0#21, 0⟩).cnt⟩) := by
  apply List.ext_getElem
  · simp [itemsOf]
  · intro i h1 h2
    simp [itemsOf] at h1
    simp [itemsOf, h1]

theorem itemsOf_idx (ft : List Entry) : (itemsOf ft).map Item.idx = List.range ft.length := by
  rw [itemsOf_eq]
  simp
  exact List.map_id _

theorem sfOrder_perm (ft : List Entry) : (sfOrder ft).Perm (itemsOf ft) := List.perm_insertionSort _ _

theorem before_total (a b : Item) : a.before b = true ∨ b.before a = true := by
  unfold Item.before
  simp
  omega

theorem before_trans (a b c : Item) (h : a.before b = true) (h' : b.before c = true) : a.before c = true := by
  unfold Item.before at *
  simp at *
  omega

/-- The order is sorted by its own key. -/
theorem sfOrder_sorted (ft : List Entry) : (sfOrder ft).Pairwise (fun a b => a.before b = true) := by
  have : Std.Total (fun a b : Item => a.before b = true) := ⟨before_total⟩
  have : IsTrans Item (fun a b : Item => a.before b = true) := ⟨before_trans⟩
  exact List.pairwise_insertionSort _ _

/-- No entry index stands twice in the order. -/
theorem sfOrder_idx_nodup (ft : List Entry) : ((sfOrder ft).map Item.idx).Nodup := by
  rw [((sfOrder_perm ft).map _).nodup_iff, itemsOf_idx]
  exact List.nodup_range

theorem sfOrder_length (ft : List Entry) : (sfOrder ft).length = ft.length := by
  rw [(sfOrder_perm ft).length_eq]
  simp [itemsOf]

/-- What the scan of R142 answers from any position on: the first place where the doubled running sum reaches `total`. -/
theorem scanSplit_spec (total : Nat) : ∀ (l : List Item) (run k : Nat), l ≠ [] → total ≤ 2 * (run + itemTotal l) →
    ∃ m, m < l.length ∧ scanSplit total run k l = k + m ∧ total ≤ 2 * (run + itemTotal (l.take (m + 1))) ∧
      ∀ j, j < m → 2 * (run + itemTotal (l.take (j + 1))) < total := by
  intro l
  induction l with
  | nil => intro _ _ h; exact absurd rfl h
  | cons x xs ih =>
    intro run k _ ht
    unfold scanSplit
    split
    · next h => exact ⟨0, by simp, rfl, by simpa [itemTotal] using h, by omega⟩
    · next h =>
      have hne : xs ≠ [] := by rintro rfl; simp [itemTotal] at ht; omega
      obtain ⟨m, h1, h2, h3, h4⟩ := ih (run + x.cnt) (k + 1) hne (by simp [itemTotal] at ht ⊢; omega)
      refine ⟨m + 1, by simpa using h1, by rw [h2]; omega, by simp [itemTotal] at h3 ⊢; omega, ?_⟩
      intro j hj
      cases j with
      | zero => simp [itemTotal]; omega
      | succ j =>
        have := h4 j (by omega)
        simp [itemTotal] at this ⊢
        omega

/-! ### Huffman -/

theorem seedNodes_eq (ft : List Entry) :
    seedNodes ft = (List.range ft.length).map (fun i => ⟨(ft.getD i ⟨0#21, 0⟩).cnt, i, [(i, [])]⟩) := by
  apply List.ext_getElem
  · simp [seedNodes]
  · intro i h1 h2
    simp [seedNodes] at h1
    simp [seedNodes, h1]

theorem popMin_none {q : List Node} : popMin q = none ↔ q = [] := by
  cases q with
  | nil => simp [popMin]
  | cons n q => simp only [popMin]; split; simp; split <;> simp

theorem keyLt_iff (a b : Node) : a.keyLt b = true ↔ a.weight < b.weight ∨ (a.weight = b.weight ∧ a.seq < b.seq) := by
  unfold Node.keyLt
  simp

/-- The entry indices of a merged node are those of its two parts. -/
theorem mergeNodes_fst (a b : Node) (k : Nat) :
    (mergeNodes a b k).payload.map Prod.fst = a.payload.map Prod.fst ++ b.payload.map Prod.fst := by
  simp [mergeNodes, prependAll, Function.comp_def]

/-- Digits prepended at a merge keep what was no initial segment apart, and separate the two parts (R169). -/
theorem mergeNodes_prefixFree (a b : Node) (k : Nat) (ha : PrefixFree (a.payload.map Prod.snd))
    (hb : PrefixFree (b.payload.map Prod.snd)) : PrefixFree ((mergeNodes a b k).payload.map Prod.snd) := by
  simp only [PrefixFree, List.pairwise_map] at *
  simp only [mergeNodes, prependAll, List.pairwise_append, List.pairwise_map]
  refine ⟨by simpa using ha, by simpa using hb, ?_⟩
  intro x hx y hy
  simp at hx hy
  obtain ⟨_, _, _, rfl⟩ := hx
  obtain ⟨_, _, _, rfl⟩ := hy
  simp

/-! ### Codes back to entries -/

/-- With distinct indices, an index has the code of its pair. -/
theorem codeOf_mem (r : List (Nat × Code)) (i : Nat) (c : Code) (h : (r.map Prod.fst).Nodup) (hm : (i, c) ∈ r) :
    codeOf r i = c := by
  unfold codeOf
  induction r with
  | nil => simp at hm
  | cons a r ih =>
    obtain ⟨j, d⟩ := a
    simp at h hm
    by_cases hj : i = j
    · subst hj
      rcases hm with hm | hm
      · simp [List.lookup, hm]
      · exact absurd hm (h.1 c)
    · rcases hm with hm | hm
      · exact absurd hm.1 hj
      · rw [List.lookup_cons, show (i == j) = false by simp [hj]]
        exact ih h.2 hm

/-- The codes in index order are the codes of the pairs, rearranged. -/
theorem codesOf_perm (n : Nat) (r : List (Nat × Code)) (h : (r.map Prod.fst).Perm (List.range n)) :
    (codesOf n r).Perm (r.map Prod.snd) := by
  have nd : (r.map Prod.fst).Nodup := h.nodup_iff.2 List.nodup_range
  unfold codesOf
  refine (h.symm.map _).trans ?_
  rw [List.map_map]
  apply List.Perm.of_eq
  apply List.map_congr_left
  rintro ⟨i, c⟩ hm
  exact codeOf_mem r i c nd hm

theorem prefixFree_perm {a b : List Code} (h : a.Perm b) : PrefixFree a ↔ PrefixFree b := by
  unfold PrefixFree
  apply h.pairwise_iff
  rintro x y ⟨h1, h2⟩
  exact ⟨h2, h1⟩

/-- Strings that part at the same place in different digits: neither begins the other (R146). -/
theorem not_prefix_of_branch (p a b : Code) (x y : Bool) (h : p ++ [x] <+: a) (h' : p ++ [y] <+: b) (hxy : x ≠ y) :
    ¬a <+: b := by
  intro hab
  have := List.prefix_of_prefix_length_le (h.trans hab) h' (by simp)
  rw [List.prefix_append_right_inj] at this
  simp at this
  exact hxy this

end Sys2Proof.Machine
end

