-- ==== Sys2Proof/Laws/Encoding.lean ====
section
/-! SUPPORT. The fields of a command word as numbers, the reserved-bit masks as divisibility facts, and what `encode` and
`decode` answer, each said once (spec/30_encoding.md rules R100 to R108). -/

namespace Sys2Proof

theorem opcField_toNat (w : Word) : (opcField w).toNat = w.toNat / 2 ^ 28 := by
  have := w.isLt
  simp only [opcField, BitVec.toNat_ofNat]
  omega

theorem symField_toNat (w : Word) : (symField w).toNat = w.toNat % 2 ^ 21 := by simp [symField]

theorem idxField_toNat (w : Word) : (idxField w).toNat = w.toNat % 2 ^ 16 := by simp [idxField]

theorem bitField_eq (w : Word) : bitField w = decide (w.toNat % 2 = 1) := by
  simp [bitField, BitVec.getLsbD, Nat.testBit_zero]

/-- The number with bits `lo` to `hi - 1` set. -/
theorem fieldMask_testBit (lo hi j : Nat) (h : lo ≤ hi) :
    (2 ^ hi - 2 ^ lo).testBit j = (decide (lo ≤ j) && decide (j < hi)) := by
  have e : 2 ^ hi - 2 ^ lo = (2 ^ (hi - lo) - 1) * 2 ^ lo := by
    rw [Nat.sub_mul, ← Nat.pow_add]
    simp [Nat.sub_add_cancel h]
  rw [e, Nat.testBit_mul_two_pow, Nat.testBit_two_pow_sub_one]
  by_cases h1 : lo ≤ j <;> simp [h1]
  omega

/-- A word has no bit in the field `lo` to `hi - 1`. -/
theorem and_fieldMask_eq_zero (w : Word) (lo hi : Nat) (h : lo ≤ hi) (hh : hi ≤ 32) :
    w &&& BitVec.ofNat 32 (2 ^ hi - 2 ^ lo) = 0#32 ↔ w.toNat % 2 ^ hi / 2 ^ lo = 0 := by
  have key : ∀ j, (w &&& BitVec.ofNat 32 (2 ^ hi - 2 ^ lo)).getLsbD j
      = ((w.toNat % 2 ^ hi / 2 ^ lo).testBit (j - lo) && decide (lo ≤ j)) := by
    intro j
    simp only [BitVec.getLsbD_and, BitVec.getLsbD_ofNat, fieldMask_testBit lo hi j h, Nat.testBit_div_two_pow,
      Nat.testBit_mod_two_pow]
    by_cases h1 : lo ≤ j
    · simp only [Nat.sub_add_cancel h1, h1, BitVec.getLsbD]
      by_cases h2 : j < hi <;> simp [h2]
      omega
    · simp [h1]
  constructor
  · intro h0
    apply Nat.eq_of_testBit_eq
    intro j
    have := key (j + lo)
    rw [h0] at this
    simpa using this.symm
  · intro h0
    apply BitVec.eq_of_getLsbD_eq
    intro j _
    rw [key, h0]
    simp

/-- A word whose bits from `lo` up are the number `m`: what `w AND mask = match` of the opcode map says. -/
theorem div_of_and_eq (w : Word) (lo : Nat) (hlo : lo ≤ 32) (m : Nat) (hm : m < 2 ^ (32 - lo))
    (h : w &&& BitVec.ofNat 32 (2 ^ 32 - 2 ^ lo) = BitVec.ofNat 32 (m * 2 ^ lo)) : w.toNat / 2 ^ lo = m := by
  apply Nat.eq_of_testBit_eq
  intro j
  have := congrArg (fun v => v.getLsbD (j + lo)) h
  simp only [BitVec.getLsbD_and, BitVec.getLsbD_ofNat, fieldMask_testBit lo 32 _ hlo, Nat.testBit_mul_two_pow] at this
  rw [Nat.testBit_div_two_pow]
  by_cases hj : j + lo < 32
  · simpa [hj, BitVec.getLsbD] using this
  · rw [Nat.testBit_lt_two_pow, Nat.testBit_lt_two_pow]
    · exact lt_of_lt_of_le hm (Nat.pow_le_pow_right (by omega) (by omega))
    · exact lt_of_lt_of_le w.isLt (Nat.pow_le_pow_right (by omega) (by omega))

theorem reserved_n (w : Word) : w &&& 0x0FFFFFFF#32 = 0#32 ↔ w.toNat % 2 ^ 28 = 0 := by
  simpa using and_fieldMask_eq_zero w 0 28 (by omega) (by omega)

theorem reserved_s (w : Word) : w &&& 0x0FE00000#32 = 0#32 ↔ w.toNat % 2 ^ 28 / 2 ^ 21 = 0 := by
  simpa using and_fieldMask_eq_zero w 21 28 (by omega) (by omega)

theorem reserved_b (w : Word) : w &&& 0x0FFFFFFE#32 = 0#32 ↔ w.toNat % 2 ^ 28 / 2 = 0 := by
  simpa using and_fieldMask_eq_zero w 1 28 (by omega) (by omega)

theorem reserved_i (w : Word) : w &&& 0x0FFF0000#32 = 0#32 ↔ w.toNat % 2 ^ 28 / 2 ^ 16 = 0 := by
  simpa using and_fieldMask_eq_zero w 16 28 (by omega) (by omega)

/-- The word of a command as a number: its opcode times 2^28, plus its operand (R101, R110). -/
theorem encode_toNat (i : Instr) : (encode i).toNat = match i with
    | .nop => 0
    | .clear => 2 ^ 28
    | .loadSym x => 2 * 2 ^ 28 + x.toNat
    | .buildSf => 3 * 2 ^ 28
    | .buildHuff => 4 * 2 ^ 28
    | .enc x => 5 * 2 ^ 28 + x.toNat
    | .decBit b => 6 * 2 ^ 28 + b.toNat
    | .decEnd => 7 * 2 ^ 28
    | .query x => 8 * 2 ^ 28 + x.toNat := by
  cases i with
  | loadSym x => have := x.isLt; simp [encode, commandWord, Op.code]; omega
  | enc x => have := x.isLt; simp [encode, commandWord, Op.code]; omega
  | query x => have := x.isLt; simp [encode, commandWord, Op.code]; omega
  | decBit b => have := b.toNat_le; simp [encode, commandWord, Op.code]; omega
  | _ => simp [encode, commandWord, Op.code]

theorem ofCode_code (op : Op) : Op.ofCode op.code = some op := by cases op <;> rfl

theorem code_of_ofCode {c : BitVec 4} {op : Op} (h : Op.ofCode c = some op) : c = op.code := by
  unfold Op.ofCode at h
  split_ifs at h <;> cases h <;> assumption

theorem code_lt_nine (op : Op) : op.code.toNat < 9 := by cases op <;> decide

/-- When `decode` answers a command: the opcode, the reserved bits, the symbol range. -/
theorem decode_of_fields (cfg : Config) (w : Word) (op : Op) (hc : w.toNat / 2 ^ 28 = op.code.toNat)
    (hm : w &&& op.form.reservedMask = 0#32) (hs : op.form = .s → w.toNat % 2 ^ 21 < 2 ^ cfg.symW) :
    decode cfg w = .instr (op.assemble w) := by
  have e : opcField w = op.code := BitVec.eq_of_toNat_eq (by rw [opcField_toNat, hc])
  unfold decode
  rw [e, ofCode_code]
  simp only [hm]
  simp [symField_toNat]
  intro h
  have := hs h
  omega

/-- Everything a decoded command says of its word. -/
theorem fields_of_decode {cfg : Config} {w : Word} {i : Instr} (h : decode cfg w = .instr i) :
    ∃ op : Op, w.toNat / 2 ^ 28 = op.code.toNat ∧ w &&& op.form.reservedMask = 0#32 ∧
      (op.form = .s → w.toNat % 2 ^ 21 < 2 ^ cfg.symW) ∧ i = op.assemble w := by
  unfold decode at h
  split at h
  · cases h
  · next op ho =>
    split_ifs at h with h1 h2
    refine ⟨op, ?_, by simpa using h1, ?_, by cases h; rfl⟩
    · rw [← code_of_ofCode ho, opcField_toNat]
    · intro hs
      have : ¬2 ^ cfg.symW ≤ (symField w).toNat := fun h3 => h2 ⟨hs, h3⟩
      rw [symField_toNat] at this
      omega

/-- The illegal-command class is exactly the reserved opcodes (R104). -/
theorem decode_illegalCommand_iff (cfg : Config) (w : Word) : decode cfg w = .illegalCommand ↔ 9 ≤ w.toNat / 2 ^ 28 := by
  rw [← opcField_toNat]
  unfold decode
  have key : ∀ c : BitVec 4, Op.ofCode c = none ↔ 9 ≤ c.toNat := by decide
  rw [← key]
  split
  · next h => simp [h]
  · next h => rw [h]; split_ifs <;> simp

end Sys2Proof
end

