-- ==== Sys2Proof/Laws/Operands.lean ====
section
/-! SUPPORT. What each operand lookup answers, said once (spec/30_encoding.md rules R101, R106; spec/44_decode.md rule R180). -/

namespace Sys2Proof.Machine

theorem symInRange_iff (cfg : Config) (x : Symbol) : symInRange cfg x = true ↔ x.toNat < 2 ^ cfg.symW := by simp [symInRange]

/-- No entry is found exactly when the symbol is no entry's. -/
theorem findEntry_none {ft : List Entry} {x : Symbol} : findEntry ft x = none ↔ x ∉ ft.map Entry.sym := by
  unfold findEntry
  rw [List.findIdx?_eq_none_iff]
  simp [eq_comm]

/-- The first entry of the symbol is found. -/
theorem findEntry_split {before after : List Entry} {x : Symbol} {n : Nat} (h : x ∉ before.map Entry.sym) :
    findEntry (before ++ ⟨x, n⟩ :: after) x = some before.length := by
  unfold findEntry
  rw [List.findIdx?_append]
  have : before.findIdx? (fun e => decide (e.sym = x)) = none := findEntry_none.2 h
  rw [this]
  simp [List.findIdx?_cons]

/-- The table around a found entry. -/
theorem findEntry_some {ft : List Entry} {x : Symbol} {i : Nat} (h : findEntry ft x = some i) :
    ∃ before after n, ft = before ++ ⟨x, n⟩ :: after ∧ x ∉ before.map Entry.sym ∧ before.length = i := by
  unfold findEntry at h
  rw [List.findIdx?_eq_some_iff_getElem] at h
  obtain ⟨hi, h1, h2⟩ := h
  refine ⟨ft.take i, ft.drop (i + 1), ft[i].cnt, ?_, ?_, by simp; omega⟩
  · conv => lhs; rw [← List.take_append_drop i ft]
    rw [List.drop_eq_getElem_cons hi]
    simp at h1
    rw [← h1]
  · intro hm
    rw [List.mem_map] at hm
    obtain ⟨e, he, hx⟩ := hm
    rw [List.mem_take_iff_getElem] at he
    obtain ⟨j, hj, rfl⟩ := he
    have := h2 j (by omega)
    simp at this
    exact this hx

/-- One more occurrence of the entry found. -/
theorem modify_bump (before after : List Entry) (x : Symbol) (n : Nat) :
    (before ++ ⟨x, n⟩ :: after).modify before.length Entry.bump = before ++ ⟨x, n + 1⟩ :: after := by
  rw [List.modify_eq_take_cons_drop (by simp)]
  simp [Entry.bump]

/-- On a table with one code per entry the lookups range over all of CT. -/
theorem codes_eq (s : State) (h : s.ct.length = s.ft.length) : s.codes = s.ct := by
  unfold State.codes
  rw [← h]
  simp

theorem matchCode_none (s : State) (c : Code) : s.matchCode c = none ↔ c ∉ s.codes := by
  unfold State.matchCode
  rw [List.findIdx?_eq_none_iff]
  simp
  constructor
  · intro h hc
    exact h c hc rfl
  · rintro h d hd rfl
    exact h hd

/-- A match is a code of the table, at the index answered. -/
theorem matchCode_some {s : State} {c : Code} {i : Nat} (h : s.matchCode c = some i) : s.codes[i]? = some c := by
  unfold State.matchCode at h
  rw [List.findIdx?_eq_some_iff_getElem] at h
  obtain ⟨hi, h1, -⟩ := h
  rw [List.getElem?_eq_getElem hi]
  simpa using h1

theorem extendable_iff (s : State) (c : Code) : s.extendable c = true ↔ ∃ d ∈ s.codes, c <+: d := by
  unfold State.extendable
  simp [List.any_eq_true, List.isPrefixOf_iff_prefix]

/-- An entry's count is part of the total. -/
theorem cnt_le_total {ft : List Entry} {e : Entry} (h : e ∈ ft) : e.cnt ≤ totalOf ft :=
  List.le_sum_of_mem (List.mem_map.2 ⟨e, h, rfl⟩)

/-- SUMWL is at most TOTAL times the longest code. -/
theorem weightedLength_le :
    ∀ (ft : List Entry) (ct : List Code) (m : Nat), (∀ c ∈ ct, c.length ≤ m) → weightedLength ft ct ≤ totalOf ft * m := by
  intro ft
  induction ft with
  | nil => intro ct m _; simp [weightedLength]
  | cons e ft ih =>
    intro ct m h
    cases ct with
    | nil => simp [weightedLength]
    | cons c ct =>
      have h1 := ih ct m (fun d hd => h d (by simp [hd]))
      have h2 := h c (by simp)
      simp [weightedLength, totalOf] at *
      have : e.cnt * c.length ≤ e.cnt * m := Nat.mul_le_mul_left _ h2
      rw [Nat.add_mul]
      omega

theorem digitsToNat_testBit : ∀ (c : Code) (j : Nat), (digitsToNat c).testBit j = c.getD j false := by
  intro c
  induction c with
  | nil => intro j; simp [digitsToNat]
  | cons d ds ih =>
    intro j
    cases j with
    | zero => simp [digitsToNat, Nat.testBit_zero]; cases d <;> simp
    | succ j =>
      have e : digitsToNat (d :: ds) / 2 = digitsToNat ds := by
        simp [digitsToNat]
        have := d.toNat_le
        omega
      rw [Nat.testBit_add_one, e, ih]
      simp

/-- Bit j of packed word k is digit 32k + j (R41). -/
theorem packWord_bit (c : Code) (k j : Nat) (h : j < 32) : (packWord c k).getLsbD j = c.getD (32 * k + j) false := by
  unfold packWord
  rw [BitVec.getLsbD_ofNat, digitsToNat_testBit]
  simp [h, List.getD, List.getElem?_drop]

end Sys2Proof.Machine
end

