-- ==== Sys2Proof/Laws/State.lean ====
section
/-! SUPPORT. One lemma per field per named update of the state, and each update written out as one record. -/

namespace Sys2Proof.Machine

theorem State.finishOk_eq (s : State) : s.finishOk = { s with err := .ok, symValid := false, resSym := 0#21, resCount := 0, resCode := [] } := rfl
@[simp] theorem State.finishOk_cfg (s : State) : (s.finishOk).cfg = s.cfg := rfl
@[simp] theorem State.finishOk_ft (s : State) : (s.finishOk).ft = s.ft := rfl
@[simp] theorem State.finishOk_ctag (s : State) : (s.finishOk).ctag = s.ctag := rfl
@[simp] theorem State.finishOk_ct (s : State) : (s.finishOk).ct = s.ct := rfl
@[simp] theorem State.finishOk_dbuf (s : State) : (s.finishOk).dbuf = s.dbuf := rfl
@[simp] theorem State.finishOk_ddead (s : State) : (s.finishOk).ddead = s.ddead := rfl
@[simp] theorem State.finishOk_seqLost (s : State) : (s.finishOk).seqLost = s.seqLost := rfl
@[simp] theorem State.finishOk_overrun (s : State) : (s.finishOk).overrun = s.overrun := rfl
@[simp] theorem State.finishOk_pend (s : State) : (s.finishOk).pend = s.pend := rfl
@[simp] theorem State.finishOk_err (s : State) : (s.finishOk).err = .ok := rfl
@[simp] theorem State.finishOk_symValid (s : State) : (s.finishOk).symValid = false := rfl
@[simp] theorem State.finishOk_resSym (s : State) : (s.finishOk).resSym = 0#21 := rfl
@[simp] theorem State.finishOk_resCount (s : State) : (s.finishOk).resCount = 0 := rfl
@[simp] theorem State.finishOk_resCode (s : State) : (s.finishOk).resCode = [] := rfl
@[simp] theorem State.finishOk_turns (s : State) : (s.finishOk).turns = s.turns := rfl
@[simp] theorem State.finishOk_busData (s : State) : (s.finishOk).busData = s.busData := rfl
@[simp] theorem State.finishOk_hostFault (s : State) : (s.finishOk).hostFault = s.hostFault := rfl
@[simp] theorem State.finishOk_draws (s : State) : (s.finishOk).draws = s.draws := rfl

theorem State.finishWith_eq (s : State) (r : Result) : s.finishWith r = { s with err := .ok, symValid := false, resSym := r.sym, resCount := r.cnt, resCode := r.code } := rfl
@[simp] theorem State.finishWith_cfg (s : State) (r : Result) : (s.finishWith r).cfg = s.cfg := rfl
@[simp] theorem State.finishWith_ft (s : State) (r : Result) : (s.finishWith r).ft = s.ft := rfl
@[simp] theorem State.finishWith_ctag (s : State) (r : Result) : (s.finishWith r).ctag = s.ctag := rfl
@[simp] theorem State.finishWith_ct (s : State) (r : Result) : (s.finishWith r).ct = s.ct := rfl
@[simp] theorem State.finishWith_dbuf (s : State) (r : Result) : (s.finishWith r).dbuf = s.dbuf := rfl
@[simp] theorem State.finishWith_ddead (s : State) (r : Result) : (s.finishWith r).ddead = s.ddead := rfl
@[simp] theorem State.finishWith_seqLost (s : State) (r : Result) : (s.finishWith r).seqLost = s.seqLost := rfl
@[simp] theorem State.finishWith_overrun (s : State) (r : Result) : (s.finishWith r).overrun = s.overrun := rfl
@[simp] theorem State.finishWith_pend (s : State) (r : Result) : (s.finishWith r).pend = s.pend := rfl
@[simp] theorem State.finishWith_err (s : State) (r : Result) : (s.finishWith r).err = .ok := rfl
@[simp] theorem State.finishWith_symValid (s : State) (r : Result) : (s.finishWith r).symValid = false := rfl
@[simp] theorem State.finishWith_resSym (s : State) (r : Result) : (s.finishWith r).resSym = r.sym := rfl
@[simp] theorem State.finishWith_resCount (s : State) (r : Result) : (s.finishWith r).resCount = r.cnt := rfl
@[simp] theorem State.finishWith_resCode (s : State) (r : Result) : (s.finishWith r).resCode = r.code := rfl
@[simp] theorem State.finishWith_turns (s : State) (r : Result) : (s.finishWith r).turns = s.turns := rfl
@[simp] theorem State.finishWith_busData (s : State) (r : Result) : (s.finishWith r).busData = s.busData := rfl
@[simp] theorem State.finishWith_hostFault (s : State) (r : Result) : (s.finishWith r).hostFault = s.hostFault := rfl
@[simp] theorem State.finishWith_draws (s : State) (r : Result) : (s.finishWith r).draws = s.draws := rfl

theorem State.finishEmit_eq (s : State) (r : Result) : s.finishEmit r = { s with err := .ok, symValid := true, resSym := r.sym, resCount := r.cnt, resCode := r.code } := rfl
@[simp] theorem State.finishEmit_cfg (s : State) (r : Result) : (s.finishEmit r).cfg = s.cfg := rfl
@[simp] theorem State.finishEmit_ft (s : State) (r : Result) : (s.finishEmit r).ft = s.ft := rfl
@[simp] theorem State.finishEmit_ctag (s : State) (r : Result) : (s.finishEmit r).ctag = s.ctag := rfl
@[simp] theorem State.finishEmit_ct (s : State) (r : Result) : (s.finishEmit r).ct = s.ct := rfl
@[simp] theorem State.finishEmit_dbuf (s : State) (r : Result) : (s.finishEmit r).dbuf = s.dbuf := rfl
@[simp] theorem State.finishEmit_ddead (s : State) (r : Result) : (s.finishEmit r).ddead = s.ddead := rfl
@[simp] theorem State.finishEmit_seqLost (s : State) (r : Result) : (s.finishEmit r).seqLost = s.seqLost := rfl
@[simp] theorem State.finishEmit_overrun (s : State) (r : Result) : (s.finishEmit r).overrun = s.overrun := rfl
@[simp] theorem State.finishEmit_pend (s : State) (r : Result) : (s.finishEmit r).pend = s.pend := rfl
@[simp] theorem State.finishEmit_err (s : State) (r : Result) : (s.finishEmit r).err = .ok := rfl
@[simp] theorem State.finishEmit_symValid (s : State) (r : Result) : (s.finishEmit r).symValid = true := rfl
@[simp] theorem State.finishEmit_resSym (s : State) (r : Result) : (s.finishEmit r).resSym = r.sym := rfl
@[simp] theorem State.finishEmit_resCount (s : State) (r : Result) : (s.finishEmit r).resCount = r.cnt := rfl
@[simp] theorem State.finishEmit_resCode (s : State) (r : Result) : (s.finishEmit r).resCode = r.code := rfl
@[simp] theorem State.finishEmit_turns (s : State) (r : Result) : (s.finishEmit r).turns = s.turns := rfl
@[simp] theorem State.finishEmit_busData (s : State) (r : Result) : (s.finishEmit r).busData = s.busData := rfl
@[simp] theorem State.finishEmit_hostFault (s : State) (r : Result) : (s.finishEmit r).hostFault = s.hostFault := rfl
@[simp] theorem State.finishEmit_draws (s : State) (r : Result) : (s.finishEmit r).draws = s.draws := rfl

theorem State.raise_eq (s : State) (e : ErrCode) : s.raise e = { s with err := e, symValid := false, resSym := 0#21, resCount := 0, resCode := [] } := by simp [State.raise, State.finish, Result.zero]
@[simp] theorem State.raise_cfg (s : State) (e : ErrCode) : (s.raise e).cfg = s.cfg := by rw [State.raise_eq]
@[simp] theorem State.raise_ft (s : State) (e : ErrCode) : (s.raise e).ft = s.ft := by rw [State.raise_eq]
@[simp] theorem State.raise_ctag (s : State) (e : ErrCode) : (s.raise e).ctag = s.ctag := by rw [State.raise_eq]
@[simp] theorem State.raise_ct (s : State) (e : ErrCode) : (s.raise e).ct = s.ct := by rw [State.raise_eq]
@[simp] theorem State.raise_dbuf (s : State) (e : ErrCode) : (s.raise e).dbuf = s.dbuf := by rw [State.raise_eq]
@[simp] theorem State.raise_ddead (s : State) (e : ErrCode) : (s.raise e).ddead = s.ddead := by rw [State.raise_eq]
@[simp] theorem State.raise_seqLost (s : State) (e : ErrCode) : (s.raise e).seqLost = s.seqLost := by rw [State.raise_eq]
@[simp] theorem State.raise_overrun (s : State) (e : ErrCode) : (s.raise e).overrun = s.overrun := by rw [State.raise_eq]
@[simp] theorem State.raise_pend (s : State) (e : ErrCode) : (s.raise e).pend = s.pend := by rw [State.raise_eq]
@[simp] theorem State.raise_err (s : State) (e : ErrCode) : (s.raise e).err = e := by rw [State.raise_eq]
@[simp] theorem State.raise_symValid (s : State) (e : ErrCode) : (s.raise e).symValid = false := by rw [State.raise_eq]
@[simp] theorem State.raise_resSym (s : State) (e : ErrCode) : (s.raise e).resSym = 0#21 := by rw [State.raise_eq]
@[simp] theorem State.raise_resCount (s : State) (e : ErrCode) : (s.raise e).resCount = 0 := by rw [State.raise_eq]
@[simp] theorem State.raise_resCode (s : State) (e : ErrCode) : (s.raise e).resCode = [] := by rw [State.raise_eq]
@[simp] theorem State.raise_turns (s : State) (e : ErrCode) : (s.raise e).turns = s.turns := by rw [State.raise_eq]
@[simp] theorem State.raise_busData (s : State) (e : ErrCode) : (s.raise e).busData = s.busData := by rw [State.raise_eq]
@[simp] theorem State.raise_hostFault (s : State) (e : ErrCode) : (s.raise e).hostFault = s.hostFault := by rw [State.raise_eq]
@[simp] theorem State.raise_draws (s : State) (e : ErrCode) : (s.raise e).draws = s.draws := by rw [State.raise_eq]

theorem State.emptyDecoder_eq (s : State) : s.emptyDecoder = { s with dbuf := [], ddead := false } := rfl
@[simp] theorem State.emptyDecoder_cfg (s : State) : (s.emptyDecoder).cfg = s.cfg := rfl
@[simp] theorem State.emptyDecoder_ft (s : State) : (s.emptyDecoder).ft = s.ft := rfl
@[simp] theorem State.emptyDecoder_ctag (s : State) : (s.emptyDecoder).ctag = s.ctag := rfl
@[simp] theorem State.emptyDecoder_ct (s : State) : (s.emptyDecoder).ct = s.ct := rfl
@[simp] theorem State.emptyDecoder_dbuf (s : State) : (s.emptyDecoder).dbuf = [] := rfl
@[simp] theorem State.emptyDecoder_ddead (s : State) : (s.emptyDecoder).ddead = false := rfl
@[simp] theorem State.emptyDecoder_seqLost (s : State) : (s.emptyDecoder).seqLost = s.seqLost := rfl
@[simp] theorem State.emptyDecoder_overrun (s : State) : (s.emptyDecoder).overrun = s.overrun := rfl
@[simp] theorem State.emptyDecoder_pend (s : State) : (s.emptyDecoder).pend = s.pend := rfl
@[simp] theorem State.emptyDecoder_err (s : State) : (s.emptyDecoder).err = s.err := rfl
@[simp] theorem State.emptyDecoder_symValid (s : State) : (s.emptyDecoder).symValid = s.symValid := rfl
@[simp] theorem State.emptyDecoder_resSym (s : State) : (s.emptyDecoder).resSym = s.resSym := rfl
@[simp] theorem State.emptyDecoder_resCount (s : State) : (s.emptyDecoder).resCount = s.resCount := rfl
@[simp] theorem State.emptyDecoder_resCode (s : State) : (s.emptyDecoder).resCode = s.resCode := rfl
@[simp] theorem State.emptyDecoder_turns (s : State) : (s.emptyDecoder).turns = s.turns := rfl
@[simp] theorem State.emptyDecoder_busData (s : State) : (s.emptyDecoder).busData = s.busData := rfl
@[simp] theorem State.emptyDecoder_hostFault (s : State) : (s.emptyDecoder).hostFault = s.hostFault := rfl
@[simp] theorem State.emptyDecoder_draws (s : State) : (s.emptyDecoder).draws = s.draws := rfl

theorem State.invalidate_eq (s : State) : s.invalidate = { s with ctag := .none, dbuf := [], ddead := false } := rfl
@[simp] theorem State.invalidate_cfg (s : State) : (s.invalidate).cfg = s.cfg := rfl
@[simp] theorem State.invalidate_ft (s : State) : (s.invalidate).ft = s.ft := rfl
@[simp] theorem State.invalidate_ctag (s : State) : (s.invalidate).ctag = .none := rfl
@[simp] theorem State.invalidate_ct (s : State) : (s.invalidate).ct = s.ct := rfl
@[simp] theorem State.invalidate_dbuf (s : State) : (s.invalidate).dbuf = [] := rfl
@[simp] theorem State.invalidate_ddead (s : State) : (s.invalidate).ddead = false := rfl
@[simp] theorem State.invalidate_seqLost (s : State) : (s.invalidate).seqLost = s.seqLost := rfl
@[simp] theorem State.invalidate_overrun (s : State) : (s.invalidate).overrun = s.overrun := rfl
@[simp] theorem State.invalidate_pend (s : State) : (s.invalidate).pend = s.pend := rfl
@[simp] theorem State.invalidate_err (s : State) : (s.invalidate).err = s.err := rfl
@[simp] theorem State.invalidate_symValid (s : State) : (s.invalidate).symValid = s.symValid := rfl
@[simp] theorem State.invalidate_resSym (s : State) : (s.invalidate).resSym = s.resSym := rfl
@[simp] theorem State.invalidate_resCount (s : State) : (s.invalidate).resCount = s.resCount := rfl
@[simp] theorem State.invalidate_resCode (s : State) : (s.invalidate).resCode = s.resCode := rfl
@[simp] theorem State.invalidate_turns (s : State) : (s.invalidate).turns = s.turns := rfl
@[simp] theorem State.invalidate_busData (s : State) : (s.invalidate).busData = s.busData := rfl
@[simp] theorem State.invalidate_hostFault (s : State) : (s.invalidate).hostFault = s.hostFault := rfl
@[simp] theorem State.invalidate_draws (s : State) : (s.invalidate).draws = s.draws := rfl

theorem State.loseSequence_eq (s : State) : s.loseSequence = { s with seqLost := true, ctag := .none, dbuf := [], ddead := false } := rfl
@[simp] theorem State.loseSequence_cfg (s : State) : (s.loseSequence).cfg = s.cfg := rfl
@[simp] theorem State.loseSequence_ft (s : State) : (s.loseSequence).ft = s.ft := rfl
@[simp] theorem State.loseSequence_ctag (s : State) : (s.loseSequence).ctag = .none := rfl
@[simp] theorem State.loseSequence_ct (s : State) : (s.loseSequence).ct = s.ct := rfl
@[simp] theorem State.loseSequence_dbuf (s : State) : (s.loseSequence).dbuf = [] := rfl
@[simp] theorem State.loseSequence_ddead (s : State) : (s.loseSequence).ddead = false := rfl
@[simp] theorem State.loseSequence_seqLost (s : State) : (s.loseSequence).seqLost = true := rfl
@[simp] theorem State.loseSequence_overrun (s : State) : (s.loseSequence).overrun = s.overrun := rfl
@[simp] theorem State.loseSequence_pend (s : State) : (s.loseSequence).pend = s.pend := rfl
@[simp] theorem State.loseSequence_err (s : State) : (s.loseSequence).err = s.err := rfl
@[simp] theorem State.loseSequence_symValid (s : State) : (s.loseSequence).symValid = s.symValid := rfl
@[simp] theorem State.loseSequence_resSym (s : State) : (s.loseSequence).resSym = s.resSym := rfl
@[simp] theorem State.loseSequence_resCount (s : State) : (s.loseSequence).resCount = s.resCount := rfl
@[simp] theorem State.loseSequence_resCode (s : State) : (s.loseSequence).resCode = s.resCode := rfl
@[simp] theorem State.loseSequence_turns (s : State) : (s.loseSequence).turns = s.turns := rfl
@[simp] theorem State.loseSequence_busData (s : State) : (s.loseSequence).busData = s.busData := rfl
@[simp] theorem State.loseSequence_hostFault (s : State) : (s.loseSequence).hostFault = s.hostFault := rfl
@[simp] theorem State.loseSequence_draws (s : State) : (s.loseSequence).draws = s.draws := rfl

theorem State.install_eq (s : State) (tag : CodeTag) (codes : List Code) : s.install tag codes = { s with ctag := tag, ct := codes, dbuf := [], ddead := false } := rfl
@[simp] theorem State.install_cfg (s : State) (tag : CodeTag) (codes : List Code) : (s.install tag codes).cfg = s.cfg := rfl
@[simp] theorem State.install_ft (s : State) (tag : CodeTag) (codes : List Code) : (s.install tag codes).ft = s.ft := rfl
@[simp] theorem State.install_ctag (s : State) (tag : CodeTag) (codes : List Code) : (s.install tag codes).ctag = tag := rfl
@[simp] theorem State.install_ct (s : State) (tag : CodeTag) (codes : List Code) : (s.install tag codes).ct = codes := rfl
@[simp] theorem State.install_dbuf (s : State) (tag : CodeTag) (codes : List Code) : (s.install tag codes).dbuf = [] := rfl
@[simp] theorem State.install_ddead (s : State) (tag : CodeTag) (codes : List Code) : (s.install tag codes).ddead = false := rfl
@[simp] theorem State.install_seqLost (s : State) (tag : CodeTag) (codes : List Code) : (s.install tag codes).seqLost = s.seqLost := rfl
@[simp] theorem State.install_overrun (s : State) (tag : CodeTag) (codes : List Code) : (s.install tag codes).overrun = s.overrun := rfl
@[simp] theorem State.install_pend (s : State) (tag : CodeTag) (codes : List Code) : (s.install tag codes).pend = s.pend := rfl
@[simp] theorem State.install_err (s : State) (tag : CodeTag) (codes : List Code) : (s.install tag codes).err = s.err := rfl
@[simp] theorem State.install_symValid (s : State) (tag : CodeTag) (codes : List Code) : (s.install tag codes).symValid = s.symValid := rfl
@[simp] theorem State.install_resSym (s : State) (tag : CodeTag) (codes : List Code) : (s.install tag codes).resSym = s.resSym := rfl
@[simp] theorem State.install_resCount (s : State) (tag : CodeTag) (codes : List Code) : (s.install tag codes).resCount = s.resCount := rfl
@[simp] theorem State.install_resCode (s : State) (tag : CodeTag) (codes : List Code) : (s.install tag codes).resCode = s.resCode := rfl
@[simp] theorem State.install_turns (s : State) (tag : CodeTag) (codes : List Code) : (s.install tag codes).turns = s.turns := rfl
@[simp] theorem State.install_busData (s : State) (tag : CodeTag) (codes : List Code) : (s.install tag codes).busData = s.busData := rfl
@[simp] theorem State.install_hostFault (s : State) (tag : CodeTag) (codes : List Code) : (s.install tag codes).hostFault = s.hostFault := rfl
@[simp] theorem State.install_draws (s : State) (tag : CodeTag) (codes : List Code) : (s.install tag codes).draws = s.draws := rfl

theorem State.setFt_eq (s : State) (l : List Entry) : s.setFt l = { s with ft := l } := rfl
@[simp] theorem State.setFt_cfg (s : State) (l : List Entry) : (s.setFt l).cfg = s.cfg := rfl
@[simp] theorem State.setFt_ft (s : State) (l : List Entry) : (s.setFt l).ft = l := rfl
@[simp] theorem State.setFt_ctag (s : State) (l : List Entry) : (s.setFt l).ctag = s.ctag := rfl
@[simp] theorem State.setFt_ct (s : State) (l : List Entry) : (s.setFt l).ct = s.ct := rfl
@[simp] theorem State.setFt_dbuf (s : State) (l : List Entry) : (s.setFt l).dbuf = s.dbuf := rfl
@[simp] theorem State.setFt_ddead (s : State) (l : List Entry) : (s.setFt l).ddead = s.ddead := rfl
@[simp] theorem State.setFt_seqLost (s : State) (l : List Entry) : (s.setFt l).seqLost = s.seqLost := rfl
@[simp] theorem State.setFt_overrun (s : State) (l : List Entry) : (s.setFt l).overrun = s.overrun := rfl
@[simp] theorem State.setFt_pend (s : State) (l : List Entry) : (s.setFt l).pend = s.pend := rfl
@[simp] theorem State.setFt_err (s : State) (l : List Entry) : (s.setFt l).err = s.err := rfl
@[simp] theorem State.setFt_symValid (s : State) (l : List Entry) : (s.setFt l).symValid = s.symValid := rfl
@[simp] theorem State.setFt_resSym (s : State) (l : List Entry) : (s.setFt l).resSym = s.resSym := rfl
@[simp] theorem State.setFt_resCount (s : State) (l : List Entry) : (s.setFt l).resCount = s.resCount := rfl
@[simp] theorem State.setFt_resCode (s : State) (l : List Entry) : (s.setFt l).resCode = s.resCode := rfl
@[simp] theorem State.setFt_turns (s : State) (l : List Entry) : (s.setFt l).turns = s.turns := rfl
@[simp] theorem State.setFt_busData (s : State) (l : List Entry) : (s.setFt l).busData = s.busData := rfl
@[simp] theorem State.setFt_hostFault (s : State) (l : List Entry) : (s.setFt l).hostFault = s.hostFault := rfl
@[simp] theorem State.setFt_draws (s : State) (l : List Entry) : (s.setFt l).draws = s.draws := rfl

theorem State.retire_eq (s : State) : s.retire = { s with pend := none } := rfl
@[simp] theorem State.retire_cfg (s : State) : (s.retire).cfg = s.cfg := rfl
@[simp] theorem State.retire_ft (s : State) : (s.retire).ft = s.ft := rfl
@[simp] theorem State.retire_ctag (s : State) : (s.retire).ctag = s.ctag := rfl
@[simp] theorem State.retire_ct (s : State) : (s.retire).ct = s.ct := rfl
@[simp] theorem State.retire_dbuf (s : State) : (s.retire).dbuf = s.dbuf := rfl
@[simp] theorem State.retire_ddead (s : State) : (s.retire).ddead = s.ddead := rfl
@[simp] theorem State.retire_seqLost (s : State) : (s.retire).seqLost = s.seqLost := rfl
@[simp] theorem State.retire_overrun (s : State) : (s.retire).overrun = s.overrun := rfl
@[simp] theorem State.retire_pend (s : State) : (s.retire).pend = none := rfl
@[simp] theorem State.retire_err (s : State) : (s.retire).err = s.err := rfl
@[simp] theorem State.retire_symValid (s : State) : (s.retire).symValid = s.symValid := rfl
@[simp] theorem State.retire_resSym (s : State) : (s.retire).resSym = s.resSym := rfl
@[simp] theorem State.retire_resCount (s : State) : (s.retire).resCount = s.resCount := rfl
@[simp] theorem State.retire_resCode (s : State) : (s.retire).resCode = s.resCode := rfl
@[simp] theorem State.retire_turns (s : State) : (s.retire).turns = s.turns := rfl
@[simp] theorem State.retire_busData (s : State) : (s.retire).busData = s.busData := rfl
@[simp] theorem State.retire_hostFault (s : State) : (s.retire).hostFault = s.hostFault := rfl
@[simp] theorem State.retire_draws (s : State) : (s.retire).draws = s.draws := rfl

theorem State.clearSequence_eq (s : State) : s.clearSequence = { s with ft := [], ctag := .none, dbuf := [], ddead := false, seqLost := false } := rfl
@[simp] theorem State.clearSequence_cfg (s : State) : (s.clearSequence).cfg = s.cfg := rfl
@[simp] theorem State.clearSequence_ft (s : State) : (s.clearSequence).ft = [] := rfl
@[simp] theorem State.clearSequence_ctag (s : State) : (s.clearSequence).ctag = .none := rfl
@[simp] theorem State.clearSequence_ct (s : State) : (s.clearSequence).ct = s.ct := rfl
@[simp] theorem State.clearSequence_dbuf (s : State) : (s.clearSequence).dbuf = [] := rfl
@[simp] theorem State.clearSequence_ddead (s : State) : (s.clearSequence).ddead = false := rfl
@[simp] theorem State.clearSequence_seqLost (s : State) : (s.clearSequence).seqLost = false := rfl
@[simp] theorem State.clearSequence_overrun (s : State) : (s.clearSequence).overrun = s.overrun := rfl
@[simp] theorem State.clearSequence_pend (s : State) : (s.clearSequence).pend = s.pend := rfl
@[simp] theorem State.clearSequence_err (s : State) : (s.clearSequence).err = s.err := rfl
@[simp] theorem State.clearSequence_symValid (s : State) : (s.clearSequence).symValid = s.symValid := rfl
@[simp] theorem State.clearSequence_resSym (s : State) : (s.clearSequence).resSym = s.resSym := rfl
@[simp] theorem State.clearSequence_resCount (s : State) : (s.clearSequence).resCount = s.resCount := rfl
@[simp] theorem State.clearSequence_resCode (s : State) : (s.clearSequence).resCode = s.resCode := rfl
@[simp] theorem State.clearSequence_turns (s : State) : (s.clearSequence).turns = s.turns := rfl
@[simp] theorem State.clearSequence_busData (s : State) : (s.clearSequence).busData = s.busData := rfl
@[simp] theorem State.clearSequence_hostFault (s : State) : (s.clearSequence).hostFault = s.hostFault := rfl
@[simp] theorem State.clearSequence_draws (s : State) : (s.clearSequence).draws = s.draws := rfl

theorem State.returnWord_eq (s : State) (w : Word) : s.returnWord w = { s with busData := w } := rfl
@[simp] theorem State.returnWord_cfg (s : State) (w : Word) : (s.returnWord w).cfg = s.cfg := rfl
@[simp] theorem State.returnWord_ft (s : State) (w : Word) : (s.returnWord w).ft = s.ft := rfl
@[simp] theorem State.returnWord_ctag (s : State) (w : Word) : (s.returnWord w).ctag = s.ctag := rfl
@[simp] theorem State.returnWord_ct (s : State) (w : Word) : (s.returnWord w).ct = s.ct := rfl
@[simp] theorem State.returnWord_dbuf (s : State) (w : Word) : (s.returnWord w).dbuf = s.dbuf := rfl
@[simp] theorem State.returnWord_ddead (s : State) (w : Word) : (s.returnWord w).ddead = s.ddead := rfl
@[simp] theorem State.returnWord_seqLost (s : State) (w : Word) : (s.returnWord w).seqLost = s.seqLost := rfl
@[simp] theorem State.returnWord_overrun (s : State) (w : Word) : (s.returnWord w).overrun = s.overrun := rfl
@[simp] theorem State.returnWord_pend (s : State) (w : Word) : (s.returnWord w).pend = s.pend := rfl
@[simp] theorem State.returnWord_err (s : State) (w : Word) : (s.returnWord w).err = s.err := rfl
@[simp] theorem State.returnWord_symValid (s : State) (w : Word) : (s.returnWord w).symValid = s.symValid := rfl
@[simp] theorem State.returnWord_resSym (s : State) (w : Word) : (s.returnWord w).resSym = s.resSym := rfl
@[simp] theorem State.returnWord_resCount (s : State) (w : Word) : (s.returnWord w).resCount = s.resCount := rfl
@[simp] theorem State.returnWord_resCode (s : State) (w : Word) : (s.returnWord w).resCode = s.resCode := rfl
@[simp] theorem State.returnWord_turns (s : State) (w : Word) : (s.returnWord w).turns = s.turns := rfl
@[simp] theorem State.returnWord_busData (s : State) (w : Word) : (s.returnWord w).busData = w := rfl
@[simp] theorem State.returnWord_hostFault (s : State) (w : Word) : (s.returnWord w).hostFault = s.hostFault := rfl
@[simp] theorem State.returnWord_draws (s : State) (w : Word) : (s.returnWord w).draws = s.draws := rfl

theorem State.latch_eq (s : State) (w : Word) : s.latch w = { s with pend := some w, turns := .engine :: s.turns } := rfl
@[simp] theorem State.latch_cfg (s : State) (w : Word) : (s.latch w).cfg = s.cfg := rfl
@[simp] theorem State.latch_ft (s : State) (w : Word) : (s.latch w).ft = s.ft := rfl
@[simp] theorem State.latch_ctag (s : State) (w : Word) : (s.latch w).ctag = s.ctag := rfl
@[simp] theorem State.latch_ct (s : State) (w : Word) : (s.latch w).ct = s.ct := rfl
@[simp] theorem State.latch_dbuf (s : State) (w : Word) : (s.latch w).dbuf = s.dbuf := rfl
@[simp] theorem State.latch_ddead (s : State) (w : Word) : (s.latch w).ddead = s.ddead := rfl
@[simp] theorem State.latch_seqLost (s : State) (w : Word) : (s.latch w).seqLost = s.seqLost := rfl
@[simp] theorem State.latch_overrun (s : State) (w : Word) : (s.latch w).overrun = s.overrun := rfl
@[simp] theorem State.latch_pend (s : State) (w : Word) : (s.latch w).pend = some w := rfl
@[simp] theorem State.latch_err (s : State) (w : Word) : (s.latch w).err = s.err := rfl
@[simp] theorem State.latch_symValid (s : State) (w : Word) : (s.latch w).symValid = s.symValid := rfl
@[simp] theorem State.latch_resSym (s : State) (w : Word) : (s.latch w).resSym = s.resSym := rfl
@[simp] theorem State.latch_resCount (s : State) (w : Word) : (s.latch w).resCount = s.resCount := rfl
@[simp] theorem State.latch_resCode (s : State) (w : Word) : (s.latch w).resCode = s.resCode := rfl
@[simp] theorem State.latch_turns (s : State) (w : Word) : (s.latch w).turns = .engine :: s.turns := rfl
@[simp] theorem State.latch_busData (s : State) (w : Word) : (s.latch w).busData = s.busData := rfl
@[simp] theorem State.latch_hostFault (s : State) (w : Word) : (s.latch w).hostFault = s.hostFault := rfl
@[simp] theorem State.latch_draws (s : State) (w : Word) : (s.latch w).draws = s.draws := rfl

@[simp] theorem State.assertReset_cfg (s : State) : s.assertReset.cfg = s.cfg := rfl
@[simp] theorem State.assertReset_ft (s : State) : s.assertReset.ft = (State.resetOf s.cfg).ft := rfl
@[simp] theorem State.assertReset_ctag (s : State) : s.assertReset.ctag = (State.resetOf s.cfg).ctag := rfl
@[simp] theorem State.assertReset_ct (s : State) : s.assertReset.ct = (State.resetOf s.cfg).ct := rfl
@[simp] theorem State.assertReset_dbuf (s : State) : s.assertReset.dbuf = (State.resetOf s.cfg).dbuf := rfl
@[simp] theorem State.assertReset_ddead (s : State) : s.assertReset.ddead = (State.resetOf s.cfg).ddead := rfl
@[simp] theorem State.assertReset_seqLost (s : State) : s.assertReset.seqLost = (State.resetOf s.cfg).seqLost := rfl
@[simp] theorem State.assertReset_overrun (s : State) : s.assertReset.overrun = (State.resetOf s.cfg).overrun := rfl
@[simp] theorem State.assertReset_pend (s : State) : s.assertReset.pend = (State.resetOf s.cfg).pend := rfl
@[simp] theorem State.assertReset_err (s : State) : s.assertReset.err = (State.resetOf s.cfg).err := rfl
@[simp] theorem State.assertReset_symValid (s : State) : s.assertReset.symValid = (State.resetOf s.cfg).symValid := rfl
@[simp] theorem State.assertReset_resSym (s : State) : s.assertReset.resSym = (State.resetOf s.cfg).resSym := rfl
@[simp] theorem State.assertReset_resCount (s : State) : s.assertReset.resCount = (State.resetOf s.cfg).resCount := rfl
@[simp] theorem State.assertReset_resCode (s : State) : s.assertReset.resCode = (State.resetOf s.cfg).resCode := rfl
@[simp] theorem State.assertReset_turns (s : State) : s.assertReset.turns = s.turns := rfl
@[simp] theorem State.assertReset_busData (s : State) : s.assertReset.busData = s.busData := rfl
@[simp] theorem State.assertReset_hostFault (s : State) : s.assertReset.hostFault = s.hostFault := rfl
@[simp] theorem State.assertReset_draws (s : State) : s.assertReset.draws = s.draws := rfl

end Sys2Proof.Machine
end

