-- ==== Sys2Proof/Laws/Exec.lean ====
section
/-! SUPPORT. What a command can do, said once: the inversion of `exec`, of DEC_BIT's scan, of an engine step and of a host
access. Later proofs cite these and unfold no meaning. -/

namespace Sys2Proof.Machine

/-- On a prefix-free table a code is matched at its own index (R184). -/
theorem matchCode_of_prefixFree (s : State) (c : Code) (hp : PrefixFree s.codes) (i : Nat) (h : s.codes[i]? = some c) :
    s.matchCode c = some i := by
  cases hm : s.matchCode c with
  | none => rw [matchCode_none] at hm; exact absurd (List.mem_of_getElem? h) hm
  | some j =>
    obtain ⟨hj, h1⟩ := List.getElem?_eq_some_iff.1 (matchCode_some hm)
    obtain ⟨hi, h2⟩ := List.getElem?_eq_some_iff.1 h
    congr 1
    by_contra hne
    rcases Nat.lt_or_gt_of_ne hne with hl | hl
    · have := (List.pairwise_iff_getElem.1 hp) j i hj hi hl
      rw [h1, h2] at this
      exact this.1 List.prefix_rfl
    · have := (List.pairwise_iff_getElem.1 hp) i j hi hj hl
      rw [h1, h2] at this
      exact this.1 List.prefix_rfl

/-- DEC_BIT's scan of one digit: it emits, waits, or the buffer is dead (R180). -/
theorem feed_cases (s : State) (nb : Code) :
    (∃ i, s.matchCode nb = some i ∧ s.feed nb =
      { s with dbuf := [], err := .ok, symValid := true, resSym := s.symAt i, resCount := s.cntAt i, resCode := s.codeAt i }) ∨
    (s.matchCode nb = none ∧ s.extendable nb = true ∧ s.feed nb =
      { s with dbuf := nb, err := .ok, symValid := false, resSym := 0#21, resCount := 0, resCode := [] }) ∨
    (s.matchCode nb = none ∧ s.extendable nb = false ∧ s.feed nb =
      { s with dbuf := nb, ddead := true, err := .ok, symValid := false, resSym := 0#21, resCount := 0, resCode := [] }) := by
  unfold State.feed
  split
  · next i hi => exact .inl ⟨i, hi, rfl⟩
  · next hn =>
    split
    · next he => exact .inr (.inl ⟨hn, he, rfl⟩)
    · next he => exact .inr (.inr ⟨hn, by simpa using he, rfl⟩)

/-- Every command answers a next state. -/
theorem exec_next (i : Instr) (s : State) : ∃ t, exec i s = .next t := by
  cases i <;>
    simp only [exec, execNop, execClear, execLoadSym, execBuildSf, execBuildHuff, execEnc, execDecBit, execDecEnd, execQuery] <;>
    (repeat' split) <;> exact ⟨_, rfl⟩

/-- Everything a command can do, one line per way it can end: an error that changes nothing but the completion's fields, then
each command's own ends. -/
theorem exec_cases (i : Instr) (s t : State) (h : exec i s = .next t) :
    (∃ e, e ≠ .ok ∧ e ≠ .emptyInput ∧ e ≠ .countOverflow ∧ e ≠ .alphabetOverflow ∧ e ≠ .incompleteCode ∧ t = s.raise e) ∨
    (i = .nop ∧ t = s.finishOk) ∨ (i = .clear ∧ t = s.clearSequence.finishOk) ∨
    (∃ x e, i = .loadSym x ∧ s.seqLost = false ∧ (e = .countOverflow ∨ e = .alphabetOverflow) ∧ t = s.loseSequence.raise e) ∨
    (∃ x k, i = .loadSym x ∧ x.toNat < 2 ^ s.cfg.symW ∧ s.seqLost = false ∧ s.total ≠ maxTotal s.cfg ∧ findEntry s.ft x = some k ∧
      t = s.loaded (s.ft.modify k Entry.bump)) ∨
    (∃ x, i = .loadSym x ∧ x.toNat < 2 ^ s.cfg.symW ∧ s.seqLost = false ∧ s.total ≠ maxTotal s.cfg ∧ findEntry s.ft x = none ∧
      s.ft.length ≠ s.cfg.maxSyms ∧ t = s.loaded (s.ft ++ [⟨x, 1⟩])) ∨
    (i = .buildSf ∧ s.seqLost = false ∧ t = (s.install .sf (sfCodes s.ft)).finishOk) ∨
    (i = .buildHuff ∧ s.seqLost = false ∧ t = (s.install .huff (huffCodes s.ft)).finishOk) ∨
    (∃ x k, i = .enc x ∧ x.toNat < 2 ^ s.cfg.symW ∧ s.ctag ≠ .none ∧ findEntry s.ft x = some k ∧
      t = s.finishWith ⟨x, s.cntAt k, s.codeAt k⟩) ∨
    (∃ b, i = .decBit b ∧ s.ctag ≠ .none ∧ s.ft.length ≠ 0 ∧ s.ddead = true ∧ t = s.finishOk) ∨
    (∃ b, i = .decBit b ∧ s.ctag ≠ .none ∧ s.ft.length ≠ 0 ∧ s.ddead = false ∧ t = s.feed (s.fed b)) ∨
    (i = .decEnd ∧ s.ctag ≠ .none ∧ s.dbuf ≠ [] ∧ t = s.emptyDecoder.raise .incompleteCode) ∨
    (i = .decEnd ∧ s.ctag ≠ .none ∧ s.dbuf = [] ∧ t = s.finishOk) ∨
    (∃ x, i = .query x ∧ x.toNat < s.ft.length ∧ s.ctag = .none ∧ t = s.finishWith (s.rowUncoded x.toNat)) ∨
    (∃ x, i = .query x ∧ x.toNat < s.ft.length ∧ s.ctag ≠ .none ∧ t = s.finishWith (s.row x.toNat)) := by
  cases i with
  | nop => simp [exec, execNop] at h; simp [h]
  | clear => simp [exec, execClear] at h; simp [h]
  | loadSym x =>
    simp only [exec, execLoadSym] at h
    split at h
    · next hr =>
      rw [symInRange_iff] at hr
      simp only [State.loadSym] at h
      split at h
      · left; exact ⟨.sequenceLost, by simp, by simp, by simp, by simp, by simp, by simpa using h.symm⟩
      · next hl =>
        have hl : s.seqLost = false := by simpa using hl
        split at h
        · right; right; right; left; exact ⟨x, .countOverflow, rfl, hl, by simp, by simpa using h.symm⟩
        · next ht =>
          split at h
          · next k hk => right; right; right; right; left; exact ⟨x, k, rfl, hr, hl, ht, hk, by simpa using h.symm⟩
          · next hk =>
            split at h
            · right; right; right; left; exact ⟨x, .alphabetOverflow, rfl, hl, by simp, by simpa using h.symm⟩
            · next hc => right; right; right; right; right; left; exact ⟨x, rfl, hr, hl, ht, hk, hc, by simpa using h.symm⟩
    · left; exact ⟨.illegalOperand, by simp, by simp, by simp, by simp, by simp, by simpa using h.symm⟩
  | buildSf =>
    simp only [exec, execBuildSf] at h
    split at h
    · left; exact ⟨.sequenceLost, by simp, by simp, by simp, by simp, by simp, by simpa using h.symm⟩
    · next hl => iterate 6 right
                 left; exact ⟨rfl, by simpa using hl, by simpa using h.symm⟩
  | buildHuff =>
    simp only [exec, execBuildHuff] at h
    split at h
    · left; exact ⟨.sequenceLost, by simp, by simp, by simp, by simp, by simp, by simpa using h.symm⟩
    · next hl => iterate 7 right
                 left; exact ⟨rfl, by simpa using hl, by simpa using h.symm⟩
  | enc x =>
    simp only [exec, execEnc] at h
    split at h
    · next hr =>
      rw [symInRange_iff] at hr
      simp only [State.encSym] at h
      split at h
      · left; exact ⟨.notBuilt, by simp, by simp, by simp, by simp, by simp, by simpa using h.symm⟩
      · next ht =>
        split at h
        · left; exact ⟨.unknownSymbol, by simp, by simp, by simp, by simp, by simp, by simpa using h.symm⟩
        · next k hk => iterate 8 right
                       left; exact ⟨x, k, rfl, hr, ht, hk, by simpa using h.symm⟩
    · left; exact ⟨.illegalOperand, by simp, by simp, by simp, by simp, by simp, by simpa using h.symm⟩
  | decBit b =>
    simp only [exec, execDecBit] at h
    split at h
    · left; exact ⟨.notBuilt, by simp, by simp, by simp, by simp, by simp, by simpa using h.symm⟩
    · next ht =>
      split at h
      · left; exact ⟨.emptyCodeTable, by simp, by simp, by simp, by simp, by simp, by simpa using h.symm⟩
      · next hf =>
        split at h
        · next hd => iterate 9 right
                     left; exact ⟨b, rfl, ht, hf, hd, by simpa using h.symm⟩
        · next hd => iterate 10 right
                     left; exact ⟨b, rfl, ht, hf, by simpa using hd, by simpa using h.symm⟩
  | decEnd =>
    simp only [exec, execDecEnd] at h
    split at h
    · left; exact ⟨.notBuilt, by simp, by simp, by simp, by simp, by simp, by simpa using h.symm⟩
    · next ht =>
      split at h
      · next hd => iterate 11 right
                   left; exact ⟨rfl, ht, hd, by simpa using h.symm⟩
      · next hd => iterate 12 right
                   left; exact ⟨rfl, ht, by simpa using hd, by simpa using h.symm⟩
  | query x =>
    simp only [exec, execQuery] at h
    split at h
    · left; exact ⟨.indexOutOfRange, by simp, by simp, by simp, by simp, by simp, by simpa using h.symm⟩
    · next hx =>
      split at h
      · next ht => iterate 13 right
                   left; exact ⟨x, rfl, by omega, ht, by simpa using h.symm⟩
      · next ht => iterate 14 right
                   exact ⟨x, rfl, by omega, ht, by simpa using h.symm⟩

/-- A read changes nothing of the unit. -/
theorem busRead_unitPart (s : State) (r : Reg) : (s.busRead r).unitPart = s.unitPart ∧ (s.busRead r).turns = s.turns := by
  unfold State.busRead
  split <;> (try split) <;> exact ⟨rfl, rfl⟩

/-- All an access can write: the host's word, the fault record, the draw counter, the latch and CMD_OVERRUN. -/
theorem access_eq (s : State) (a : Access) :
    s.access a = { s with
      turns := s.turns, busData := (s.access a).busData, hostFault := (s.access a).hostFault, draws := (s.access a).draws,
      pend := (s.access a).pend, overrun := (s.access a).overrun } := by
  unfold State.access
  split
  · split
    · unfold State.busRead
      split <;> (try split) <;> rfl
    · unfold State.busWrite
      split
      · unfold State.writeCmd
        split <;> rfl
      · unfold State.writeStatus
        split <;> rfl
      · rfl
  · unfold State.hostFaulted
    split <;> rfl

/-- The accesses of R73, written out. -/
theorem not_defined_iff (a : Access) (cfg : Config) :
    a.defined cfg = false ↔ a.outsideR73 cfg := by
  unfold Access.defined Access.inWindow Access.offset Access.outsideR73
  rw [Bool.eq_false_iff]
  by_cases h1 : a.bytes = 4 <;> by_cases h2 : a.lanes = 0xF#4 <;> simp [h1, h2]
  omega

/-- All a turn of the reset input can do: the reset alone, and before it the host fault of an access outside R73. -/
theorem resetDuring_cases (s : State) (d : Option Access) :
    ((∀ a, d = some a → a.defined s.cfg = true) ∧ s.resetDuring d = s.assertReset) ∨
      ∃ a, d = some a ∧ a.defined s.cfg = false ∧ s.resetDuring d = (s.hostFaulted a.kind).assertReset := by
  cases d with
  | none => exact .inl ⟨by simp, rfl⟩
  | some a =>
    unfold State.resetDuring
    by_cases h : a.defined s.cfg = true
    · exact .inl ⟨by simp [h], by simp [h]⟩
    · exact .inr ⟨a, rfl, by simpa using h, by simp [h]⟩

/-- An aligned word access within the window is defined, and its offset is what was added to PCU_BASE. -/
theorem word_defined {cfg : Config} {off : Nat} (k : AccessKind) (h4 : off % 4 = 0) (h : off < 256) :
    (Access.mk k (cfg.pcuBase + off) 4 0xF#4).defined cfg = true ∧
      (Access.mk k (cfg.pcuBase + off) 4 0xF#4).offset cfg = off := by
  have e : (Access.mk k (cfg.pcuBase + off) 4 0xF#4).offset cfg = off := by simp [Access.offset]
  refine ⟨?_, e⟩
  unfold Access.defined
  rw [e]
  simp [Access.inWindow, h4, h]

/-- An aligned word access within the window is the read or the write of its register. -/
theorem access_word (s : State) {off : Nat} (h4 : off % 4 = 0) (h : off < 256) :
    s.access ⟨.read, s.cfg.pcuBase + off, 4, 0xF#4⟩ = s.busRead (regAt off) ∧
      ∀ w, s.access ⟨.write w, s.cfg.pcuBase + off, 4, 0xF#4⟩ = s.busWrite (regAt off) w := by
  constructor
  · obtain ⟨d1, d2⟩ := word_defined (cfg := s.cfg) .read h4 h
    unfold State.access
    rw [if_pos d1]
    simp only
    rw [d2]
  · intro w
    obtain ⟨d1, d2⟩ := word_defined (cfg := s.cfg) (.write w) h4 h
    unfold State.access
    rw [if_pos d1]
    simp only
    rw [d2]

/-- A defined read of an idle unit returns the register's value (R66). -/
theorem busRead_idle (s : State) (r : Reg) (h : s.pend = none) : s.busRead r = { s with busData := s.regValue r } := by
  have : s.busy = false := by simp [State.busy, h]
  unfold State.busRead
  rw [this]
  cases r <;> rfl

end Sys2Proof.Machine
end

