-- ==== Sys2Proof/Laws/PerInstr.lean ====
section
/-! SUPPORT. Statements made of every command as syntax, one lemma per constructor. -/

namespace Sys2Proof.Laws.EncodeShape

/-- The word of a command has the command's opcode in bits 31:28 and 0 in every operand bit its form does not use (R100, R101,
R105). -/
def Statement (i : Instr) : Prop :=
  match i with
  | .nop => (encode i).toNat / 2 ^ 28 = 0 ∧ encode i &&& Form.reservedMask .n = 0#32
  | .clear => (encode i).toNat / 2 ^ 28 = 1 ∧ encode i &&& Form.reservedMask .n = 0#32
  | .loadSym _ => (encode i).toNat / 2 ^ 28 = 2 ∧ encode i &&& Form.reservedMask .s = 0#32
  | .buildSf => (encode i).toNat / 2 ^ 28 = 3 ∧ encode i &&& Form.reservedMask .n = 0#32
  | .buildHuff => (encode i).toNat / 2 ^ 28 = 4 ∧ encode i &&& Form.reservedMask .n = 0#32
  | .enc _ => (encode i).toNat / 2 ^ 28 = 5 ∧ encode i &&& Form.reservedMask .s = 0#32
  | .decBit _ => (encode i).toNat / 2 ^ 28 = 6 ∧ encode i &&& Form.reservedMask .b = 0#32
  | .decEnd => (encode i).toNat / 2 ^ 28 = 7 ∧ encode i &&& Form.reservedMask .n = 0#32
  | .query _ => (encode i).toNat / 2 ^ 28 = 8 ∧ encode i &&& Form.reservedMask .i = 0#32

theorem nop : Statement .nop := ⟨by decide, by decide⟩

theorem clear : Statement .clear := ⟨by decide, by decide⟩

theorem loadSym (sym : Symbol) : Statement (.loadSym sym) := by
  have h := sym.isLt
  refine ⟨?_, (reserved_s _).2 ?_⟩ <;> rw [encode_toNat] <;> dsimp only <;> omega

theorem buildSf : Statement .buildSf := ⟨by decide, by decide⟩

theorem buildHuff : Statement .buildHuff := ⟨by decide, by decide⟩

theorem enc (sym : Symbol) : Statement (.enc sym) := by
  have h := sym.isLt
  refine ⟨?_, (reserved_s _).2 ?_⟩ <;> rw [encode_toNat] <;> dsimp only <;> omega

theorem decBit (b : Digit) : Statement (.decBit b) := by cases b <;> exact ⟨by decide, by decide⟩

theorem decEnd : Statement .decEnd := ⟨by decide, by decide⟩

theorem query (idx : BitVec 16) : Statement (.query idx) := by
  have h := idx.isLt
  refine ⟨?_, (reserved_i _).2 ?_⟩ <;> rw [encode_toNat] <;> dsimp only <;> omega

end Sys2Proof.Laws.EncodeShape
end

