-- ==== Sys2Proof/Machine/Assembler.lean ====
section
/-! DEFINITION. The assembler of the host's test programs (spec/30_encoding.md rules R110, R111), on lists of characters, and
the running of its lines. -/

namespace Sys2Proof.Machine

/-- What an assembled line has the host do (R110, R111). -/
inductive HostOp where
  /-- Issue a command word and wait for its completion. -/
  | issue (w : Word)
  /-- `WAIT`. -/
  | wait
  /-- `W <offset>, <value>`. -/
  | write (off : Nat) (value : Word)
  /-- `R <offset>`. -/
  | read (off : Nat)
  deriving DecidableEq, Repr

/-- The tokens of a line. -/
inductive Token where
  | name (cs : List Char)
  | chr (c : Char)
  | str (cs : List Char)
  | comma
  deriving DecidableEq, Repr

/-- Where the scanner stands: outside a string, with the characters of an unfinished word, or inside one. Both lists are
kept last character first. -/
inductive ScanMode where
  | plain (word : List Char)
  | quoted (cs : List Char)
  deriving DecidableEq, Repr

/-- The token of an unfinished word, if there is one, before other tokens. -/
def flushWord (word : List Char) (rest : List Token) : List Token :=
  if word = [] then rest else .name word.reverse :: rest

/-- The tokens of a line: blanks separate words, `;` starts a comment, `'c'` is a character literal and `"s"` a string
(R110, R111). DESIGN CHOICE (log 11), where R110 and R111 say nothing: blanks and tabs separate, there are no escape characters,
`;` inside a string or a character literal is an ordinary character and starts no comment, a quote that opens no literal is
a character of a word, and an unclosed string is no line. -/
def scanLine : ScanMode → List Char → Option (List Token)
  | .plain w, [] => some (flushWord w [])
  | .quoted _, [] => none
  | .quoted cs, c :: rest =>
    if c = '"' then (scanLine (.plain []) rest).map (fun ts => .str cs.reverse :: ts) else scanLine (.quoted (c :: cs)) rest
  | .plain w, '\'' :: c :: '\'' :: rest => (scanLine (.plain []) rest).map (fun ts => flushWord w (.chr c :: ts))
  | .plain w, c :: rest =>
    if c = ';' then some (flushWord w [])
    else if c = '"' then (scanLine (.quoted []) rest).map (flushWord w)
    else if c = ',' then (scanLine (.plain []) rest).map (fun ts => flushWord w (.comma :: ts))
    else if c = ' ' || c = '\t' then (scanLine (.plain []) rest).map (flushWord w)
    else scanLine (.plain (c :: w)) rest

/-- The value of a digit in a base of at most 16, letters of either case (DESIGN CHOICE, log 11). -/
def digitValue (base : Nat) (c : Char) : Option Nat :=
  let n := c.toNat
  let v :=
    if 48 ≤ n ∧ n ≤ 57 then some (n - 48)
    else if 97 ≤ n ∧ n ≤ 102 then some (n - 87)
    else if 65 ≤ n ∧ n ≤ 70 then some (n - 55)
    else none
  v.filter (fun d => decide (d < base))

/-- The value of a string of digits after the value so far. -/
def numberFrom (base : Nat) : Nat → List Char → Option Nat
  | acc, [] => some acc
  | acc, c :: cs => (digitValue base c).bind (fun d => numberFrom base (base * acc + d) cs)

/-- A decimal integer or a hexadecimal integer 0x... (R110), leading zeros allowed (DESIGN CHOICE, log 11). -/
def parseNumber : List Char → Option Nat
  | [] => none
  | '0' :: 'x' :: c :: cs => numberFrom 16 0 (c :: cs)
  | c :: cs => numberFrom 10 0 (c :: cs)

/-- A number below 2^bits as a bit vector of that width. DESIGN CHOICE (log 11): R110 gives `<sym>` and `<idx>` as integers and does
not say what a line is whose number is too wide for its field; here it is no line of the syntax. A word with reserved bits
set is written with `W 0x0C, <value>`. -/
def numberOf (bits : Nat) (cs : List Char) : Option (BitVec bits) :=
  (parseNumber cs).bind (fun n => if n < 2 ^ bits then some (BitVec.ofNat bits n) else none)

/-- The code point of a character, which a symbol operand holds in its 21 bits (R110). -/
def charSymbol (c : Char) : Symbol := BitVec.ofNat 21 c.toNat

/-- `<sym>`: a number or a character literal (R110). -/
def parseSym : Token → Option Symbol
  | .chr c => some (charSymbol c)
  | .name cs => numberOf 21 cs
  | .str _ => none
  | .comma => none

/-- A string of the digits 0 and 1. -/
def parseDigits : List Char → Option Code
  | [] => some []
  | c :: cs =>
    if c = '0' then (parseDigits cs).map (false :: ·)
    else if c = '1' then (parseDigits cs).map (true :: ·)
    else none

/-- `sf` or `huff` (R111). -/
def parseAlg (cs : List Char) : Option Alg :=
  if cs = ['s', 'f'] then some .sf else if cs = ['h', 'u', 'f', 'f'] then some .huff else none

/-- The commands issued in order, each with its WAIT. -/
def issueOps (is : List Instr) : List HostOp := is.map (fun i => .issue (encode i))

/-- A line of one word: the commands of form N and `WAIT` (R110, R111). -/
def assembleBare (m : List Char) : Option (List HostOp) :=
  if m = ['N', 'O', 'P'] then some (issueOps [.nop])
  else if m = ['C', 'L', 'E', 'A', 'R'] then some (issueOps [.clear])
  else if m = ['B', 'U', 'I', 'L', 'D', '_', 'S', 'F'] then some (issueOps [.buildSf])
  else if m = ['B', 'U', 'I', 'L', 'D', '_', 'H', 'U', 'F', 'F'] then some (issueOps [.buildHuff])
  else if m = ['D', 'E', 'C', '_', 'E', 'N', 'D'] then some (issueOps [.decEnd])
  else if m = ['W', 'A', 'I', 'T'] then some [.wait]
  else none

/-- A line of a word and one operand: the commands of forms S, B and I, `R <offset>`, and the pseudo-commands over a string
(R110, R111). -/
def assembleUnary (m : List Char) (t : Token) : Option (List HostOp) :=
  if m = ['L', 'O', 'A', 'D', '_', 'S', 'Y', 'M'] then (parseSym t).map (fun x => issueOps [.loadSym x])
  else if m = ['E', 'N', 'C'] then (parseSym t).map (fun x => issueOps [.enc x])
  else
    match t with
    | .name cs =>
      if m = ['D', 'E', 'C', '_', 'B', 'I', 'T'] then
        if cs = ['0'] then some (issueOps [.decBit false])
        else if cs = ['1'] then some (issueOps [.decBit true])
        else none
      else if m = ['Q', 'U', 'E', 'R', 'Y'] then (numberOf 16 cs).map (fun x => issueOps [.query x])
      else if m = ['R'] then (parseNumber cs).map (fun off => [.read off])
      else none
    | .str cs =>
      if m = ['L', 'O', 'A', 'D', '_', 'S', 'T', 'R'] then some (issueOps (loadProgram (cs.map charSymbol)))
      else if m = ['E', 'N', 'C', '_', 'S', 'T', 'R'] then some (issueOps (cs.map (fun c => .enc (charSymbol c))))
      else if m = ['D', 'E', 'C', '_', 'B', 'I', 'T', 'S'] then
        (parseDigits cs).map (fun ds => issueOps (ds.map Instr.decBit ++ [.decEnd]))
      else none
    | .chr _ => none
    | .comma => none

/-- The host's operations of a tokenised line; `none` for a line that is not of the syntax, and no operation for an empty line
(R110, R111; DESIGN CHOICE, log 11). -/
def assembleTokens : List Token → Option (List HostOp)
  | [] => some []
  | [.name m] => assembleBare m
  | [.name m, t] => assembleUnary m t
  | [.name m, .name alg, .str cs] =>
    if m = ['B', 'U', 'I', 'L', 'D'] then (parseAlg alg).map (fun a => issueOps (buildProgram a (cs.map charSymbol))) else none
  | [.name m, .name off, .comma, .name v] =>
    if m = ['W'] then (parseNumber off).bind (fun o => (numberOf 32 v).map (fun x => [.write o x])) else none
  | _ => none

/-- The host's operations of a line. -/
def assembleLine (line : List Char) : Option (List HostOp) := (scanLine (.plain []) line).bind assembleTokens

/-- The turns of one operation (R110, R111): a command is its CMD write, the engine step its WAIT sees the end of, and the
STATUS read that shows BUSY = 0. The busy STATUS reads of the WAIT loop are left out (DEDUCED, log 12). DESIGN CHOICE (log 13),
where R60 and U7 leave the interleaving open: the engine has a turn only in `WAIT` and in an issued command, so that after
`W 0x0C, <value>` the unit stays busy until the next line of one of these. -/
def HostOp.turns (cfg : Config) : HostOp → List Turn
  | .issue w => [busWriteTurn cfg 0x0C w, .engine, busReadTurn cfg 0x10]
  | .wait => [.engine, busReadTurn cfg 0x10]
  | .write off v => [busWriteTurn cfg off v]
  | .read off => [busReadTurn cfg off]

/-- Runs a host program's operations in order. -/
def runHostOps (ops : List HostOp) (s : State) : Host.Outcome State Fault Refusal :=
  runTurns (ops.flatMap (HostOp.turns s.cfg)) s

end Sys2Proof.Machine
end

