-- ==== Sys2Proof/Tests/Slice0.lean ====
section
/-! SUPPORT. The model's own tests: ill-formed commands refused, words decoded, one step per test with the expected result of
spec/95_test_vectors.md, and a witness for the hypotheses of every statement that has some. -/

open Sys2Proof Sys2Proof.Machine

namespace Sys2Proof.Tests

/-! ### Small states -/

/-- An outcome that is a next state with a property. -/
def answers (o : Host.Outcome State Fault Refusal) (p : State → Bool) : Bool :=
  match o with
  | .next t => p t
  | .fault _ => false
  | .refused _ => false

theorem answers_next {o : Host.Outcome State Fault Refusal} {p : State → Bool} (h : answers o p = true) :
    ∃ t, o = .next t ∧ p t = true := by
  cases o with
  | next t => exact ⟨t, rfl, h⟩
  | fault r => cases r
  | refused r => simp [answers] at h

/-- SYM_W = 8. -/
def narrow : Config := { Config.reference with symW := 8 }

/-- MAX_SYMS = 2. -/
def twoSyms : Config := { Config.reference with maxSyms := 2 }

/-- CNT_W = 2: TOTAL is at most 3. -/
def smallCount : Config := { Config.reference with cntW := 2 }

/-- A state with a frequency table and no code table. -/
def loadedWith (cfg : Config) (ft : List Entry) : State := { State.resetOf cfg with ft := ft }

/-- A state with both tables. -/
def builtWith (tag : CodeTag) (ft : List Entry) (ct : List Code) : State :=
  { State.reset with ft := ft, ctag := tag, ct := ct }

/-- FT of "aaabbc". -/
def ftAbc : List Entry := [⟨0x61#21, 3⟩, ⟨0x62#21, 2⟩, ⟨0x63#21, 1⟩]

/-- "aaabbc" under BUILD_SF (F10). -/
def sfAbc : State := builtWith .sf ftAbc [[false], [true, false], [true, true]]

/-- "aaabbc" under BUILD_HUFF (H9). -/
def huffAbc : State := builtWith .huff ftAbc [[false], [true, true], [true, false]]

/-- "aaaa" under BUILD_HUFF (H2). -/
def huffOne : State := builtWith .huff [⟨0x61#21, 4⟩] [[false]]

/-- The same with a dead buffer (D9). -/
def deadOne : State := { huffOne with dbuf := [true], ddead := true }

/-- `huffAbc` with the digit 1 waiting. -/
def waitingAbc : State := { huffAbc with dbuf := [true] }

/-- The valid empty table (H1). -/
def huffEmpty : State := builtWith .huff [] []

/-- S11's state before the overflow: MAX_SYMS = 2, FT a1 b1. -/
def fullTable : State := loadedWith twoSyms [⟨0x61#21, 1⟩, ⟨0x62#21, 1⟩]

/-- S12's state: FT a1 b1 and SEQ_LOST. -/
def lostSequence : State := { fullTable with seqLost := true, err := .alphabetOverflow }

/-- S13's state: CNT_W = 2, TOTAL = 3. -/
def fullCount : State := loadedWith smallCount [⟨0x61#21, 2⟩, ⟨0x62#21, 1⟩]

/-- A word access at an offset. -/
def wordAccess (k : AccessKind) (off : Nat) : Access := { kind := k, addr := off, bytes := 4, lanes := 0xF#4 }

/-- The state with one access to come. -/
def withAccess (s : State) (a : Access) : State := { s with turns := [.host a] }

/-! ### Well-formedness: the one check, on both commands it concerns -/

theorem test_wf_loadSym_refused : (Instr.loadSym 0x100#21).wellFormed narrow = false := by decide

theorem test_wf_enc_refused : (Instr.enc 0x1FF#21).wellFormed narrow = false := by decide

theorem test_wf_boundary_accepted : (Instr.loadSym 0xFF#21).wellFormed narrow = true ∧ (Instr.enc 0xFF#21).wellFormed narrow = true := by
  decide

theorem test_wf_reference_accepts_all_ones : (Instr.loadSym 0x1FFFFF#21).wellFormed Config.reference = true := by decide

/-! ### Decoding: one word of every command, bit by bit from R100, R101, R103 -/

theorem test_decode_nop : decode Config.reference 0b0000_0000000000000000000000000000#32 = .instr .nop := by decide

theorem test_decode_clear : decode Config.reference 0b0001_0000000000000000000000000000#32 = .instr .clear := by decide

theorem test_decode_loadSym :
    decode Config.reference 0b0010_0000000_000000000000001100001#32 = .instr (.loadSym 0x61#21) := by decide

theorem test_decode_buildSf : decode Config.reference 0b0011_0000000000000000000000000000#32 = .instr .buildSf := by decide

theorem test_decode_buildHuff : decode Config.reference 0b0100_0000000000000000000000000000#32 = .instr .buildHuff := by decide

theorem test_decode_enc : decode Config.reference 0b0101_0000000_100000000000000000001#32 = .instr (.enc 0x100001#21) := by
  decide

theorem test_decode_decBit : decode Config.reference 0b0110_000000000000000000000000000_1#32 = .instr (.decBit true) := by decide

theorem test_decode_decEnd : decode Config.reference 0b0111_0000000000000000000000000000#32 = .instr .decEnd := by decide

theorem test_decode_query :
    decode Config.reference 0b1000_000000000000_1000000000000011#32 = .instr (.query 0x8003#16) := by decide

/-- X1, X2: reserved opcodes at both ends. -/
theorem test_decode_reserved_opcodes :
    decode Config.reference 0x90000000#32 = .illegalCommand ∧ decode Config.reference 0xF0000123#32 = .illegalCommand := by decide

/-- S5, S9, D15, Q5, X4: the reserved bit next to the operand of each form. -/
theorem test_decode_reserved_bits :
    decode Config.reference 0x00000001#32 = .illegalOperand ∧ decode Config.reference 0x20200061#32 = .illegalOperand ∧
      decode Config.reference 0x60000002#32 = .illegalOperand ∧ decode Config.reference 0x80010000#32 = .illegalOperand ∧
      decode Config.reference 0x30000001#32 = .illegalOperand := by decide

/-- S10: SYM_W = 8. -/
theorem test_decode_symbol_range :
    decode narrow 0x200000FF#32 = .instr (.loadSym 0xFF#21) ∧ decode narrow 0x20000100#32 = .illegalOperand := by decide

/-- R110's examples of words. -/
theorem test_encode_examples :
    encode (.loadSym 0x61#21) = 0x20000061#32 ∧ encode (.decBit true) = 0x60000001#32 ∧ encode (.query 3#16) = 0x80000003#32 := by
  decide

theorem test_decodeTableWord : decodeTableWord 32 0x50000068 = some (.enc 0x68#21) ∧ decodeTableWord 32 0x90000000 = none := by decide

/-! ### One step of each command -/

/-- Runs one word from a state, as the host's checks do. -/
def after (s : State) (w : Nat) (p : State → Bool) : Bool := answers (step (s.withFetchWord 32 w)) p

/-- P2 line 16: NOP after a result sets it to 0 (R135). -/
theorem test_nop : after { huffAbc with resCode := [true], resCount := 1, dbuf := [true] } 0x00000000
    (fun t => t.status = 0x0000000A#32 && decide (t.resCode = []) && decide (t.resCount = 0) && decide (t.dbuf = [true])) = true := by decide

/-- S14, S15: CLEAR clears SEQ_LOST and not CMD_OVERRUN. -/
theorem test_clear : after { lostSequence with overrun := true } 0x10000000
    (fun t => t.status = 0x00000080#32 && decide (t.nSyms = 0) && decide (t.total = 0)) = true := by decide

/-- S3: a symbol loaded after a build makes the table invalid. -/
theorem test_loadSym_new : after huffAbc 0x20000064
    (fun t => t.status = 0x00000000#32 && decide (t.nSyms = 4) && decide (t.total = 7) && decide (t.sumwl = 0)) = true := by decide

/-- S11: AlphabetOverflow. -/
theorem test_loadSym_overflow : after fullTable 0x20000063
    (fun t => t.status = 0x00000740#32 && decide (t.ft = fullTable.ft)) = true := by decide

/-- F10: "aaabbc", at k = 0. -/
theorem test_buildSf : after (loadedWith Config.reference ftAbc) 0x30000000
    (fun t => decide (t.ct = [[false], [true, false], [true, true]]) && t.status = 0x00000006#32 && decide (t.sumwl = 9)) = true := by
  decide

/-- F8: "aabbcc", the left side takes two. -/
theorem test_buildSf_half : sfCodes [⟨0x61#21, 2⟩, ⟨0x62#21, 2⟩, ⟨0x63#21, 2⟩] = [[false, false], [false, true], [true]] := by decide

/-- H9: "aaabbc". -/
theorem test_buildHuff : after (loadedWith Config.reference ftAbc) 0x40000000
    (fun t => decide (t.ct = [[false], [true, true], [true, false]]) && t.status = 0x0000000A#32 && decide (t.sumwl = 9)) = true := by
  decide

/-- H7: a seed node pops before a merged node of its weight. -/
theorem test_buildHuff_tie : huffCodes [⟨0x61#21, 1⟩, ⟨0x62#21, 1⟩, ⟨0x63#21, 2⟩] = [[true, false], [true, true], [false]] := by decide

/-- H9 and R172: the code of 'b' is "11". -/
theorem test_enc : after huffAbc 0x50000062
    (fun t => t.status = 0x0000000A#32 && decide (t.resSym = 0x62#21) && decide (t.resCount = 2) &&
      t.regValue .resultLen = 2#32 && t.regValue (.resultCode 0) = 3#32) = true := by decide

/-- E9: UnknownSymbol. -/
theorem test_enc_unknown : after huffAbc 0x5000007A (fun t => t.status = 0x0000010A#32 && decide (t.resCode = [])) = true := by decide

/-- D8: "aaaa", the digit 0 emits. -/
theorem test_decBit_emits : after huffOne 0x60000000
    (fun t => t.status = 0x0000001A#32 && decide (t.resSym = 0x61#21) && decide (t.resCount = 4) && decide (t.decBufLen = 0)) = true := by
  decide

/-- D9: "aaaa", the digit 1 makes the buffer dead. -/
theorem test_decBit_dead : after huffOne 0x60000001 (fun t => t.status = 0x0000002A#32 && decide (t.decBufLen = 1)) = true := by decide

/-- D11: DEC_END of a dead buffer. -/
theorem test_decEnd_incomplete : after deadOne 0x70000000 (fun t => t.status = 0x0000020A#32 && decide (t.decBufLen = 0)) = true := by decide

/-- D2: DEC_END without a table. -/
theorem test_decEnd_notBuilt : after State.reset 0x70000000 (fun t => t.status = 0x00000900#32) = true := by decide

/-- Q7: QUERY while SEQ_LOST. -/
theorem test_query_unbuilt : after lostSequence 0x80000001
    (fun t => t.status = 0x00000040#32 && decide (t.resSym = 0x62#21) && decide (t.resCount = 1) && decide (t.resCode = [])) = true := by
  decide

/-- Q3: IndexOutOfRange. -/
theorem test_query_range : after huffOne 0x80000001 (fun t => t.status = 0x00000B0A#32) = true := by decide

/-! ### The bus -/

/-- R231, R241: a misaligned CMD write in the same step as reset is a host fault, and issues nothing. -/
theorem test_reset_hostFault :
    (match runTurn (.reset (some (wordAccess (.write 0x10000000#32) 0x0E))) { waitingAbc with pend := some 0#32 } with
      | .next t => decide (t = { State.resetOf waitingAbc.cfg with hostFault := true })
      | _ => false) = true := by decide

/-- B1: the three constants. -/
theorem test_bus_constants :
    State.reset.regValue .id = 0x50435531#32 ∧ State.reset.regValue .param0 = 0x00002015#32 ∧
      State.reset.regValue .param1 = 0x00FF0100#32 := by decide

/-- B4: a CMD write while busy is dropped and recorded. -/
theorem test_bus_overrun :
    answers (step (withAccess { huffOne with pend := some 0x40000000#32 } (wordAccess (.write 0#32) 0x0C)))
      (fun t => t.overrun && decide (t.pend = some 0x40000000#32)) = true := by decide

/-- B5, B6: bit 7 of a STATUS write. -/
theorem test_bus_status_write :
    answers (step (withAccess { huffOne with overrun := true } (wordAccess (.write 0x80#32) 0x10))) (fun t => !t.overrun) = true ∧
      answers (step (withAccess { huffOne with overrun := true } (wordAccess (.write 0xFF7F#32) 0x10))) (fun t => t.overrun) = true := by
  decide

/-- B9: a byte write to CMD issues nothing and is a host fault. -/
theorem test_bus_byte_write :
    answers (step (withAccess huffOne { kind := .write 0x10000000#32, addr := 0x0C, bytes := 1, lanes := 0x1#4 }))
      (fun t => t.hostFault && decide (t.pend = none)) = true := by decide

/-- R41's example: "011" packs to 6. -/
theorem test_packing : packWord [false, true, true] 0 = 0x00000006#32 := by decide

/-- R111: the line of P2's build, its first and last commands, and a line that is not of the syntax. -/
theorem test_assembler :
    assembleLine ['L', 'O', 'A', 'D', '_', 'S', 'Y', 'M', ' ', '\'', 'a', '\''] = some [.issue 0x20000061#32] ∧
      assembleLine ['W', ' ', '0', 'x', '0', 'C', ',', ' ', '7'] = some [.write 12 7#32] ∧
      assembleLine ['B', 'U', 'I', 'L', 'D', ' ', 's', 'f', ' ', '"', 'a', 'b', '"', ' ', ';', 'x'] =
        some [.issue 0x10000000#32, .issue 0x20000061#32, .issue 0x20000062#32, .issue 0x30000000#32] ∧
      assembleLine ['D', 'E', 'C', '_', 'B', 'I', 'T', ' ', '2'] = none := by decide

/-- Log 11: `;` in a character literal is the character, and after a word it starts a comment. -/
theorem test_assembler_semicolon :
    assembleLine ['E', 'N', 'C', ' ', '\'', ';', '\''] = some [.issue 0x5000003B#32] ∧
      assembleLine ['N', 'O', 'P', ';', 'x'] = some [.issue 0x00000000#32] := by decide

/-- Log 11: the widest index is a line and the next number is none. -/
theorem test_assembler_width :
    assembleLine ['Q', 'U', 'E', 'R', 'Y', ' ', '0', 'x', 'F', 'f', 'F', 'F'] = some [.issue 0x8000FFFF#32] ∧
      assembleLine ['Q', 'U', 'E', 'R', 'Y', ' ', '6', '5', '5', '3', '6'] = none := by decide

/-! ### States that meet the invariant -/

theorem inv_reset : Inv State.reset :=
  ⟨by decide, ⟨by decide, by decide, by decide, by decide, by decide⟩,
    ⟨by decide, by decide, by decide, by decide, by decide, by decide, by decide⟩,
    ⟨by decide, by decide, by decide, by decide, by decide⟩, ⟨by decide, by decide, by decide, by decide, by decide, by decide⟩⟩

theorem inv_sfAbc : Inv sfAbc :=
  ⟨by decide, ⟨by decide, by decide, by decide, by decide, by decide⟩,
    ⟨by decide, by decide, by decide, by decide, by decide, by decide, by decide⟩,
    ⟨by decide, by decide, by decide, by decide, by decide⟩, ⟨by decide, by decide, by decide, by decide, by decide, by decide⟩⟩

theorem inv_huffAbc : Inv huffAbc :=
  ⟨by decide, ⟨by decide, by decide, by decide, by decide, by decide⟩,
    ⟨by decide, by decide, by decide, by decide, by decide, by decide, by decide⟩,
    ⟨by decide, by decide, by decide, by decide, by decide⟩, ⟨by decide, by decide, by decide, by decide, by decide, by decide⟩⟩

theorem inv_waitingAbc : Inv waitingAbc :=
  ⟨by decide, ⟨by decide, by decide, by decide, by decide, by decide⟩,
    ⟨by decide, by decide, by decide, by decide, by decide, by decide, by decide⟩,
    ⟨by decide, by decide, by decide, by decide, by decide⟩, ⟨by decide, by decide, by decide, by decide, by decide, by decide⟩⟩

theorem inv_huffOne : Inv huffOne :=
  ⟨by decide, ⟨by decide, by decide, by decide, by decide, by decide⟩,
    ⟨by decide, by decide, by decide, by decide, by decide, by decide, by decide⟩,
    ⟨by decide, by decide, by decide, by decide, by decide⟩, ⟨by decide, by decide, by decide, by decide, by decide, by decide⟩⟩

theorem inv_deadOne : Inv deadOne :=
  ⟨by decide, ⟨by decide, by decide, by decide, by decide, by decide⟩,
    ⟨by decide, by decide, by decide, by decide, by decide, by decide, by decide⟩,
    ⟨by decide, by decide, by decide, by decide, by decide⟩, ⟨by decide, by decide, by decide, by decide, by decide, by decide⟩⟩

theorem inv_huffEmpty : Inv huffEmpty :=
  ⟨by decide, ⟨by decide, by decide, by decide, by decide, by decide⟩,
    ⟨by decide, by decide, by decide, by decide, by decide, by decide, by decide⟩,
    ⟨by decide, by decide, by decide, by decide, by decide⟩, ⟨by decide, by decide, by decide, by decide, by decide, by decide⟩⟩

theorem inv_fullTable : Inv fullTable :=
  ⟨by decide, ⟨by decide, by decide, by decide, by decide, by decide⟩,
    ⟨by decide, by decide, by decide, by decide, by decide, by decide, by decide⟩,
    ⟨by decide, by decide, by decide, by decide, by decide⟩, ⟨by decide, by decide, by decide, by decide, by decide, by decide⟩⟩

/-- The invariant says nothing of the schedule, the latch, CMD_OVERRUN or the outside world. -/
theorem inv_outside {s : State} (h : Inv s) (ts : List Turn) (p : Option Word) : Inv { s with turns := ts, pend := p } := by
  obtain ⟨c, ⟨a1, a2, a3, a4, a5⟩, ⟨b1, b2, b3, b4, b5, b6, b7⟩, ⟨d1, d2, d3, d4, d5⟩, ⟨r1, r2, r3, r4, r5, r6⟩⟩ := h
  exact ⟨c, ⟨a1, a2, a3, a4, a5⟩, ⟨b1, b2, b3, b4, b5, b6, b7⟩, ⟨d1, d2, d3, d4, d5⟩, ⟨r1, r2, r3, r4, r5, r6⟩⟩

theorem inv_withAccess {s : State} (h : Inv s) (a : Access) : Inv (withAccess s a) := inv_outside h [.host a] s.pend

/-! ### Witnesses: hypotheses met together, one theorem per statement, one part per clause, at the ends of each range -/

/-- Both ends of a symbol's range in a narrow configuration, and of an index. -/
theorem wit_DecodeOfEncodeIsTheCommand :
    (Instr.loadSym 0#21).wellFormed narrow = true ∧ (Instr.enc 0xFF#21).wellFormed narrow = true ∧
      (Instr.query 0xFFFF#16).wellFormed narrow = true ∧ (Instr.nop).wellFormed narrow = true := by decide

/-- The ends of the symbol and index ranges. -/
theorem wit_EncodeOfDecodeIsTheWord :
    decode narrow 0x200000FF#32 = .instr (.loadSym 0xFF#21) ∧ decode narrow 0x8000FFFF#32 = .instr (.query 0xFFFF#16) := by decide

/-- A word of every row, the rows with a symbol at the range's last value. -/
theorem wit_OpcodeMapSelectsByMatchAndMask :
    0x00000000#32 &&& 0xFFFFFFFF#32 = 0x00000000#32 ∧ 0x10000000#32 &&& 0xFFFFFFFF#32 = 0x10000000#32 ∧
      (0x200000FF#32 &&& 0xFFE00000#32 = 0x20000000#32 ∧ (0x200000FF#32).toNat % 2 ^ 21 < 2 ^ narrow.symW) ∧
      0x30000000#32 &&& 0xFFFFFFFF#32 = 0x30000000#32 ∧ 0x40000000#32 &&& 0xFFFFFFFF#32 = 0x40000000#32 ∧
      (0x500000FF#32 &&& 0xFFE00000#32 = 0x50000000#32 ∧ (0x500000FF#32).toNat % 2 ^ 21 < 2 ^ narrow.symW) ∧
      0x60000001#32 &&& 0xFFFFFFFE#32 = 0x60000000#32 ∧ 0x70000000#32 &&& 0xFFFFFFFF#32 = 0x70000000#32 ∧
      0x8000FFFF#32 &&& 0xFFFF0000#32 = 0x80000000#32 := by decide

/-- The first and the last reserved opcode. -/
theorem wit_ReservedOpcodeCompletesAsIllegalCommand :
    ({ huffAbc with pend := some 0x90000000#32 } : State).turns = [] ∧ 9 ≤ (0x90000000#32).toNat / 2 ^ 28 ∧
      9 ≤ (0xFFFFFFFF#32).toNat / 2 ^ 28 := by decide

/-- Each alternative, at the lowest reserved bit, and the first symbol out of range. -/
theorem wit_BadOperandCompletesAsIllegalOperand :
    ((0x10000001#32).toNat / 2 ^ 28 ∈ [0, 1, 3, 4, 7] ∧ 0x10000001#32 &&& 0x0FFFFFFF#32 ≠ 0#32) ∧
      ((0x20200061#32).toNat / 2 ^ 28 ∈ [2, 5] ∧ 0x20200061#32 &&& 0x0FE00000#32 ≠ 0#32) ∧
      ((0x50000100#32).toNat / 2 ^ 28 ∈ [2, 5] ∧ 2 ^ narrow.symW ≤ (0x50000100#32).toNat % 2 ^ 21) ∧
      ((0x60000002#32).toNat / 2 ^ 28 = 6 ∧ 0x60000002#32 &&& 0x0FFFFFFE#32 ≠ 0#32) ∧
      ((0x80010000#32).toNat / 2 ^ 28 = 8 ∧ 0x80010000#32 &&& 0x0FFF0000#32 ≠ 0#32) ∧
      ({ State.resetOf narrow with pend := some 0x50000100#32 } : State).turns = [] := by decide

/-- By the engine's turn and with the schedule empty. -/
theorem wit_StepRunsTheDecodedCommand :
    decode huffAbc.cfg 0x50000061#32 = .instr (.enc 0x61#21) ∧
      ({ huffAbc with pend := some 0x50000061#32 } : State).turns = [] ∧
      ({ huffAbc with pend := some 0x50000061#32, turns := [.engine] } : State).turns = .engine :: [] := by decide

/-- The latch empty and full. -/
theorem wit_CmdWriteIsLatchedOrDropped :
    (withAccess huffAbc (wordAccess (.write 0x10000000#32) 0x0C)).turns =
        .host { kind := .write 0x10000000#32, addr := huffAbc.cfg.pcuBase + 0x0C, bytes := 4, lanes := 0xF#4 } :: [] ∧
      (withAccess huffAbc (wordAccess (.write 0x10000000#32) 0x0C)).pend = none ∧
      (withAccess { huffAbc with pend := some 0x40000000#32 } (wordAccess (.write 0x10000000#32) 0x0C)).pend =
        some 0x40000000#32 :=
  ⟨rfl, rfl, rfl⟩

/-- STATUS with bit 7 set and clear; the first and the last offset, and those beside CMD and STATUS. -/
theorem wit_WritesBesideCmdOnlyClearOverrun :
    (∀ off ∈ [0x10, 0x00, 0x08, 0x14, 0xFC], off % 4 = 0 ∧ off < 256 ∧ off ≠ 0x0C ∧
        (withAccess huffAbc (wordAccess (.write 0x80#32) off)).turns =
          .host { kind := .write 0x80#32, addr := huffAbc.cfg.pcuBase + off, bytes := 4, lanes := 0xF#4 } :: []) ∧
      (0x80#32).toNat / 2 ^ 7 % 2 = 1 ∧ (0xFF7F#32).toNat / 2 ^ 7 % 2 = 0 := by decide

/-- A defined read and an undefined one. -/
theorem wit_ReadsHaveNoSideEffects :
    ∀ a ∈ [wordAccess .read 0x10, wordAccess .read 0x102], a.kind = .read ∧ (withAccess huffAbc a).turns = .host a :: [] := by decide

/-- Every clause's offset, the ends of both reserved ranges. -/
theorem wit_IdleReadsOfIdentityAndStatus :
    Inv (withAccess huffAbc (wordAccess .read 0x10)) ∧
      ∀ off ∈ [0x00, 0x04, 0x08, 0x0C, 0x10, 0x34, 0x3C, 0x80, 0xFC],
        (withAccess huffAbc (wordAccess .read off)).pend = none ∧ off % 4 = 0 ∧ off < 256 ∧
          (withAccess huffAbc (wordAccess .read off)).turns =
            .host { kind := .read, addr := huffAbc.cfg.pcuBase + off, bytes := 4, lanes := 0xF#4 } :: [] :=
  ⟨inv_withAccess inv_huffAbc _, by decide⟩

/-- Every clause's offset. -/
theorem wit_IdleReadsOfResultsAndTotals :
    Inv (withAccess waitingAbc (wordAccess .read 0x14)) ∧
      ∀ off ∈ [0x14, 0x18, 0x1C, 0x20, 0x24, 0x28, 0x2C, 0x30],
        (withAccess waitingAbc (wordAccess .read off)).pend = none ∧ off % 4 = 0 ∧ off < 256 ∧
          (withAccess waitingAbc (wordAccess .read off)).turns =
            .host { kind := .read, addr := waitingAbc.cfg.pcuBase + off, bytes := 4, lanes := 0xF#4 } :: [] :=
  ⟨inv_withAccess inv_waitingAbc _, by decide⟩

/-- The first and the last word; a word past CODE_WORDS. -/
theorem wit_IdleReadOfResultCodeIsItsPacking :
    (∀ k ∈ [0, 15], k < 16 ∧ (withAccess huffAbc (wordAccess .read (0x40 + 4 * k))).pend = none ∧
        (withAccess huffAbc (wordAccess .read (0x40 + 4 * k))).turns =
          .host { kind := .read, addr := huffAbc.cfg.pcuBase + (0x40 + 4 * k), bytes := 4, lanes := 0xF#4 } :: []) ∧
      huffAbc.resCode.length ≤ huffAbc.cfg.maxCodeLen ∧ huffAbc.cfg.codeWords ≤ 8 := by decide

/-- With a table and without. -/
theorem wit_SumwlIsWeightedLengthBelowTwoPow41 :
    (Inv huffAbc ∧ huffAbc.ctag ≠ .none) ∧ (Inv fullTable ∧ fullTable.ctag = .none) :=
  ⟨⟨inv_huffAbc, by decide⟩, ⟨inv_fullTable, by decide⟩⟩

/-- Every clause's offset, the configuration legal. -/
theorem wit_BusyReadsGiveConstantsStatusOrFree :
    huffAbc.cfg.wf ∧ ∀ off ∈ [0x00, 0x04, 0x08, 0x10, 0x34, 0x3C, 0x80, 0xFC, 0x0C, 0x14, 0x30, 0x40, 0x7C],
      off % 4 = 0 ∧ off < 256 ∧
        (withAccess { huffAbc with pend := some 0#32 } (wordAccess .read off)).pend = some 0#32 ∧
        (withAccess { huffAbc with pend := some 0#32 } (wordAccess .read off)).turns =
          .host { kind := .read, addr := huffAbc.cfg.pcuBase + off, bytes := 4, lanes := 0xF#4 } :: [] := by decide

/-- A unit whose register space starts at 16. -/
def based : State := State.resetOf { Config.reference with pcuBase := 16 }

/-- Each alternative at the nearest value that meets it. -/
theorem wit_UndefinedAccessIsAHostFault :
    (wordAccess .read 12).addr < based.cfg.pcuBase ∧ based.cfg.pcuBase + 0xFC < (wordAccess .read 272).addr ∧
      ((wordAccess .read 17).addr - based.cfg.pcuBase) % 4 ≠ 0 ∧
      ({ wordAccess .read 16 with bytes := 2 } : Access).bytes ≠ 4 ∧
      ({ wordAccess .read 16 with lanes := 0x7#4 } : Access).lanes ≠ 0xF#4 ∧
      (withAccess based (wordAccess .read 12)).turns = .host (wordAccess .read 12) :: [] ∧
      (wordAccess .read 2).outsideR73 huffAbc.cfg ∧
      ({ huffAbc with turns := [.reset (some (wordAccess .read 2))] } : State).turns = .reset (some (wordAccess .read 2)) :: [] := by
  decide

/-- A fault recorded before, and one recorded by the step. -/
theorem wit_HostFaultIsStickyAndOnlyFromUndefinedAccess :
    (∃ t, step { huffAbc with hostFault := true, turns := [.reset none] } = .next t ∧ t.hostFault = true) ∧
      (∃ t, step (withAccess huffAbc (wordAccess .read 2)) = .next t ∧ t.hostFault = true) ∧
      ∃ t, step { huffAbc with turns := [.reset (some (wordAccess .read 2))] } = .next t ∧ t.hostFault = true :=
  ⟨answers_next (by decide), answers_next (by decide), answers_next (by decide)⟩

/-- Reset with a defined access in the same step, and with one outside R73; the first and the last offset. -/
theorem wit_ResetInputRestoresTheResetState :
    ({ deadOne with pend := some 0x40000000#32, turns := [.reset (some (wordAccess .read 0x10))] } : State).turns =
        .reset (some (wordAccess .read 0x10)) :: [] ∧
      ¬ (wordAccess .read 0x10).outsideR73 deadOne.cfg ∧ (wordAccess .read 0x12).outsideR73 deadOne.cfg ∧
      ∀ off ∈ [0x0C, 0xFC], off % 4 = 0 ∧ 0x0C ≤ off ∧ off < 256 := by decide

/-- The reference configuration and both ends of every parameter's range. -/
theorem wit_ResetStateMeetsTheInvariant :
    Config.reference.wf ∧ (Config.mk 1 1 1 0).wf ∧ (Config.mk 21 513 32 0x40000000).wf := by decide

/-- An engine step from a state in the middle of a decode. -/
theorem wit_EveryStepKeepsTheInvariant :
    Inv { waitingAbc with pend := some 0x60000001#32 } ∧
      ∃ t, step { waitingAbc with pend := some 0x60000001#32 } = .next t ∧ t.symValid = true :=
  ⟨inv_outside inv_waitingAbc [] (some 0x60000001#32), answers_next (by decide)⟩

/-- Both premises of the second clause. -/
theorem wit_EveryStepAnswersANextState :
    ({ huffAbc with pend := some 0#32 } : State).turns = [] ∧
      ({ huffAbc with pend := some 0#32, turns := [.engine] } : State).turns = .engine :: [] := by decide

/-- A STATUS write, an engine turn and two reads, one of CMD itself, from an idle unit. -/
theorem wit_IdleUnitKeepsItsStateUntilTheNextCommand :
    ({ huffAbc with overrun := true } : State).pend = none ∧
      ((wordAccess (.write 0x80#32) 0x10).addr ≠ huffAbc.cfg.pcuBase + 0x0C ∧ (wordAccess .read 0x0C).kind = .read) ∧
      answers (runTurns [.host (wordAccess (.write 0x80#32) 0x10), .engine, .host (wordAccess .read 0x0C), .host (wordAccess .read 0x10)]
        { huffAbc with overrun := true }) (fun t => !t.overrun && t.busData = 0x0000000A#32) = true :=
  ⟨by decide, ⟨by decide, by decide⟩, by decide⟩

/-- Two states that differ in a stale table, and a step of the first. -/
theorem wit_StaleCodeTableCannotBeObserved :
    StaleEq { fullTable with ct := [[true]], pend := some 0x80000001#32 } { fullTable with pend := some 0x80000001#32 } ∧
      ∃ t, step { fullTable with ct := [[true]], pend := some 0x80000001#32 } = .next t ∧ t.err = .ok := by
  refine ⟨⟨by decide, by decide⟩, ?_⟩
  obtain ⟨t, h, hp⟩ := answers_next (o := step { fullTable with ct := [[true]], pend := some 0x80000001#32 })
    (p := fun t => decide (t.err = .ok)) (by decide)
  exact ⟨t, h, by simpa using hp⟩

/-- A CLEAR that clears SEQ_LOST. -/
theorem wit_ClearStartsAnEmptySequence :
    ∃ t, exec .clear lostSequence = .next t ∧ decide (lostSequence.seqLost = true ∧ t.seqLost = false) = true :=
  answers_next (by decide)

/-- An entry in the middle, and a new symbol with the last place free. -/
theorem wit_LoadSymFollowsItsRule_counts :
    ((0x62#21).toNat < 2 ^ sfAbc.cfg.symW ∧ sfAbc.seqLost = false ∧ (sfAbc.ft.map Entry.cnt).sum ≠ 2 ^ sfAbc.cfg.cntW - 1 ∧
        sfAbc.ft = [⟨0x61#21, 3⟩] ++ ⟨0x62#21, 2⟩ :: [⟨0x63#21, 1⟩] ∧ 0x62#21 ∉ [(⟨0x61#21, 3⟩ : Entry)].map Entry.sym) ∧
      (0x62#21 ∉ (loadedWith twoSyms [⟨0x61#21, 1⟩]).ft.map Entry.sym ∧
        (loadedWith twoSyms [⟨0x61#21, 1⟩]).ft.length ≠ (loadedWith twoSyms [⟨0x61#21, 1⟩]).cfg.maxSyms) := by decide

/-- Each failure. -/
theorem wit_LoadSymFollowsItsRule_fails :
    2 ^ (State.resetOf narrow).cfg.symW ≤ (0x100#21).toNat ∧
      ((0x61#21).toNat < 2 ^ lostSequence.cfg.symW ∧ lostSequence.seqLost = true) ∧
      ((0x63#21).toNat < 2 ^ fullCount.cfg.symW ∧ fullCount.seqLost = false ∧
        (fullCount.ft.map Entry.cnt).sum = 2 ^ fullCount.cfg.cntW - 1) ∧
      ((0x63#21).toNat < 2 ^ fullTable.cfg.symW ∧ fullTable.seqLost = false ∧
        (fullTable.ft.map Entry.cnt).sum ≠ 2 ^ fullTable.cfg.cntW - 1 ∧ 0x63#21 ∉ fullTable.ft.map Entry.sym ∧
        fullTable.ft.length = fullTable.cfg.maxSyms) := by decide

/-- A LOAD_SYM of the entry in the middle. -/
theorem wit_EntriesKeepTheirPlaces :
    (∃ t, exec (.loadSym 0x62#21) sfAbc = .next t ∧ decide (t.ft[1]? = some ⟨0x62#21, 3⟩) = true) ∧
      Instr.loadSym 0x62#21 ≠ .clear ∧ sfAbc.ft[1]? = some ⟨0x62#21, 2⟩ :=
  ⟨answers_next (by decide), by decide, by decide⟩

/-- A property of every symbol of a list, by running through the list. -/
theorem all_symbols {l : List Symbol} {p : Symbol → Prop} [DecidablePred p] (h : l.all (fun x => decide (p x)) = true) :
    ∀ x ∈ l, p x := by simpa using h

/-- The sequence "aba". -/
def aba : List Symbol := [0x61#21, 0x62#21, 0x61#21]

/-- The sequence "abac". -/
def abac : List Symbol := [0x61#21, 0x62#21, 0x61#21, 0x63#21]

/-- The sequence of `ftAbc`. -/
def aaabbc : List Symbol := [0x61#21, 0x61#21, 0x61#21, 0x62#21, 0x62#21, 0x63#21]

/-- A sequence that reaches both limits exactly. -/
theorem wit_BuildProcedureGivesTheDocumentsTables :
    (State.resetOf { smallCount with maxSyms := 2 }).pend = none ∧
      (∀ x ∈ aba, x.toNat < 2 ^ ({ smallCount with maxSyms := 2 } : Config).symW) ∧
      aba.length ≤ 2 ^ ({ smallCount with maxSyms := 2 } : Config).cntW - 1 ∧ (firstOccurrences aba).length ≤ 2 ∧
      1 ≤ (buildProgram .sf aba).length :=
  ⟨rfl, all_symbols (by decide), by decide, by decide, by decide⟩

/-- One symbol too many of either kind. -/
theorem wit_OversizedSequenceIsLost :
    (State.resetOf smallCount).pend = none ∧ 2 ^ smallCount.cntW - 1 < abac.length ∧
      twoSyms.maxSyms < (firstOccurrences abac).length ∧ (∀ x ∈ abac, x.toNat < 2 ^ smallCount.symW) :=
  ⟨rfl, by decide, by decide, all_symbols (by decide)⟩

/-- The sequence intact and lost. -/
theorem wit_BuildSfInstallsTheShannonFanoTable : sfAbc.seqLost = false ∧ lostSequence.seqLost = true := by decide

/-- The sequence intact and lost. -/
theorem wit_BuildHuffInstallsTheHuffmanTable : huffAbc.seqLost = false ∧ lostSequence.seqLost = true := by decide

/-- A list whose split point is its last place, and one where it is the first. -/
theorem wit_SplitPointIsTheFirstHalf :
    splitPoint [⟨0, 1⟩] = 0 ∧ ([⟨0, 1⟩] : List Item) ≠ [] ∧ splitPoint [⟨0, 1⟩, ⟨1, 5⟩] = 1 ∧
      splitPoint [⟨0, 3⟩, ⟨1, 2⟩, ⟨2, 1⟩] = 0 := by decide

/-- The whole order, and its shortest slice. -/
theorem wit_SplitSidesAreNeverEmpty :
    (∀ e ∈ ftAbc, 1 ≤ e.cnt) ∧ sfOrder ftAbc <:+: sfOrder ftAbc ∧ (sfOrder ftAbc).drop 1 <:+: sfOrder ftAbc ∧
      2 ≤ ((sfOrder ftAbc).drop 1).length :=
  ⟨by decide, List.infix_rfl, List.IsSuffix.isInfix (List.drop_suffix 1 _), by decide⟩

/-- A slice of one element, and one of two. -/
theorem wit_ShannonFanoSplitFollowsItsRecursion :
    (∀ e ∈ ftAbc, 1 ≤ e.cnt) ∧ (sfOrder ftAbc).drop 2 = [⟨2, 1⟩] ∧ (sfOrder ftAbc).drop 2 <:+: sfOrder ftAbc ∧
      (sfOrder ftAbc).drop 1 <:+: sfOrder ftAbc ∧ 2 ≤ ((sfOrder ftAbc).drop 1).length ∧ ((sfOrder ftAbc).drop 1).length ≤ 2 :=
  ⟨by decide, by decide, List.IsSuffix.isInfix (List.drop_suffix 2 _), List.IsSuffix.isInfix (List.drop_suffix 1 _), by decide, by decide⟩

/-- Two entries, and one. -/
theorem wit_ShannonFanoTableIsComplete : 2 ≤ fullTable.ft.length ∧ huffOne.ft.length = 1 := by decide

/-- Two entries, and one. -/
theorem wit_HuffmanTableIsComplete : 2 ≤ fullTable.ft.length ∧ huffOne.ft.length = 1 := by decide

/-- The seed that pops first of two with one weight. -/
theorem wit_PopMinTakesTheLeastKey : popMin [⟨2, 3, []⟩, ⟨2, 1, []⟩, ⟨5, 0, []⟩] = some (⟨2, 1, []⟩, [⟨2, 3, []⟩, ⟨5, 0, []⟩]) := by
  decide

/-- A queue of two, with exactly that fuel. -/
theorem wit_HuffmanMergeFollowsItsLoop :
    (seedNodes [⟨0x61#21, 1⟩, ⟨0x62#21, 1⟩]).length ≤ 2 ∧ 2 ≤ (seedNodes [⟨0x61#21, 1⟩, ⟨0x62#21, 1⟩]).length := by decide

/-- The counts 3, 2, 1, the two builds, and the Shannon-Fano table as the other table. -/
theorem wit_HuffmanTableIsOptimal :
    1 ≤ sfAbc.ft.length ∧ (∃ t, exec .buildHuff sfAbc = .next t) ∧ (∃ u, exec .buildSf sfAbc = .next u) ∧ sfAbc.seqLost = false ∧
      sfAbc.ct.length = sfAbc.ft.length ∧ PrefixFree sfAbc.ct ∧ (∀ c ∈ sfAbc.ct, c ≠ []) :=
  ⟨by decide, exec_next _ _, exec_next _ _, by decide, by decide, by decide, by decide⟩

/-- The last entry. -/
theorem wit_EncFollowsItsRule_returns :
    (0x63#21).toNat < 2 ^ huffAbc.cfg.symW ∧ huffAbc.ctag ≠ .none ∧
      huffAbc.ft = [⟨0x61#21, 3⟩, ⟨0x62#21, 2⟩] ++ ⟨0x63#21, 1⟩ :: [] ∧
      0x63#21 ∉ [(⟨0x61#21, 3⟩ : Entry), ⟨0x62#21, 2⟩].map Entry.sym ∧ huffAbc.ct[2]? = some [true, false] := by decide

/-- Each failure. -/
theorem wit_EncFollowsItsRule_fails :
    2 ^ (State.resetOf narrow).cfg.symW ≤ (0x100#21).toNat ∧
      ((0x61#21).toNat < 2 ^ State.reset.cfg.symW ∧ State.reset.ctag = .none) ∧
      ((0x7A#21).toNat < 2 ^ huffAbc.cfg.symW ∧ huffAbc.ctag ≠ .none ∧ 0x7A#21 ∉ huffAbc.ft.map Entry.sym) := by decide

/-- The digit that ends a code of two. -/
theorem wit_DecBitFollowsItsRule_emits :
    Inv waitingAbc ∧ waitingAbc.ctag ≠ .none ∧ waitingAbc.ddead = false ∧ waitingAbc.ft[1]? = some ⟨0x62#21, 2⟩ ∧
      waitingAbc.ct[1]? = some (waitingAbc.dbuf ++ [true]) :=
  ⟨inv_waitingAbc, by decide, by decide, by decide, by decide⟩

/-- No table, the empty table, a digit that waits, one that kills, one on a dead buffer. -/
theorem wit_DecBitFollowsItsRule_others :
    (Inv State.reset ∧ State.reset.ctag = .none) ∧ (Inv huffEmpty ∧ huffEmpty.ctag ≠ .none ∧ huffEmpty.ft = []) ∧
      (Inv huffAbc ∧ huffAbc.ctag ≠ .none ∧ huffAbc.ft ≠ [] ∧ huffAbc.ddead = false ∧
        huffAbc.dbuf ++ [true] ∉ huffAbc.ct ∧ ∃ c ∈ huffAbc.ct, huffAbc.dbuf ++ [true] <+: c) ∧
      (Inv huffOne ∧ huffOne.ctag ≠ .none ∧ huffOne.ft ≠ [] ∧ huffOne.ddead = false ∧
        ∀ c ∈ huffOne.ct, ¬huffOne.dbuf ++ [true] <+: c) ∧
      (Inv deadOne ∧ deadOne.ctag ≠ .none ∧ deadOne.ft ≠ [] ∧ deadOne.ddead = true) :=
  ⟨⟨inv_reset, by decide⟩, ⟨inv_huffEmpty, by decide⟩, ⟨inv_huffAbc, by decide⟩, ⟨inv_huffOne, by decide⟩, ⟨inv_deadOne, by decide⟩⟩

/-- No table, digits waiting, none waiting. -/
theorem wit_DecEndReportsTheBuffer :
    State.reset.ctag = .none ∧ (waitingAbc.ctag ≠ .none ∧ waitingAbc.dbuf ≠ []) ∧ (huffAbc.ctag ≠ .none ∧ huffAbc.dbuf = []) := by
  decide

/-- The dead buffer of D9. -/
theorem wit_DeadBufferOnlyWithOneSymbol : Inv deadOne ∧ deadOne.ddead = true := ⟨inv_deadOne, by decide⟩

/-- The last index with and without a table, and the first past the end. -/
theorem wit_QueryReturnsTheRow :
    (huffAbc.ft[(2#16).toNat]? = some ⟨0x63#21, 1⟩ ∧ huffAbc.ctag ≠ .none ∧ huffAbc.ct[(2#16).toNat]? = some [true, false]) ∧
      (fullTable.ft[(1#16).toNat]? = some ⟨0x62#21, 1⟩ ∧ fullTable.ctag = .none) ∧ huffAbc.ft.length ≤ (3#16).toNat := by decide

/-- An error that changes nothing, an overflow, and IncompleteCode. -/
theorem wit_ErrorsArePrecise :
    (∃ t, execDecoded (.instr (.enc 0x7A#21)) huffAbc = .next t ∧ decide (t.err = .unknownSymbol) = true) ∧
      (∃ t, execDecoded .illegalCommand huffAbc = .next t ∧ decide (t.err = .illegalCommand) = true) ∧
      (∃ t, execDecoded (.instr (.loadSym 0x63#21)) fullTable = .next t ∧ decide (t.err = .alphabetOverflow) = true) ∧
      (∃ t, execDecoded (.instr .decEnd) waitingAbc = .next t ∧ decide (t.err = .incompleteCode) = true) :=
  ⟨answers_next (by decide), answers_next (by decide), answers_next (by decide), answers_next (by decide)⟩

/-- One word for every code that can be produced, in the order of the codes; the symbol out of range as syntax beside its word. -/
theorem wit_OutcomeCodesAreRaisedByTheirCommands :
    (∃ t, execDecoded (.instr .nop) huffAbc = .next t ∧ decide (t.err = .ok) = true) ∧
      (∃ t, execDecoded (.instr (.enc 0x7A#21)) huffAbc = .next t ∧ decide (t.err = .unknownSymbol) = true) ∧
      (∃ t, execDecoded (.instr .decEnd) waitingAbc = .next t ∧ decide (t.err = .incompleteCode) = true) ∧
      (∃ t, execDecoded (.instr (.decBit true)) huffEmpty = .next t ∧ decide (t.err = .emptyCodeTable) = true) ∧
      (∃ t, execDecoded .illegalCommand huffAbc = .next t ∧ decide (t.err = .illegalCommand) = true) ∧
      (∃ t, execDecoded .illegalOperand huffAbc = .next t ∧ decide (t.err = .illegalOperand) = true) ∧
      (∃ t, execDecoded (.instr (.enc 0x100#21)) (State.resetOf narrow) = .next t ∧ decide (t.err = .illegalOperand) = true) ∧
      (∃ t, execDecoded (.instr (.loadSym 0x63#21)) fullTable = .next t ∧ decide (t.err = .alphabetOverflow) = true) ∧
      (∃ t, execDecoded (.instr (.loadSym 0x63#21)) fullCount = .next t ∧ decide (t.err = .countOverflow) = true) ∧
      (∃ t, execDecoded (.instr (.decBit true)) fullTable = .next t ∧ decide (t.err = .notBuilt) = true) ∧
      (∃ t, execDecoded (.instr .buildSf) lostSequence = .next t ∧ decide (t.err = .sequenceLost) = true) ∧
      (∃ t, execDecoded (.instr (.query 3#16)) huffAbc = .next t ∧ decide (t.err = .indexOutOfRange) = true) :=
  ⟨answers_next (by decide), answers_next (by decide), answers_next (by decide), answers_next (by decide),
    answers_next (by decide), answers_next (by decide), answers_next (by decide), answers_next (by decide),
    answers_next (by decide), answers_next (by decide), answers_next (by decide), answers_next (by decide)⟩

/-- Each kind of write. -/
theorem wit_OnlyTheirCommandsWriteTheTables :
    (∃ t, exec .clear huffAbc = .next t ∧ decide (t.ft ≠ huffAbc.ft ∧ t.ctag ≠ huffAbc.ctag) = true) ∧
      (∃ t, exec .buildSf huffAbc = .next t ∧ decide (t.ct ≠ huffAbc.ct ∧ t.ctag ≠ huffAbc.ctag) = true) ∧
      (∃ t, exec .clear lostSequence = .next t ∧ decide (lostSequence.seqLost = true ∧ t.seqLost = false) = true) ∧
      (∃ t, exec (.loadSym 0x63#21) fullTable = .next t ∧ decide (fullTable.seqLost = false ∧ t.seqLost = true) = true) :=
  ⟨answers_next (by decide), answers_next (by decide), answers_next (by decide), answers_next (by decide)⟩

/-- A command of each group. -/
theorem wit_CommandFrames :
    (∃ t, exec (.decBit true) waitingAbc = .next t) ∧ (∃ t, exec (.query 0#16) waitingAbc = .next t) ∧
      (∃ t, exec .buildSf waitingAbc = .next t) ∧ (∃ t, exec .clear waitingAbc = .next t) :=
  ⟨exec_next _ _, exec_next _ _, exec_next _ _, exec_next _ _⟩

/-- A DEC_BIT that emits, and a QUERY whose result registers are not 0. -/
theorem wit_CompletionWritesTheResultRegisters :
    (∃ t, exec (.decBit true) waitingAbc = .next t ∧ decide (t.symValid = true ∧ t.resSym ≠ 0#21) = true) ∧
      (waitingAbc.ctag ≠ .none ∧ waitingAbc.ft ≠ [] ∧ waitingAbc.ddead = false ∧ waitingAbc.dbuf ++ [true] ∈ waitingAbc.codes) ∧
      (∃ t, exec (.query 2#16) fullTable = .next t ∧ decide (t.resCount = 0) = true) ∧
      (∃ t, exec (.query 1#16) fullTable = .next t ∧ decide (t.resCount ≠ 0) = true) :=
  ⟨answers_next (by decide), by decide, answers_next (by decide), answers_next (by decide)⟩

/-- A valid table, its own sequence, and a symbol without an entry. -/
theorem wit_EncodeConcatenatesTheCodes :
    Inv huffAbc ∧ huffAbc.ctag ≠ .none ∧ huffAbc.pend = none ∧ huffAbc.dbuf = [] ∧
      (∀ x ∈ aaabbc, x ∈ huffAbc.ft.map Entry.sym) ∧ frequencyTable aaabbc = huffAbc.ft ∧
      0x7A#21 ∉ huffAbc.ft.map Entry.sym ∧ (0x7A#21).toNat < 2 ^ huffAbc.cfg.symW :=
  ⟨inv_huffAbc, by decide, by decide, by decide, all_symbols (by decide), by decide, by decide, by decide⟩

/-- A table with entries, digits whose scan ends empty and digits whose scan does not; the empty table, with digits and
without. -/
theorem wit_DecodeAgreesWithTheBufferScan :
    (Inv huffAbc ∧ huffAbc.ctag ≠ .none ∧ huffAbc.pend = none ∧ huffAbc.dbuf = [] ∧ huffAbc.ft ≠ []) ∧
      bufferScan huffAbc.table [] [false, true, true] = ([0x61#21, 0x62#21], []) ∧
      bufferScan huffAbc.table [] [false, true] = ([0x61#21], [true]) ∧
      (Inv huffEmpty ∧ huffEmpty.ctag ≠ .none ∧ huffEmpty.pend = none ∧ huffEmpty.dbuf = [] ∧ huffEmpty.ft = []) :=
  ⟨⟨inv_huffAbc, by decide, by decide, by decide, by decide⟩, rfl, rfl,
    ⟨inv_huffEmpty, by decide, by decide, by decide, by decide⟩⟩

/-- The hypotheses on the table alone. -/
theorem wit_DecodeOfEncodeIsTheSequence :
    Inv sfAbc ∧ sfAbc.ctag ≠ .none ∧ sfAbc.pend = none ∧ sfAbc.dbuf = [] ∧ (∀ x ∈ aaabbc, x ∈ sfAbc.ft.map Entry.sym) :=
  ⟨inv_sfAbc, by decide, by decide, by decide, all_symbols (by decide)⟩

/-- A table of three rows, and the table without rows. -/
theorem wit_AnalyticsRowsAreTheTable :
    (Inv sfAbc ∧ sfAbc.ctag ≠ .none ∧ sfAbc.pend = none) ∧ (Inv huffEmpty ∧ huffEmpty.ctag ≠ .none ∧ huffEmpty.pend = none) :=
  ⟨⟨inv_sfAbc, by decide⟩, ⟨inv_huffEmpty, by decide⟩⟩

/-- With a table and without. -/
theorem wit_ProbabilitiesAndAverageAreExact :
    (Inv sfAbc ∧ 0 < sfAbc.total ∧ sfAbc.ctag ≠ .none) ∧ (Inv fullTable ∧ 0 < fullTable.total) :=
  ⟨⟨inv_sfAbc, by decide, by decide⟩, ⟨inv_fullTable, by decide⟩⟩

/-- A table of three symbols, one symbol, two of one count, none. -/
theorem wit_EntropyIsAtMostTheAverageLength :
    (Inv huffAbc ∧ huffAbc.ctag ≠ .none ∧ 0 < huffAbc.total) ∧ (Inv huffOne ∧ huffOne.ctag ≠ .none ∧ huffOne.ft.length = 1) ∧
      (Inv fullTable ∧ fullTable.ft = [⟨0x61#21, 1⟩, ⟨0x62#21, 1⟩]) ∧ (Inv State.reset ∧ State.reset.ft = []) ∧
      (huffAbc.seqLost = false ∧ (∃ t, exec .buildHuff huffAbc = .next t) ∧ ∃ u, exec .buildSf huffAbc = .next u) :=
  ⟨⟨inv_huffAbc, by decide, by decide⟩, ⟨inv_huffOne, by decide, by decide⟩, ⟨inv_fullTable, by decide⟩,
    ⟨inv_reset, by decide⟩, by decide, exec_next _ _, exec_next _ _⟩

end Sys2Proof.Tests
end

namespace Sys2Proof.Machine

/-! ### Reads of an idle unit -/

/-- A scheduled host access is performed on the state with the rest of the schedule. -/
theorem step_of_hostTurn {s : State} {a : Access} {ts : List Turn} (h : s.turns = .host a :: ts) :
    step s = .next ({ s with turns := ts }.access a) := by
  simp [step, advance, h, runTurn]

/-- The schedule is the outside world's: no register shows it. -/
theorem regValue_withTurns (s : State) (ts : List Turn) (r : Reg) :
    State.regValue { s with turns := ts } r = s.regValue r := by
  cases r <;> rfl

/-- An aligned word read of an idle unit returns the register's value and changes nothing else but the schedule (R66, R77). -/
theorem step_of_idleRead {s : State} {off : Nat} {ts : List Turn} (hp : s.pend = none) (h4 : off % 4 = 0) (hoff : off < 256)
    (ht : s.turns = .host { kind := .read, addr := s.cfg.pcuBase + off, bytes := 4, lanes := 0xF#4 } :: ts) :
    step s = .next { s with turns := ts, busData := s.regValue (regAt off) } := by
  rw [step_of_hostTurn ht, (access_word { s with turns := ts } h4 hoff).1,
    busRead_idle { s with turns := ts } _ hp, regValue_withTurns]

/-! ### RESULT_CODE -/

/-- The register map at the offsets of RESULT_CODE (R31). -/
theorem regAt_resultCode : ∀ k : Fin 16, regAt (0x40 + 4 * k.val) = .resultCode k := by decide

/-- A packed word past the end of the code is 0 (R41). -/
theorem packWord_eq_zero {c : Code} {k : Nat} (h : c.length ≤ 32 * k) : packWord c k = 0#32 := by
  simp [packWord, List.drop_eq_nil_of_le h, digitsToNat]

/-- CODE_WORDS words hold the longest code (R7). -/
theorem maxCodeLen_le_codeWords (c : Config) : c.maxCodeLen ≤ 32 * c.codeWords := by
  unfold Config.codeWords
  omega

/-- Settles O13: the read returns the packed word, whose bits and whose end are facts about the packing alone. -/
theorem idleReadOfResultCodeIsItsPacking : Obligations.IdleReadOfResultCodeIsItsPacking := by
  intro s k ts hp hk ht
  have hv : s.regValue (regAt (0x40 + 4 * k)) = packWord s.resCode k := by
    rw [regAt_resultCode ⟨k, hk⟩]
    rfl
  refine ⟨packWord s.resCode k, ?_, fun j hj => ?_, fun hlen hw => packWord_eq_zero ?_⟩
  · rw [step_of_idleRead hp (by omega) (by omega) ht, hv]
  · rw [packWord_bit _ _ _ hj]
    split
    · rfl
    · next hpast => exact List.getD_eq_default _ _ (by omega)
  · have := maxCodeLen_le_codeWords s.cfg
    omega

/-! ### SUMWL -/

/-- SUMWL's sum over the two tables is the sum over the entry indices; past the end of CT a code has length 0 (R39). -/
theorem weightedLength_eq_sum (ft : List Entry) (ct : List Code) :
    weightedLength ft ct =
      ((List.range ft.length).map (fun i => (ft.getD i ⟨0#21, 0⟩).cnt * (ct.getD i []).length)).sum := by
  induction ft generalizing ct with
  | nil => simp [weightedLength]
  | cons e ft ih =>
    cases ct with
    | nil => simp [weightedLength]
    | cons c ct => simp [weightedLength, ih, List.range_succ_eq_map, List.map_map, Function.comp_def]

/-- A legal configuration has codes of at most 512 digits (R7). -/
theorem maxCodeLen_le_512 {c : Config} (h : c.wf) : c.maxCodeLen ≤ 512 := by
  obtain ⟨-, ⟨-, hsyms⟩, -⟩ := h
  unfold Config.maxCodeLen
  omega

/-- A legal configuration has TOTAL below 2^32 (R6, R42). -/
theorem total_lt_two_pow_32 {s : State} (h : Inv s) : s.total < 2 ^ 32 := by
  obtain ⟨-, -, -, hcntW⟩ := h.cfgWf
  have hw : 2 ^ s.cfg.cntW ≤ 2 ^ 32 := Nat.pow_le_pow_right (by omega) hcntW
  have ht := h.ftInv.totalBound
  unfold maxTotal at ht
  omega

/-- Counts of less than 2^32 in all, codes of at most 2^9 digits: SUMWL is below 2^41 (R39). -/
theorem sumwl_lt_two_pow_41 {s : State} (h : Inv s) : s.sumwl < 2 ^ 41 := by
  unfold State.sumwl
  split
  · next hv =>
    have hlen : ∀ c ∈ s.ct, c.length ≤ 512 := fun c hc =>
      (h.tableInv.codeLengths (by simpa [State.tableValid] using hv) c hc).2.trans (maxCodeLen_le_512 h.cfgWf)
    have hsum : weightedLength s.ft s.ct ≤ s.total * 512 := weightedLength_le s.ft s.ct 512 hlen
    have ht := total_lt_two_pow_32 h
    omega
  · omega

/-- Settles O14: the two words are exact because SUMWL is below 2^41. -/
theorem sumwlIsWeightedLengthBelowTwoPow41 : Obligations.SumwlIsWeightedLengthBelowTwoPow41 := by
  intro s h
  have hlt := sumwl_lt_two_pow_41 h
  have hlo : (s.regValue .sumwlLo).toNat = s.sumwl % 2 ^ 32 := BitVec.toNat_ofNat _ _
  have hhi : (s.regValue .sumwlHi).toNat = s.sumwl / 2 ^ 32 :=
    (BitVec.toNat_ofNat _ _).trans (Nat.mod_eq_of_lt (by omega))
  refine ⟨?_, hlt, hlo, hhi, by omega, rfl⟩
  unfold State.sumwl
  rw [weightedLength_eq_sum]
  by_cases hn : s.ctag = .none <;> simp [State.tableValid, hn]

/-! ### The writers of the tables -/

/-- `t` has the frequency table, the code table, its tag and SEQ_LOST of `s` (R51). -/
structure TablesKept (s t : State) : Prop where
  ft : t.ft = s.ft
  ct : t.ct = s.ct
  ctag : t.ctag = s.ctag
  seqLost : t.seqLost = s.seqLost

/-- A completion alone, whatever its outcome and result, keeps the tables (R64). -/
theorem finish_tablesKept (s : State) (e : ErrCode) (r : Option Result) (b : Bool) : TablesKept s (s.finish e r b) :=
  ⟨rfl, rfl, rfl, rfl⟩

/-- DEC_BIT's scan keeps the tables (R51, R180). -/
theorem feed_tablesKept (s : State) (nb : Code) : TablesKept s (s.feed nb) := by
  obtain ⟨_, -, h⟩ | ⟨-, -, h⟩ | ⟨-, -, h⟩ := feed_cases s nb <;> rw [h] <;> exact ⟨rfl, rfl, rfl, rfl⟩

/-- An error of DEC_END that empties the decoder keeps the tables (R51, R182). -/
theorem emptyDecoder_tablesKept (s : State) (e : ErrCode) : TablesKept s (s.emptyDecoder.raise e) :=
  ⟨rfl, rfl, rfl, rfl⟩

/-- What a command does to the tables: it keeps them, or it is CLEAR, a LOAD_SYM that overflows or counts, or a build (R51). -/
theorem exec_tables {i : Instr} {s t : State} (h : exec i s = .next t) :
    TablesKept s t ∨
    (i = .clear ∧ t = s.clearSequence.finishOk) ∨
    (∃ x e, i = .loadSym x ∧ (e = .countOverflow ∨ e = .alphabetOverflow) ∧ t = s.loseSequence.raise e) ∨
    (∃ x l, i = .loadSym x ∧ t = s.loaded l) ∨
    (i = .buildSf ∧ t = (s.install .sf (sfCodes s.ft)).finishOk) ∨
    (i = .buildHuff ∧ t = (s.install .huff (huffCodes s.ft)).finishOk) := by
  obtain ⟨e, -, -, -, -, -, rfl⟩ | ⟨-, rfl⟩ | hclear | ⟨x, e, hi, -, he, ht⟩ | ⟨x, k, hi, -, -, -, -, ht⟩ |
    ⟨x, hi, -, -, -, -, -, ht⟩ | ⟨hi, -, ht⟩ | ⟨hi, -, ht⟩ | ⟨x, k, -, -, -, -, rfl⟩ | ⟨b, -, -, -, -, rfl⟩ |
    ⟨b, -, -, -, -, rfl⟩ | ⟨-, -, -, rfl⟩ | ⟨-, -, -, rfl⟩ | ⟨x, -, -, -, rfl⟩ | ⟨x, -, -, -, rfl⟩ := exec_cases i s t h
  · exact .inl (finish_tablesKept s e none false)
  · exact .inl (finish_tablesKept s .ok none false)
  · exact .inr (.inl hclear)
  · exact .inr (.inr (.inl ⟨x, e, hi, he, ht⟩))
  · exact .inr (.inr (.inr (.inl ⟨x, _, hi, ht⟩)))
  · exact .inr (.inr (.inr (.inl ⟨x, _, hi, ht⟩)))
  · exact .inr (.inr (.inr (.inr (.inl ⟨hi, ht⟩))))
  · exact .inr (.inr (.inr (.inr (.inr ⟨hi, ht⟩))))
  · exact .inl (finish_tablesKept s .ok _ false)
  · exact .inl (finish_tablesKept s .ok none false)
  · exact .inl (feed_tablesKept s _)
  · exact .inl (emptyDecoder_tablesKept s .incompleteCode)
  · exact .inl (finish_tablesKept s .ok none false)
  · exact .inl (finish_tablesKept s .ok _ false)
  · exact .inl (finish_tablesKept s .ok _ false)

/-- Settles O52: each write is one of the five ways a command can do anything to the tables. -/
theorem onlyTheirCommandsWriteTheTables : Obligations.OnlyTheirCommandsWriteTheTables := by
  intro i s t h
  obtain ⟨hft, hct, htag, hlost⟩ | ⟨rfl, rfl⟩ | ⟨x, e, rfl, he, rfl⟩ | ⟨x, l, rfl, rfl⟩ | ⟨rfl, rfl⟩ | ⟨rfl, rfl⟩ :=
    exec_tables h
  · simp +contextual [hft, hct, htag, hlost]
  · simp
  · simp [he]
  · simp [State.loaded]
  · simp
  · simp

end Sys2Proof.Machine

namespace Sys2Proof.Machine

/-! ### Writes over the bus -/

/-- No word offset but 0x0C and 0x10 is CMD's or STATUS's (R31). -/
theorem regAt_ne_cmd_status {off : Nat} (h4 : off % 4 = 0) (hoff : off < 256) (hcmd : off ≠ 0x0C) (hstatus : off ≠ 0x10) :
    regAt off ≠ .cmd ∧ regAt off ≠ .status := by
  have hmap : ∀ n : Fin 64, n.val ≠ 3 → n.val ≠ 4 → regAtIndex n ≠ .cmd ∧ regAtIndex n ≠ .status := by decide
  exact hmap ⟨off / 4, by omega⟩ (show off / 4 ≠ 3 by omega) (show off / 4 ≠ 4 by omega)

/-- An aligned word write in the schedule is the write of its register (R72). -/
theorem step_of_wordWrite {s : State} {off : Nat} {w : Word} {ts : List Turn} (h4 : off % 4 = 0) (hoff : off < 256)
    (ht : s.turns = .host { kind := .write w, addr := s.cfg.pcuBase + off, bytes := 4, lanes := 0xF#4 } :: ts) :
    step s = .next (State.busWrite { s with turns := ts } (regAt off) w) := by
  rw [step_of_hostTurn ht, (access_word { s with turns := ts } h4 hoff).2]

/-- The latch takes a CMD write when it is empty (R61). -/
theorem writeCmd_idle (s : State) (w : Word) (hp : s.pend = none) : s.writeCmd w = { s with pend := some w } := by
  simp [State.writeCmd, hp]

/-- A full latch drops a CMD write and records the overrun (R63). -/
theorem writeCmd_busy (s : State) (w : Word) {v : Word} (hp : s.pend = some v) :
    s.writeCmd w = { s with overrun := true } := by
  simp [State.writeCmd, hp]

/-- A STATUS write with bit 7 = 1 clears CMD_OVERRUN (R78). -/
theorem writeStatus_clear (s : State) {w : Word} (hw : w.getLsbD 7 = true) :
    s.writeStatus w = { s with overrun := false } := if_pos hw

/-- A STATUS write with bit 7 = 0 changes nothing (R78). -/
theorem writeStatus_keep (s : State) {w : Word} (hw : w.getLsbD 7 = false) : s.writeStatus w = s :=
  if_neg (Bool.eq_false_iff.1 hw)

/-- Only CMD and STATUS take a write (R72). -/
theorem busWrite_ignored (s : State) {r : Reg} (w : Word) (hcmd : r ≠ .cmd) (hstatus : r ≠ .status) :
    s.busWrite r w = s := by
  unfold State.busWrite
  split
  · exact absurd rfl hcmd
  · exact absurd rfl hstatus
  · rfl

/-- STATUS bit 0 is BUSY: every other field of the word stands above it (R35). -/
theorem status_bit0 (s : State) : s.status.getLsbD 0 = s.busy := by
  have hparity : (s.busy.toNat + s.tableValid.toNat * 2 ^ 1 + s.ctag.alg.toNat * 2 ^ 2 + s.symValid.toNat * 2 ^ 4 +
      s.ddead.toNat * 2 ^ 5 + s.seqLost.toNat * 2 ^ 6 + s.overrun.toNat * 2 ^ 7 + s.err.toByte.toNat * 2 ^ 8) % 2 =
      s.busy.toNat % 2 := by omega
  rw [State.status, BitVec.getLsbD_ofNat, Nat.testBit_zero, hparity]
  cases s.busy <;> rfl

/-- Settles O9: the offset picks the register; STATUS looks at bit 7 alone, and no register but CMD and STATUS takes a
write. -/
theorem writesBesideCmdOnlyClearOverrun : Obligations.WritesBesideCmdOnlyClearOverrun := by
  intro s w off ts h4 hoff hcmd ht
  rw [step_of_wordWrite h4 hoff ht]
  have hbit : w.getLsbD 7 = decide (w.toNat / 2 ^ 7 % 2 = 1) := Nat.testBit_eq_decide_div_mod_eq
  refine ⟨?_, ?_, fun hstatus => ?_⟩
  · rintro rfl hw
    exact congrArg _ (writeStatus_clear _ (hbit.trans (decide_eq_true hw)))
  · rintro rfl hw
    exact congrArg _ (writeStatus_keep _ (hbit.trans (decide_eq_false (by omega))))
  · obtain ⟨hcmdReg, hstatusReg⟩ := regAt_ne_cmd_status h4 hoff hcmd hstatus
    rw [busWrite_ignored _ w hcmdReg hstatusReg]

/-- Settles O8: offset 0x0C is CMD, whose write looks at the latch alone. -/
theorem cmdWriteIsLatchedOrDropped : Obligations.CmdWriteIsLatchedOrDropped := by
  intro s w ts ht
  have hstep : step s = .next (State.writeCmd { s with turns := ts } w) :=
    step_of_wordWrite (off := 0x0C) (by decide) (by decide) ht
  rw [hstep]
  refine ⟨fun hp => ?_, fun v hp => congrArg _ (writeCmd_busy _ w hp)⟩
  have hlatch := writeCmd_idle { s with turns := ts } w hp
  exact ⟨_, rfl, hlatch, by rw [hlatch, status_bit0]; rfl⟩

/-! ### Reads over the bus -/

/-- A read, a host-faulted one included, changes nothing of the unit (R74, R77). -/
theorem access_read_unitPart (s : State) {a : Access} (hk : a.kind = .read) :
    (s.access a).unitPart = s.unitPart ∧ (s.access a).turns = s.turns := by
  unfold State.access
  rw [hk]
  split
  · exact busRead_unitPart s _
  · exact ⟨rfl, rfl⟩

/-- Settles O10: the turn is the access, and the schedule it takes the turn from is no part of the unit. -/
theorem readsHaveNoSideEffects : Obligations.ReadsHaveNoSideEffects := by
  intro s a ts hk ht
  obtain ⟨hunit, hturns⟩ := access_read_unitPart { s with turns := ts } hk
  exact ⟨_, step_of_hostTurn ht, hunit, hturns⟩

end Sys2Proof.Machine

namespace Sys2Proof

/-! ### The opcode map -/

/-- The width of a form's operand field, which stands at bit 0 (R101). -/
def Form.operandBits : Form → Nat
  | .n => 0
  | .s => 21
  | .b => 1
  | .i => 16

/-- The reserved operand bits of a form are those between its operand and the opcode (R101, R105). -/
theorem reservedMask_and_eq_zero (f : Form) (w : Word) :
    w &&& f.reservedMask = 0#32 ↔ w.toNat % 2 ^ 28 / 2 ^ f.operandBits = 0 := by
  cases f with
  | n => rw [Form.operandBits, pow_zero, Nat.div_one]; exact reserved_n w
  | s => exact reserved_s w
  | b => exact reserved_b w
  | i => exact reserved_i w

/-- A word equal to an opcode in all its bits from `k` up has that opcode and no bit between `k` and the opcode. -/
theorem fields_of_and_eq {w : Word} {c : BitVec 4} {k : Nat} (hk : k ≤ 28)
    (h : w &&& BitVec.ofNat 32 (2 ^ 32 - 2 ^ k) = BitVec.ofNat 32 (c.toNat * 2 ^ 28)) :
    w.toNat / 2 ^ 28 = c.toNat ∧ w.toNat % 2 ^ 28 / 2 ^ k = 0 := by
  have hsplit : 2 ^ k * 2 ^ (28 - k) = 2 ^ 28 := by rw [← Nat.pow_add, Nat.add_sub_cancel' hk]
  have hmatch : c.toNat * 2 ^ 28 = c.toNat * 2 ^ (28 - k) * 2 ^ k := by rw [Nat.mul_assoc, Nat.mul_comm (2 ^ _), hsplit]
  have hfit : c.toNat * 2 ^ (28 - k) < 2 ^ (32 - k) := by
    rw [show 32 - k = 4 + (28 - k) by omega, Nat.pow_add]
    exact Nat.mul_lt_mul_of_pos_right c.isLt (Nat.two_pow_pos _)
  have hdiv : w.toNat / 2 ^ k = c.toNat * 2 ^ (28 - k) := div_of_and_eq w k (by omega) _ hfit (by rw [h, hmatch])
  constructor
  · rw [← hsplit, ← Nat.div_div_eq_div_mul, hdiv, Nat.mul_div_cancel _ (Nat.two_pow_pos _)]
  · rw [← hsplit, Nat.mod_mul_right_div_self, hdiv, Nat.mul_mod_left]

/-- A row of the opcode map: its mask is every bit above the operand, its match the opcode, and a word it selects is that
command, subject to the symbol range (R103, R106). -/
theorem decode_of_row {cfg : Config} {w : Word} (op : Op)
    (h : w &&& BitVec.ofNat 32 (2 ^ 32 - 2 ^ op.form.operandBits) = BitVec.ofNat 32 (op.code.toNat * 2 ^ 28))
    (hs : op.form = .s → w.toNat % 2 ^ 21 < 2 ^ cfg.symW) : decode cfg w = .instr (op.assemble w) := by
  have hbits : op.form.operandBits ≤ 28 := by cases op <;> decide
  obtain ⟨hopc, hreserved⟩ := fields_of_and_eq hbits h
  exact decode_of_fields cfg w op hopc ((reservedMask_and_eq_zero _ w).2 hreserved) hs

theorem symField_eq_ofNat (w : Word) : symField w = BitVec.ofNat 21 (w.toNat % 2 ^ 21) :=
  BitVec.eq_of_toNat_eq (by simp [symField_toNat])

theorem idxField_eq_ofNat (w : Word) : idxField w = BitVec.ofNat 16 (w.toNat % 2 ^ 16) :=
  BitVec.eq_of_toNat_eq (by simp [idxField_toNat])

/-- Settles O4: every row is `decode_of_row` for its command, and the reserved opcodes are the illegal-command class. -/
theorem opcodeMapSelectsByMatchAndMask : Obligations.OpcodeMapSelectsByMatchAndMask := by
  intro cfg w
  rw [← symField_eq_ofNat, ← idxField_eq_ofNat, ← bitField_eq]
  refine ⟨fun h => ?_, fun h => ?_, fun h hs => ?_, fun h => ?_, fun h => ?_, fun h hs => ?_, fun h => ?_, fun h => ?_,
    fun h => ?_, (decode_illegalCommand_iff cfg w).2⟩
  · exact decode_of_row .nop h nofun
  · exact decode_of_row .clear h nofun
  · exact decode_of_row .loadSym h fun _ => hs
  · exact decode_of_row .buildSf h nofun
  · exact decode_of_row .buildHuff h nofun
  · exact decode_of_row .enc h fun _ => hs
  · exact decode_of_row .decBit h nofun
  · exact decode_of_row .decEnd h nofun
  · exact decode_of_row .query h nofun

/-- A word whose opcode is a command's is an illegal operand when a reserved bit of its form is set (R105) or its symbol is
out of range (R106). -/
theorem decode_illegalOperand {cfg : Config} {w : Word} {op : Op} (hc : w.toNat / 2 ^ 28 = op.code.toNat)
    (hbad : w &&& op.form.reservedMask ≠ 0#32 ∨ op.form = .s ∧ 2 ^ cfg.symW ≤ w.toNat % 2 ^ 21) :
    decode cfg w = .illegalOperand := by
  have hopc : opcField w = op.code := BitVec.eq_of_toNat_eq (by rw [opcField_toNat, hc])
  unfold decode
  rw [hopc, ofCode_code, symField_toNat]
  rcases hbad with hmask | hsym
  · exact if_pos hmask
  · exact (if_congr Iff.rfl rfl (if_pos hsym)).trans (ite_self _)

/-- The opcodes of form N (R103). -/
theorem exists_op_of_formN {n : Nat} (h : n ∈ [0, 1, 3, 4, 7]) : ∃ op : Op, n = op.code.toNat ∧ op.form = .n := by
  simp only [List.mem_cons, List.not_mem_nil, or_false] at h
  rcases h with rfl | rfl | rfl | rfl | rfl
  exacts [⟨.nop, rfl, rfl⟩, ⟨.clear, rfl, rfl⟩, ⟨.buildSf, rfl, rfl⟩, ⟨.buildHuff, rfl, rfl⟩, ⟨.decEnd, rfl, rfl⟩]

/-- The opcodes of form S (R103). -/
theorem exists_op_of_formS {n : Nat} (h : n ∈ [2, 5]) : ∃ op : Op, n = op.code.toNat ∧ op.form = .s := by
  simp only [List.mem_cons, List.not_mem_nil, or_false] at h
  rcases h with rfl | rfl
  exacts [⟨.loadSym, rfl, rfl⟩, ⟨.enc, rfl, rfl⟩]

end Sys2Proof

namespace Sys2Proof.Machine

/-! ### The engine's step -/

/-- The engine executes the pending word's decoding and empties the latch (R62). -/
theorem engineStep_of_pend {s : State} {w : Word} (hp : s.pend = some w) :
    engineStep s = retireOutcome (execDecoded (decode s.cfg w) s) := by
  simp [engineStep, hp]

/-- With the schedule empty the step is the engine's (R60). -/
theorem step_of_emptySchedule {s : State} (ht : s.turns = []) : step s = engineStep s := by
  simp [step, advance, ht]

/-- A scheduled engine turn is performed on the state with the rest of the schedule (R60). -/
theorem step_of_engineTurn {s : State} {ts : List Turn} (ht : s.turns = .engine :: ts) :
    step s = engineStep { s with turns := ts } := by
  simp [step, advance, ht, runTurn]

/-- A raise and the emptying of the latch change the completion's fields and nothing else (R62, R222). -/
theorem retireOutcome_raise (s : State) (e : ErrCode) :
    retireOutcome (.next (s.raise e)) =
      .next { s with pend := none, err := e, symValid := false, resSym := 0#21, resCount := 0, resCode := [] } := by
  rw [State.raise_eq]
  rfl

/-- A pending word of an illegal class completes with its error and changes nothing but the completion's fields, when the
engine's turn comes or the schedule is empty (R104, R105, R222). -/
theorem step_of_illegalWord {s : State} {w : Word} {e : ErrCode} (hp : s.pend = some w)
    (hd : ∀ t, execDecoded (decode s.cfg w) t = .next (t.raise e)) :
    (s.turns = [] →
      step s = .next { s with pend := none, err := e, symValid := false, resSym := 0#21, resCount := 0, resCode := [] }) ∧
    (∀ ts, s.turns = .engine :: ts →
      step s = .next { s with turns := ts, pend := none, err := e, symValid := false,
                              resSym := 0#21, resCount := 0, resCode := [] }) := by
  refine ⟨fun ht => ?_, fun ts ht => ?_⟩
  · rw [step_of_emptySchedule ht, engineStep_of_pend hp, hd, retireOutcome_raise]
  · rw [step_of_engineTurn ht, engineStep_of_pend (s := { s with turns := ts }) hp, hd, retireOutcome_raise]

/-- Settles O5: the reserved opcodes are the illegal-command class, whose execution is the raise alone. -/
theorem reservedOpcodeCompletesAsIllegalCommand : Obligations.ReservedOpcodeCompletesAsIllegalCommand := by
  refine ⟨rfl, fun s w hp hopc => step_of_illegalWord hp fun t => ?_⟩
  rw [(decode_illegalCommand_iff s.cfg w).2 hopc]
  rfl

/-- Settles O6: each alternative names a command's opcode and what is wrong with its operand. -/
theorem badOperandCompletesAsIllegalOperand : Obligations.BadOperandCompletesAsIllegalOperand := by
  refine ⟨rfl, fun s w hp hbad => step_of_illegalWord hp fun t => ?_⟩
  have hd : decode s.cfg w = .illegalOperand := by
    rcases hbad with ⟨hc, hmask⟩ | ⟨hc, hmaskOrSym⟩ | ⟨hc, hmask⟩ | ⟨hc, hmask⟩
    · obtain ⟨op, hop, hform⟩ := exists_op_of_formN hc
      exact decode_illegalOperand hop (.inl (hform ▸ hmask))
    · obtain ⟨op, hop, hform⟩ := exists_op_of_formS hc
      exact decode_illegalOperand hop (hmaskOrSym.imp (fun hmask => hform ▸ hmask) (fun hsym => ⟨hform, hsym⟩))
    · exact decode_illegalOperand (op := .decBit) hc (.inl hmask)
    · exact decode_illegalOperand (op := .query) hc (.inl hmask)
  rw [hd]
  rfl

end Sys2Proof.Machine

namespace Sys2Proof

/-! ### The words of NOP, CLEAR and LOAD_SYM -/

/-- The row of the opcode map a command belongs to (R103). -/
def Instr.op : Instr → Op
  | .nop => .nop
  | .clear => .clear
  | .loadSym _ => .loadSym
  | .buildSf => .buildSf
  | .buildHuff => .buildHuff
  | .enc _ => .enc
  | .decBit _ => .decBit
  | .decEnd => .decEnd
  | .query _ => .query

/-- The command assembled for a row belongs to that row. -/
@[simp] theorem op_assemble (op : Op) (w : Word) : (op.assemble w).op = op := by cases op <;> rfl

/-- A command of form N has one word, its opcode above an operand of 0: every operand bit is reserved (R101, R105). -/
theorem decode_formN_iff {op : Op} (hform : op.form = .n) (cfg : Config) (w : Word) :
    decode cfg w = .instr (op.assemble w) ↔ w = commandWord op 0 := by
  have hfields : w = commandWord op 0 ↔ w.toNat / 2 ^ 28 = op.code.toNat ∧ w.toNat % 2 ^ 28 = 0 := by
    have hword : (commandWord op 0).toNat = op.code.toNat * 2 ^ 28 := by
      have hcode := code_lt_nine op
      rw [commandWord, BitVec.toNat_ofNat]
      omega
    rw [← BitVec.toNat_inj, hword]
    omega
  have hmask : w &&& op.form.reservedMask = 0#32 ↔ w.toNat % 2 ^ 28 = 0 := by
    rw [hform]
    exact reserved_n w
  rw [hfields, ← hmask]
  constructor
  · intro h
    obtain ⟨op', hopc, hreserved, -, hinstr⟩ := fields_of_decode h
    have hop : op = op' := by simpa using congrArg Instr.op hinstr
    exact hop ▸ ⟨hopc, hreserved⟩
  · rintro ⟨hopc, hreserved⟩
    exact decode_of_fields cfg w op hopc hreserved (by simp [hform])

/-- An operand that stays below the opcode is joined to it by an OR (R101, R110). -/
theorem commandWord_eq_or (op : Op) {operand : Nat} (h : operand < 2 ^ 28) :
    commandWord op operand = BitVec.ofNat 32 (op.code.toNat * 2 ^ 28) ||| BitVec.ofNat 32 operand := by
  rw [commandWord, Nat.mul_comm, Nat.two_pow_add_eq_or_of_lt h, BitVec.ofNat_or]

end Sys2Proof

namespace Sys2Proof.Machine

/-! ### NOP and CLEAR -/

theorem exec_nop (s : State) : exec .nop s = .next s.finishOk := rfl

theorem exec_clear (s : State) : exec .clear s = .next s.clearSequence.finishOk := rfl

/-- Settles O26: form N with opcode 0, and a completion alone. -/
theorem nopOnlyCompletes : Obligations.NopOnlyCompletes :=
  ⟨decode_formN_iff (op := .nop) rfl, fun s => by rw [exec_nop, State.finishOk_eq]⟩

/-- CLEAR in the reset state changes nothing (R130). -/
theorem clear_resetOf (cfg : Config) : (State.resetOf cfg).clearSequence.finishOk = State.resetOf cfg := rfl

/-- Only CLEAR clears SEQ_LOST: a completion keeps it, an overflow sets it, and a count or a build leaves it (R130). -/
theorem eq_clear_of_seqLost_cleared {i : Instr} {s t : State} (h : exec i s = .next t) (hs : s.seqLost = true)
    (ht : t.seqLost = false) : i = .clear := by
  have hcleared : t.seqLost ≠ s.seqLost := by simp [hs, ht]
  obtain hkept | ⟨hclear, -⟩ | ⟨x, e, -, -, rfl⟩ | ⟨x, l, -, rfl⟩ | ⟨-, rfl⟩ | ⟨-, rfl⟩ := exec_tables h
  · exact absurd hkept.seqLost hcleared
  · exact hclear
  · simp at ht
  · simp [State.loaded] at hcleared
  · simp at hcleared
  · simp at hcleared

/-- Settles O27: CLEAR's next state is written out, and of the writers of SEQ_LOST only CLEAR clears it. -/
theorem clearStartsAnEmptySequence : Obligations.ClearStartsAnEmptySequence := by
  refine ⟨decode_formN_iff (op := .clear) rfl, fun s => ?_, fun cfg => ?_, fun i s t => eq_clear_of_seqLost_cleared⟩
  · exact ⟨_, exec_clear s, by rw [State.finishOk_eq, State.clearSequence_eq], rfl, rfl, rfl, rfl⟩
  · rw [exec_clear, clear_resetOf]

/-! ### LOAD_SYM -/

/-- LOAD_SYM checks the range of its symbol before anything else (R106). -/
theorem exec_loadSym_outOfRange {s : State} {x : Symbol} (h : 2 ^ s.cfg.symW ≤ x.toNat) :
    exec (.loadSym x) s = .next (s.raise .illegalOperand) :=
  if_neg (by rw [symInRange_iff]; omega)

theorem exec_loadSym_inRange {s : State} {x : Symbol} (h : x.toNat < 2 ^ s.cfg.symW) :
    exec (.loadSym x) s = .next (s.loadSym x) :=
  if_pos ((symInRange_iff _ _).2 h)

theorem loadSym_sequenceLost {s : State} (x : Symbol) (hlost : s.seqLost = true) :
    s.loadSym x = s.raise .sequenceLost := if_pos hlost

/-- CountOverflow is checked first, whether or not the symbol is new (R132). -/
theorem loadSym_countOverflow {s : State} (x : Symbol) (hlost : s.seqLost = false) (htotal : s.total = maxTotal s.cfg) :
    s.loadSym x = s.loseSequence.raise .countOverflow := by
  simp [State.loadSym, hlost, htotal]

/-- An entry's symbol is counted where the entry stands (R132). -/
theorem loadSym_counted {s : State} {x : Symbol} {before after : List Entry} {n : Nat} (hlost : s.seqLost = false)
    (htotal : s.total ≠ maxTotal s.cfg) (hft : s.ft = before ++ ⟨x, n⟩ :: after) (hfirst : x ∉ before.map Entry.sym) :
    s.loadSym x = s.loaded (before ++ ⟨x, n + 1⟩ :: after) := by
  have hfound : findEntry s.ft x = some before.length := hft ▸ findEntry_split hfirst
  rw [← modify_bump, ← hft]
  simp [State.loadSym, hlost, htotal, hfound]

/-- A new symbol finds no place in a full table (R132). -/
theorem loadSym_alphabetOverflow {s : State} {x : Symbol} (hlost : s.seqLost = false)
    (htotal : s.total ≠ maxTotal s.cfg) (hnew : x ∉ s.ft.map Entry.sym) (hfull : s.ft.length = s.cfg.maxSyms) :
    s.loadSym x = s.loseSequence.raise .alphabetOverflow := by
  simp [State.loadSym, hlost, htotal, findEntry_none.2 hnew, hfull]

/-- A new symbol takes the next place (R132). -/
theorem loadSym_appended {s : State} {x : Symbol} (hlost : s.seqLost = false)
    (htotal : s.total ≠ maxTotal s.cfg) (hnew : x ∉ s.ft.map Entry.sym) (hroom : s.ft.length ≠ s.cfg.maxSyms) :
    s.loadSym x = s.loaded (s.ft ++ [⟨x, 1⟩]) := by
  simp [State.loadSym, hlost, htotal, findEntry_none.2 hnew, hroom]

/-- The whole next state of a LOAD_SYM that counts its symbol (R132, R134). -/
theorem loaded_eq (s : State) (l : List Entry) :
    s.loaded l = { s with ft := l, ctag := .none, dbuf := [], ddead := false, err := .ok, symValid := false,
                          resSym := 0#21, resCount := 0, resCode := [] } := by
  rw [State.loaded, State.finishOk_eq, State.invalidate_eq, State.setFt_eq]

/-- The whole next state of a LOAD_SYM that overflows (R132). -/
theorem loseSequence_raise_eq (s : State) (e : ErrCode) :
    s.loseSequence.raise e = { s with seqLost := true, ctag := .none, dbuf := [], ddead := false, err := e, symValid := false,
                                      resSym := 0#21, resCount := 0, resCode := [] } := by
  rw [State.raise_eq, State.loseSequence_eq]

/-- The word of a LOAD_SYM: its opcode with the symbol in bits 20:0 (R101, R103). -/
theorem encode_loadSym (x : Symbol) : encode (.loadSym x) = 0x20000000#32 ||| x.setWidth 32 := by
  have hx := x.isLt
  rw [encode, commandWord_eq_or .loadSym (by omega), BitVec.ofNat_toNat]
  rfl

/-- Settles O28: one lemma per branch of the rule, then the branch's state written out. -/
theorem loadSymFollowsItsRule : Obligations.LoadSymFollowsItsRule := by
  refine ⟨encode_loadSym, fun s x => ⟨fun hout => ?_, fun hin hlost => ?_, fun hin hlost htotal => ?_,
    fun hin hlost htotal => ⟨fun before after n hft hfirst => ?_, fun hnew hfull => ?_, fun hnew hroom => ?_⟩⟩⟩
  · rw [exec_loadSym_outOfRange hout, State.raise_eq]
  · rw [exec_loadSym_inRange hin, loadSym_sequenceLost x hlost, State.raise_eq]
  · rw [exec_loadSym_inRange hin, loadSym_countOverflow x hlost htotal, loseSequence_raise_eq]
  · rw [exec_loadSym_inRange hin, loadSym_counted hlost htotal hft hfirst, loaded_eq]
  · rw [exec_loadSym_inRange hin, loadSym_alphabetOverflow hlost htotal hnew hfull, loseSequence_raise_eq]
  · rw [exec_loadSym_inRange hin, loadSym_appended hlost htotal hnew hroom, loaded_eq]

end Sys2Proof.Machine

namespace Sys2Proof.Machine

/-! ### The split point -/

/-- The split point of a non-empty list lies in it, and it is the first place where the doubled running sum reaches the
total (R142). -/
theorem splitPoint_spec {l : List Item} (hne : l ≠ []) :
    splitPoint l < l.length ∧ itemTotal l ≤ 2 * itemTotal (l.take (splitPoint l + 1)) ∧
      ∀ j, j < splitPoint l → 2 * itemTotal (l.take (j + 1)) < itemTotal l := by
  obtain ⟨m, hm, hsplit, hreach, hbefore⟩ := scanSplit_spec (itemTotal l) l 0 0 hne (by omega)
  have hpoint : splitPoint l = m := by rw [splitPoint, hsplit, Nat.zero_add]
  rw [hpoint]
  exact ⟨hm, by simpa using hreach, by simpa using hbefore⟩

/-- Settles O35: the split point is such an index, and a first index is unique. -/
theorem splitPointIsTheFirstHalf : Obligations.SplitPointIsTheFirstHalf := by
  intro l k hne
  obtain ⟨hlt, hreach, hbefore⟩ := splitPoint_spec hne
  constructor
  · rintro rfl
    exact ⟨hlt, hreach, hbefore⟩
  · rintro ⟨-, hreach', hbefore'⟩
    rcases Nat.lt_trichotomy (splitPoint l) k with hlow | heq | hhigh
    · exact absurd hreach (Nat.not_le.2 (hbefore' _ hlow))
    · exact heq
    · exact absurd hreach' (Nat.not_le.2 (hbefore _ hhigh))

/-- The counts of a list of items never rise: what R141's order gives to each of its slices. -/
abbrev CountsDescend (l : List Item) : Prop := l.Pairwise (fun a b => b.cnt ≤ a.cnt)

/-- The order is sorted by count descending (R141). -/
theorem sfOrder_countsDescend (ft : List Entry) : CountsDescend (sfOrder ft) := by
  refine (sfOrder_sorted ft).imp (fun {a b} h => ?_)
  simp [Item.before] at h
  omega

theorem countsDescend_slice {ft : List Entry} {l : List Item} (h : l <:+: sfOrder ft) : CountsDescend l :=
  (sfOrder_countsDescend ft).sublist h.sublist

/-- The split leaves an item to its right: without the last count, which is no greater than the first, the running sum is
half the total already. Counts of 0 change nothing (R145). -/
theorem splitPoint_add_one_lt {l : List Item} (hd : CountsDescend l) (h2 : 2 ≤ l.length) :
    splitPoint l + 1 < l.length := by
  obtain rfl | ⟨front, last, rfl⟩ := List.eq_nil_or_concat' l
  · simp at h2
  obtain ⟨first, mid, rfl⟩ := List.exists_cons_of_length_pos (l := front) (by simp at h2; omega)
  by_contra hpast
  obtain ⟨hlt, -, hbefore⟩ := splitPoint_spec (List.cons_ne_nil first (mid ++ [last]))
  have hhalf : 2 * (first.cnt + itemTotal mid) < first.cnt + itemTotal mid + last.cnt := by
    have := hbefore mid.length (by simp at hpast ⊢; omega)
    simpa [itemTotal, Nat.add_assoc] using this
  have hlast : last.cnt ≤ first.cnt := (List.pairwise_cons.1 hd).1 last (by simp)
  omega

/-- Both sides of a split have an item (R145). -/
theorem splitSides_ne_nil {l : List Item} (hd : CountsDescend l) (h2 : 2 ≤ l.length) :
    l.take (splitPoint l + 1) ≠ [] ∧ l.drop (splitPoint l + 1) ≠ [] := by
  have hlt := splitPoint_add_one_lt hd h2
  constructor
  · exact List.ne_nil_of_length_pos (by rw [List.length_take]; omega)
  · exact List.ne_nil_of_length_pos (by rw [List.length_drop]; omega)

/-- Both sides of a split are shorter than the list (R150). -/
theorem splitSides_length_lt {l : List Item} (hd : CountsDescend l) (h2 : 2 ≤ l.length) :
    (l.take (splitPoint l + 1)).length < l.length ∧ (l.drop (splitPoint l + 1)).length < l.length := by
  have hlt := splitPoint_add_one_lt hd h2
  rw [List.length_take, List.length_drop]
  omega

/-- Settles O36: every slice of the order descends. -/
theorem splitSidesAreNeverEmpty : Obligations.SplitSidesAreNeverEmpty := by
  intro ft l _ hslice h2
  have hd := countsDescend_slice hslice
  have hlt := splitPoint_add_one_lt hd h2
  obtain ⟨hleft, hright⟩ := splitSides_ne_nil hd h2
  exact ⟨by omega, hright, hleft⟩

/-! ### The recursion of the split -/

theorem sfSplit_nil (fuel : Nat) (p : Code) : sfSplit fuel [] p = [] := by cases fuel <;> rfl

/-- A list of one item is a terminal (R143). -/
theorem sfSplit_singleton {fuel : Nat} (hfuel : 1 ≤ fuel) (x : Item) (p : Code) :
    sfSplit fuel [x] p = [(x.idx, if p = [] then [false] else p)] := by
  obtain ⟨f, rfl⟩ := Nat.exists_eq_add_of_le' hfuel
  rfl

/-- The recursion with its own fuel: the guard on an empty right side needs no case, for an empty side writes nothing
(R143, 90_conflicts.md C2). -/
theorem sfSplit_succ {l : List Item} (h2 : 2 ≤ l.length) (fuel : Nat) (p : Code) :
    sfSplit (fuel + 1) l p =
      sfSplit fuel (l.take (splitPoint l + 1)) (p ++ [false]) ++ sfSplit fuel (l.drop (splitPoint l + 1)) (p ++ [true]) := by
  match l, h2 with
  | x :: y :: rest, _ =>
    rw [sfSplit]
    split
    · next hright => rw [hright, sfSplit_nil]
    · rfl

/-- Fuel beyond the number of items changes nothing, since both sides of a split are shorter (R145, R150). -/
theorem sfSplit_fuel {f g : Nat} {l : List Item} (p : Code) (hd : CountsDescend l) (hf : l.length ≤ f) (hg : l.length ≤ g) :
    sfSplit f l p = sfSplit g l p := by
  induction f generalizing g l p with
  | zero => rw [List.length_eq_zero_iff.1 (Nat.le_zero.1 hf), sfSplit_nil, sfSplit_nil]
  | succ f ih =>
    rcases Nat.lt_trichotomy l.length 1 with h0 | h1 | h2
    · rw [List.length_eq_zero_iff.1 (Nat.lt_one_iff.1 h0), sfSplit_nil, sfSplit_nil]
    · obtain ⟨x, rfl⟩ := List.length_eq_one_iff.1 h1
      rw [sfSplit_singleton hf, sfSplit_singleton hg]
    · obtain ⟨g, rfl⟩ := Nat.exists_eq_add_of_le' (Nat.le_of_lt (h2.trans_le hg))
      obtain ⟨hleft, hright⟩ := splitSides_length_lt hd h2
      rw [sfSplit_succ h2, sfSplit_succ h2, ih (g := g) _ hd.take (by omega) (by omega),
        ih (g := g) _ hd.drop (by omega) (by omega)]

/-- The recursion at a fuel that is enough (R143). -/
theorem sfSplit_branch {fuel : Nat} {l : List Item} (p : Code) (hd : CountsDescend l) (hfuel : l.length ≤ fuel)
    (h2 : 2 ≤ l.length) :
    sfSplit fuel l p =
      sfSplit fuel (l.take (splitPoint l + 1)) (p ++ [false]) ++ sfSplit fuel (l.drop (splitPoint l + 1)) (p ++ [true]) := by
  rw [sfSplit_fuel (g := fuel + 1) p hd hfuel (by omega), sfSplit_succ h2]

/-- Settles O37: the base call by definition, the recursion at every fuel that is enough. -/
theorem shannonFanoSplitFollowsItsRecursion : Obligations.ShannonFanoSplitFollowsItsRecursion := by
  refine ⟨rfl, fun _ => rfl, fun ft l p fuel _ hslice hfuel => ⟨?_, ?_⟩⟩
  · rintro x rfl
    exact sfSplit_singleton hfuel x p
  · exact sfSplit_branch p (countsDescend_slice hslice) hfuel

/-- Induction along the splits: what holds of a terminal, and of two non-empty sides put together, holds of the split of
every non-empty slice of the order. -/
theorem sfSplit_induction {fuel : Nat} {P : List Item → Code → List (Nat × Code) → Prop}
    (terminal : ∀ x p, P [x] p [(x.idx, if p = [] then [false] else p)])
    (branch : ∀ l r p a b, l ≠ [] → r ≠ [] → P l (p ++ [false]) a → P r (p ++ [true]) b → P (l ++ r) p (a ++ b))
    (l : List Item) (p : Code) (hd : CountsDescend l) (hne : l ≠ []) (hfuel : l.length ≤ fuel) :
    P l p (sfSplit fuel l p) := by
  induction hn : l.length using Nat.strong_induction_on generalizing l p with
  | h n ih =>
    subst hn
    rcases Nat.lt_or_eq_of_le (List.length_pos_of_ne_nil hne) with h2 | h1
    · obtain ⟨hleftNe, hrightNe⟩ := splitSides_ne_nil hd h2
      obtain ⟨hleft, hright⟩ := splitSides_length_lt hd h2
      have hP := branch _ _ p _ _ hleftNe hrightNe
        (ih _ hleft _ _ hd.take hleftNe (by omega) rfl) (ih _ hright _ _ hd.drop hrightNe (by omega) rfl)
      rwa [List.take_append_drop, ← sfSplit_branch p hd hfuel h2] at hP
    · obtain ⟨x, rfl⟩ := List.length_eq_one_iff.1 h1.symm
      rw [sfSplit_singleton hfuel]
      exact terminal x p

/-! ### The codes of a full binary tree -/

/-- The codes of the leaves of a full binary tree, left to right: the digits of the path from the root (R144, R147). -/
inductive FullCode : List Code → Prop where
  /-- The tree of one leaf, whose path is empty. -/
  | leaf : FullCode [[]]
  /-- A root with two subtrees: "0" leads to the left one and "1" to the right one. -/
  | branch {a b : List Code} (left : FullCode a) (right : FullCode b) :
      FullCode (a.map (List.cons false) ++ b.map (List.cons true))

theorem kraftSum_append (a b : List Code) : kraftSum (a ++ b) = kraftSum a + kraftSum b := by
  simp [kraftSum]

/-- One more digit before each code halves the Kraft sum. -/
theorem kraftSum_map_cons (d : Digit) (a : List Code) : kraftSum (a.map (List.cons d)) = 1 / 2 * kraftSum a := by
  simp only [kraftSum, List.map_map, Function.comp_def, List.length_cons, pow_succ', List.sum_map_mul_left]

theorem kraftSum_perm {a b : List Code} (h : a.Perm b) : kraftSum a = kraftSum b := (h.map _).sum_eq

theorem complete_perm {a b : List Code} (h : a.Perm b) : Complete a ↔ Complete b := by
  simp only [Complete, h.mem_iff]

namespace FullCode

/-- Every tree has a leaf. -/
theorem length_pos {a : List Code} (h : FullCode a) : 1 ≤ a.length := by
  induction h with
  | leaf => simp
  | branch _ _ ihl _ =>
    rw [List.length_append, List.length_map]
    omega

/-- A path is shorter than the number of leaves, since each node on it has a leaf on its other side (R150). -/
theorem length_lt {a : List Code} (h : FullCode a) : ∀ c ∈ a, c.length < a.length := by
  induction h with
  | leaf => simp
  | branch left right ihl ihr =>
    have hl := left.length_pos
    have hr := right.length_pos
    intro c hc
    rw [List.mem_append, List.mem_map, List.mem_map] at hc
    obtain ⟨c, hc, rfl⟩ | ⟨c, hc, rfl⟩ := hc
    · have := ihl c hc
      simp only [List.length_cons, List.length_append, List.length_map]
      omega
    · have := ihr c hc
      simp only [List.length_cons, List.length_append, List.length_map]
      omega

/-- With two leaves or more no leaf is the root (R146). -/
theorem ne_nil {a : List Code} (h : FullCode a) (h2 : 2 ≤ a.length) : ∀ c ∈ a, c ≠ [] := by
  cases h with
  | leaf => simp at h2
  | branch =>
    intro c hc
    rw [List.mem_append, List.mem_map, List.mem_map] at hc
    obtain ⟨d, -, rfl⟩ | ⟨d, -, rfl⟩ := hc <;> exact List.cons_ne_nil _ _

/-- Two leaves part at a node, where one takes "0" and the other "1" (R146). -/
theorem prefixFree {a : List Code} (h : FullCode a) : PrefixFree a := by
  induction h with
  | leaf => exact List.pairwise_singleton _ _
  | branch _ _ ihl ihr =>
    rw [PrefixFree, List.pairwise_append, List.pairwise_map, List.pairwise_map]
    refine ⟨by simpa using ihl, by simpa using ihr, ?_⟩
    simp

/-- Both subtrees have Kraft sum 1, and each counts for half (R147). -/
theorem kraftSum_eq_one {a : List Code} (h : FullCode a) : kraftSum a = 1 := by
  induction h with
  | leaf => simp [kraftSum]
  | branch _ _ ihl ihr =>
    rw [kraftSum_append, kraftSum_map_cons, kraftSum_map_cons, ihl, ihr]
    norm_num

/-- A bit string followed from the root ends at a node above a leaf, or passes one (R147). -/
theorem complete {a : List Code} (h : FullCode a) : Complete a := by
  induction h with
  | leaf => exact fun d => ⟨[], by simp, .inr List.nil_prefix⟩
  | @branch a b _ _ ihl ihr =>
    intro d
    match d with
    | [] =>
      obtain ⟨c, hc, -⟩ := ihl []
      exact ⟨false :: c, by simp [hc], .inl List.nil_prefix⟩
    | false :: d =>
      obtain ⟨c, hc, hcd⟩ := ihl d
      exact ⟨false :: c, by simp [hc], by simpa using hcd⟩
    | true :: d =>
      obtain ⟨c, hc, hcd⟩ := ihr d
      exact ⟨true :: c, by simp [hc], by simpa using hcd⟩

end FullCode

/-! ### The Shannon-Fano table -/

/-- The split writes each index of its list once, in the list's order (R144). -/
theorem sfSplit_fst {fuel : Nat} {l : List Item} (p : Code) (hd : CountsDescend l) (hne : l ≠ []) (hfuel : l.length ≤ fuel) :
    (sfSplit fuel l p).map Prod.fst = l.map Item.idx := by
  refine sfSplit_induction (P := fun l _ r => r.map Prod.fst = l.map Item.idx) (fun _ _ => rfl) ?_ l p hd hne hfuel
  intro l r p a b _ _ ha hb
  rw [List.map_append, List.map_append, ha, hb]

/-- The codes of a split are its prefix before the codes of a full tree, but for the lone terminal "0" (R143, R147). -/
theorem sfSplit_fullCode {fuel : Nat} {l : List Item} (p : Code) (hd : CountsDescend l) (hne : l ≠ [])
    (hfuel : l.length ≤ fuel) (h : p ≠ [] ∨ 2 ≤ l.length) :
    ∃ a, FullCode a ∧ (sfSplit fuel l p).map Prod.snd = a.map (p ++ ·) := by
  revert h
  refine sfSplit_induction
    (P := fun l p r => p ≠ [] ∨ 2 ≤ l.length → ∃ a, FullCode a ∧ r.map Prod.snd = a.map (p ++ ·)) ?_ ?_ l p hd hne hfuel
  · rintro x p (hp | h2)
    · exact ⟨[[]], .leaf, by simp [hp]⟩
    · simp at h2
  · intro l r p a b _ _ iha ihb _
    obtain ⟨ta, hta, ha⟩ := iha (.inl (by simp))
    obtain ⟨tb, htb, hb⟩ := ihb (.inl (by simp))
    exact ⟨_, .branch hta htb, by simp [ha, hb, Function.comp_def]⟩

/-- For two entries or more the table's codes are those of a full tree, rearranged (R144, R147). -/
theorem sfCodes_perm_fullCode {ft : List Entry} (h2 : 2 ≤ ft.length) : ∃ a, FullCode a ∧ (sfCodes ft).Perm a := by
  have hd := sfOrder_countsDescend ft
  have hlen := sfOrder_length ft
  have hne : sfOrder ft ≠ [] := List.ne_nil_of_length_pos (by omega)
  have hindices : ((sfSplit ft.length (sfOrder ft) []).map Prod.fst).Perm (List.range ft.length) := by
    rw [sfSplit_fst [] hd hne hlen.le, ← itemsOf_idx]
    exact (sfOrder_perm ft).map _
  obtain ⟨a, ha, hcodes⟩ := sfSplit_fullCode [] hd hne hlen.le (.inr (by omega))
  refine ⟨a, ha, (codesOf_perm _ _ hindices).trans ?_⟩
  rw [hcodes]
  simp

theorem sfCodes_length (ft : List Entry) : (sfCodes ft).length = ft.length := by
  simp [sfCodes, codesOf]

/-- One entry has the code "0" (R143). -/
theorem sfCodes_singleton (e : Entry) : sfCodes [e] = [[false]] := rfl

/-- Settles O38: without entries and with one the table is written out, and with more it is a full tree's. -/
theorem shannonFanoTableIsAPrefixCode : Obligations.ShannonFanoTableIsAPrefixCode := by
  intro ft
  refine ⟨sfCodes_length ft, ?_⟩
  match ft with
  | [] => simp [sfCodes, codesOf]
  | [e] => simp [sfCodes_singleton]
  | e :: e' :: ft =>
    obtain ⟨a, ha, hperm⟩ := sfCodes_perm_fullCode (ft := e :: e' :: ft) (by simp)
    have hlen : a.length = (e :: e' :: ft).length := by rw [← hperm.length_eq, sfCodes_length]
    refine ⟨(prefixFree_perm hperm).2 ha.prefixFree, fun c hc => ?_⟩
    have hmem := hperm.mem_iff.1 hc
    have hlt := ha.length_lt c hmem
    exact ⟨List.length_pos_of_ne_nil (ha.ne_nil (by simp [hlen]) c hmem), by omega⟩

/-- Settles O39: a full tree is complete, and the one code "0" is not. -/
theorem shannonFanoTableIsComplete : Obligations.ShannonFanoTableIsComplete := by
  intro ft
  refine ⟨fun h2 => ?_, fun h1 => ?_⟩
  · obtain ⟨a, ha, hperm⟩ := sfCodes_perm_fullCode h2
    exact ⟨(kraftSum_perm hperm).trans ha.kraftSum_eq_one, (complete_perm hperm).2 ha.complete⟩
  · obtain ⟨e, rfl⟩ := List.length_eq_one_iff.1 h1
    simp [sfCodes_singleton]

/-! ### BUILD_SF -/

theorem exec_buildSf_built {s : State} (hlost : s.seqLost = false) :
    exec .buildSf s = .next (s.install .sf (sfCodes s.ft)).finishOk := if_neg (by simp [hlost])

theorem exec_buildSf_lost {s : State} (hlost : s.seqLost = true) :
    exec .buildSf s = .next (s.raise .sequenceLost) := if_pos hlost

/-- A built table is valid, and SUMWL is its weighted length (R39, R44). -/
theorem sumwl_of_tableValid {s : State} (h : s.tableValid = true) : s.sumwl = weightedLength s.ft s.ct := if_pos h

/-- Settles O32: form N with opcode 3, and the two branches of the rule. -/
theorem buildSfInstallsTheShannonFanoTable : Obligations.BuildSfInstallsTheShannonFanoTable := by
  refine ⟨decode_formN_iff (op := .buildSf) rfl, fun s => ⟨fun hlost => ?_, fun hlost => ?_⟩, rfl, sfCodes_singleton⟩
  · exact ⟨_, exec_buildSf_built hlost, by rw [State.finishOk_eq, State.install_eq], rfl, rfl, sumwl_of_tableValid rfl⟩
  · rw [exec_buildSf_lost hlost, State.raise_eq]

end Sys2Proof.Machine

namespace Sys2Proof.Machine

/-! ### The queue -/

/-- popMin's equation on a queue with a node in front (R162). -/
theorem popMin_cons_of_some {q rest : List Node} {m : Node} (h : popMin q = some (m, rest)) (n : Node) :
    popMin (n :: q) = if m.keyLt n then some (m, n :: rest) else some (n, m :: rest) := by
  rw [popMin, h]

/-- A queue with a node in it answers. -/
theorem exists_popMin {q : List Node} (hne : q ≠ []) : ∃ n rest, popMin q = some (n, rest) := by
  obtain ⟨⟨n, rest⟩, h⟩ := Option.ne_none_iff_exists'.1 (fun h => hne (popMin_none.1 h))
  exact ⟨n, rest, h⟩

/-- Settles O40: the least key of the rest of the queue is compared with the front's, and keys are compared in a total order. -/
theorem popMinTakesTheLeastKey : Obligations.PopMinTakesTheLeastKey := by
  intro q
  induction q with
  | nil => simp [popMin]
  | cons f q ih =>
    intro n rest h
    by_cases hq : q = []
    · subst hq
      obtain ⟨rfl, rfl⟩ : f = n ∧ [] = rest := by simpa [popMin] using h
      simp
    · obtain ⟨m, rest', hpop⟩ := exists_popMin hq
      obtain ⟨hperm, hleast⟩ := ih m rest' hpop
      rw [popMin_cons_of_some hpop] at h
      split at h
      · next hlt =>
        obtain ⟨rfl, rfl⟩ : m = n ∧ f :: rest' = rest := by simpa using h
        have hf := (keyLt_iff m f).1 hlt
        exact ⟨(hperm.cons f).trans (.swap m f rest'),
          List.forall_mem_cons.2 ⟨hf.imp_right (And.imp_right Nat.le_of_lt), hleast⟩⟩
      · next hge =>
        obtain ⟨rfl, rfl⟩ : f = n ∧ m :: rest' = rest := by simpa using h
        rw [keyLt_iff] at hge
        refine ⟨hperm.cons f, List.forall_mem_cons.2 ⟨by omega, fun x hx => ?_⟩⟩
        have := hleast x hx
        omega

/-- The two pops of a merge: the weights rise along them, and the nodes left weigh no less (R164). -/
theorem exists_popMin_twice {q : List Node} (h2 : 2 ≤ q.length) :
    ∃ a q1 b q2, popMin q = some (a, q1) ∧ popMin q1 = some (b, q2) ∧ q.Perm (a :: b :: q2) ∧
      a.weight ≤ b.weight ∧ ∀ n ∈ q2, b.weight ≤ n.weight := by
  obtain ⟨a, q1, ha⟩ := exists_popMin (q := q) (List.ne_nil_of_length_pos (by omega))
  obtain ⟨hperm1, hleast1⟩ := popMinTakesTheLeastKey q a q1 ha
  have hlen := hperm1.length_eq
  rw [List.length_cons] at hlen
  obtain ⟨b, q2, hb⟩ := exists_popMin (q := q1) (List.ne_nil_of_length_pos (by omega))
  obtain ⟨hperm2, hleast2⟩ := popMinTakesTheLeastKey q1 b q2 hb
  refine ⟨a, q1, b, q2, ha, hb, hperm1.trans (hperm2.cons a), ?_, fun n hn => ?_⟩
  · have := hleast1 b (hperm2.mem_iff.2 (by simp))
    omega
  · have := hleast2 n hn
    omega

/-! ### The merge loop -/

/-- One node left is the result, whatever the fuel (R164). -/
theorem huffMerge_singleton (fuel seq : Nat) (n : Node) : huffMerge fuel seq [n] = n.payload := by
  cases fuel <;> simp [huffMerge, popMin]

/-- One round of the loop (R164). -/
theorem huffMerge_succ {q q1 q2 : List Node} {a b : Node} (ha : popMin q = some (a, q1)) (hb : popMin q1 = some (b, q2))
    (fuel seq : Nat) : huffMerge (fuel + 1) seq q = huffMerge fuel (seq + 1) (mergeNodes a b seq :: q2) := by
  rw [huffMerge, ha]
  simp only [hb]

/-- `I` does not depend on the queue's order and is kept by the merge of the two lightest nodes. -/
structure KeptByMerges (I : List Node → Prop) : Prop where
  perm : ∀ {q q'}, q.Perm q' → I q → I q'
  merge : ∀ {a b q} (seq : Nat), a.weight ≤ b.weight → (∀ n ∈ q, b.weight ≤ n.weight) → I (a :: b :: q) →
    I (mergeNodes a b seq :: q)

/-- Induction along the merges: what they keep holds of the one node whose payload is the result (R164). -/
theorem KeptByMerges.result_of_queue {I : List Node → Prop} (kept : KeptByMerges I) {fuel : Nat} (seq : Nat) {q : List Node}
    (hne : q ≠ []) (hfuel : q.length ≤ fuel + 1) (hI : I q) : ∃ n, I [n] ∧ huffMerge fuel seq q = n.payload := by
  induction fuel generalizing seq q with
  | zero =>
    obtain ⟨n, rfl⟩ := List.length_eq_one_iff.1 (le_antisymm hfuel (List.length_pos_of_ne_nil hne))
    exact ⟨n, hI, huffMerge_singleton _ _ n⟩
  | succ fuel ih =>
    rcases Nat.lt_or_eq_of_le (List.length_pos_of_ne_nil hne) with h2 | h1
    · obtain ⟨a, q1, b, q2, ha, hb, hperm, hab, hleast⟩ := exists_popMin_twice h2
      have hlen := hperm.length_eq
      simp only [List.length_cons] at hlen
      rw [huffMerge_succ ha hb]
      exact ih (seq + 1) (List.cons_ne_nil _ _) (by rw [List.length_cons]; omega)
        (kept.merge seq hab hleast (kept.perm hperm hI))
    · obtain ⟨n, rfl⟩ := List.length_eq_one_iff.1 h1.symm
      exact ⟨n, hI, huffMerge_singleton _ _ n⟩

/-! ### The Huffman table -/

theorem seedNodes_length (ft : List Entry) : (seedNodes ft).length = ft.length := by
  simp [seedNodes]

theorem huffCodes_nil : huffCodes [] = [] := rfl

/-- One entry has the code "0" without a merge (R167). -/
theorem huffCodes_singleton (e : Entry) : huffCodes [e] = [[false]] := rfl

/-- For two entries or more the table is the merge loop's payload in entry order (R165). -/
theorem huffCodes_of_two_le {ft : List Entry} (h2 : 2 ≤ ft.length) :
    huffCodes ft = codesOf ft.length (huffMerge ft.length ft.length (seedNodes ft)) := by
  rw [huffCodes, if_neg (by omega), if_neg (by omega)]

/-- A queue over the entries 0 to N − 1: each index stands in one payload, and each payload's codes are those of a full tree
(R164, R170). -/
structure ForestOf (N : Nat) (q : List Node) : Prop where
  indices : (q.flatMap (fun n => n.payload.map Prod.fst)).Perm (List.range N)
  trees : ∀ n ∈ q, FullCode (n.payload.map Prod.snd)

namespace ForestOf

/-- A merge puts two trees under a new root. -/
theorem merge {N : Nat} {a b : Node} {q : List Node} (seq : Nat) (h : ForestOf N (a :: b :: q)) :
    ForestOf N (mergeNodes a b seq :: q) := by
  obtain ⟨hindices, htrees⟩ := h
  obtain ⟨ha, hb, hq⟩ : FullCode _ ∧ FullCode _ ∧ ∀ n ∈ q, FullCode _ := by simpa using htrees
  refine ⟨by simpa [mergeNodes_fst] using hindices, List.forall_mem_cons.2 ⟨?_, hq⟩⟩
  simpa [mergeNodes, prependAll, Function.comp_def] using ha.branch hb

theorem keptByMerges (N : Nat) : KeptByMerges (ForestOf N) where
  perm h hq := ⟨(h.flatMap_right _).symm.trans hq.indices, fun n hn => hq.trees n (h.mem_iff.2 hn)⟩
  merge seq _ _ := merge seq

/-- Each seed is a tree of one leaf (R161). -/
theorem seeds (ft : List Entry) : ForestOf ft.length (seedNodes ft) := by
  rw [seedNodes_eq]
  refine ⟨by simp [List.flatMap_map], fun n hn => ?_⟩
  obtain ⟨i, -, rfl⟩ := List.mem_map.1 hn
  exact .leaf

end ForestOf

/-- What merges keep goes from the seeds to the node of the result (R161, R164). -/
theorem KeptByMerges.result_of_seeds {I : List Node → Prop} (kept : KeptByMerges I) {ft : List Entry} (hne : ft ≠ [])
    (hseeds : I (seedNodes ft)) : ∃ n, I [n] ∧ huffMerge ft.length ft.length (seedNodes ft) = n.payload := by
  have hlen := seedNodes_length ft
  have hpos := List.length_pos_of_ne_nil hne
  exact kept.result_of_queue (fuel := ft.length) _ (List.ne_nil_of_length_pos (by omega)) (by omega) hseeds

/-- The merge loop gives each entry one code, and the codes are those of a full tree (R164, R170). -/
theorem huffMerge_forest {ft : List Entry} (hne : ft ≠ []) :
    ((huffMerge ft.length ft.length (seedNodes ft)).map Prod.fst).Perm (List.range ft.length) ∧
      FullCode ((huffMerge ft.length ft.length (seedNodes ft)).map Prod.snd) := by
  obtain ⟨n, ⟨hindices, htrees⟩, hres⟩ :=
    (ForestOf.keptByMerges _).result_of_seeds hne (ForestOf.seeds ft)
  rw [hres]
  exact ⟨by simpa using hindices, htrees n (by simp)⟩

/-- For two entries or more the table's codes are those of a full tree, rearranged (R169, R170). -/
theorem huffCodes_perm_fullCode {ft : List Entry} (h2 : 2 ≤ ft.length) : ∃ a, FullCode a ∧ (huffCodes ft).Perm a := by
  obtain ⟨hindices, hfull⟩ := huffMerge_forest (ft := ft) (List.ne_nil_of_length_pos (by omega))
  exact ⟨_, hfull, huffCodes_of_two_le h2 ▸ codesOf_perm _ _ hindices⟩

theorem huffCodes_length (ft : List Entry) : (huffCodes ft).length = ft.length := by
  match ft with
  | [] => rfl
  | [_] => rfl
  | e :: e' :: ft => rw [huffCodes_of_two_le (by simp), codesOf, List.length_map, List.length_range]

/-- Two or more codes of a full tree, rearranged, are a prefix code of non-empty codes, each shorter than the number of codes
(R169, R171). -/
theorem FullCode.bounds_of_perm {a codes : List Code} (ha : FullCode a) (hperm : codes.Perm a) (h2 : 2 ≤ codes.length) :
    PrefixFree codes ∧ ∀ c ∈ codes, 1 ≤ c.length ∧ c.length < codes.length := by
  rw [hperm.length_eq] at h2 ⊢
  refine ⟨(prefixFree_perm hperm).2 ha.prefixFree, fun c hc => ?_⟩
  have hmem := hperm.mem_iff.1 hc
  exact ⟨List.length_pos_of_ne_nil (ha.ne_nil h2 c hmem), ha.length_lt c hmem⟩

/-- Settles O42: without entries and with one the table is written out, and with more it is a full tree's. -/
theorem huffmanTableIsAPrefixCode : Obligations.HuffmanTableIsAPrefixCode := by
  intro ft
  have hlen := huffCodes_length ft
  refine ⟨hlen, ?_⟩
  rcases Nat.lt_trichotomy ft.length 1 with h0 | h1 | h2
  · rw [List.length_eq_zero_iff.1 (Nat.lt_one_iff.1 h0)]
    simp [huffCodes_nil]
  · obtain ⟨e, rfl⟩ := List.length_eq_one_iff.1 h1
    simp [huffCodes_singleton]
  · obtain ⟨a, ha, hperm⟩ := huffCodes_perm_fullCode h2
    obtain ⟨hp, hbounds⟩ := ha.bounds_of_perm hperm (by omega)
    refine ⟨hp, fun c hc => ?_⟩
    obtain ⟨hpos, hlt⟩ := hbounds c hc
    omega

/-! ### The weighted length of a payload -/

/-- The count of entry i; past the end 0. -/
def entryCount (ft : List Entry) (i : Nat) : Nat := (ft.getD i ⟨0#21, 0⟩).cnt

/-- The counts of a payload's entries, summed. -/
def payloadWeight (ft : List Entry) (p : List (Nat × Code)) : Nat := (p.map (fun ic => entryCount ft ic.1)).sum

/-- A payload's part of SUMWL: each of its entries' counts times the length of its code so far (R39). -/
def payloadCost (ft : List Entry) (p : List (Nat × Code)) : Nat :=
  (p.map (fun ic => entryCount ft ic.1 * ic.2.length)).sum

theorem payloadWeight_append (ft : List Entry) (p r : List (Nat × Code)) :
    payloadWeight ft (p ++ r) = payloadWeight ft p + payloadWeight ft r := by simp [payloadWeight]

theorem payloadCost_append (ft : List Entry) (p r : List (Nat × Code)) :
    payloadCost ft (p ++ r) = payloadCost ft p + payloadCost ft r := by simp [payloadCost]

theorem payloadWeight_prependAll (ft : List Entry) (d : Digit) (p : List (Nat × Code)) :
    payloadWeight ft (prependAll d p) = payloadWeight ft p := by
  simp [payloadWeight, prependAll, Function.comp_def]

/-- One more digit before each code costs each entry's count once. -/
theorem payloadCost_prependAll (ft : List Entry) (d : Digit) (p : List (Nat × Code)) :
    payloadCost ft (prependAll d p) = payloadCost ft p + payloadWeight ft p := by
  simp [payloadCost, payloadWeight, prependAll, Function.comp_def, Nat.mul_add, List.sum_map_add]

/-- The weighted length of a table is the cost of the payload it is written from (R39, R165). -/
theorem weightedLength_codesOf {ft : List Entry} {p : List (Nat × Code)}
    (h : (p.map Prod.fst).Perm (List.range ft.length)) : weightedLength ft (codesOf ft.length p) = payloadCost ft p := by
  have hnodup : (p.map Prod.fst).Nodup := h.nodup_iff.2 List.nodup_range
  have hcodes : ∀ i ∈ List.range ft.length, (codesOf ft.length p).getD i [] = codeOf p i := by
    intro i hi
    simp [codesOf, List.getD_eq_getElem?_getD, List.getElem?_range (List.mem_range.1 hi)]
  calc weightedLength ft (codesOf ft.length p)
      = ((List.range ft.length).map (fun i => entryCount ft i * (codeOf p i).length)).sum := by
        rw [weightedLength_eq_sum]
        exact congrArg _ (List.map_congr_left (fun i hi => by rw [hcodes i hi, entryCount]))
    _ = ((p.map Prod.fst).map (fun i => entryCount ft i * (codeOf p i).length)).sum := (h.symm.map _).sum_eq
    _ = payloadCost ft p := by
        rw [List.map_map, payloadCost]
        refine congrArg _ (List.map_congr_left (fun ⟨i, c⟩ hic => ?_))
        simp [codeOf_mem p i c hnodup hic]

/-! ### Code lengths assigned to weights -/

/-- Σ 2^(−l) over the lengths of a code (R170). -/
def kraftOfLengths (ls : Multiset Nat) : ℚ := (ls.map (fun l => (1 / 2 : ℚ) ^ l)).sum

/-- Σ w × l over pairs of a weight and the code length assigned to it (R39). -/
def assignedCost (A : Multiset (Nat × Nat)) : Nat := (A.map (fun p => p.1 * p.2)).sum

@[simp] theorem kraftOfLengths_cons (l : Nat) (ls : Multiset Nat) :
    kraftOfLengths (l ::ₘ ls) = (1 / 2) ^ l + kraftOfLengths ls := by simp [kraftOfLengths]

@[simp] theorem assignedCost_cons (p : Nat × Nat) (A : Multiset (Nat × Nat)) :
    assignedCost (p ::ₘ A) = p.1 * p.2 + assignedCost A := by simp [assignedCost]

/-- Lengths of at most M have a Kraft sum in units of 2^(−M). -/
theorem kraftOfLengths_mul_two_pow {M : Nat} {ls : Multiset Nat} (h : ∀ l ∈ ls, l ≤ M) :
    ∃ k : Nat, kraftOfLengths ls * 2 ^ M = k := by
  induction ls using Multiset.induction with
  | empty => exact ⟨0, by simp [kraftOfLengths]⟩
  | cons l ls ih =>
    obtain ⟨hl, hls⟩ := Multiset.forall_mem_cons.1 h
    obtain ⟨k, hk⟩ := ih hls
    refine ⟨2 ^ (M - l) + k, ?_⟩
    have hpow : (2 : ℚ) ^ M = 2 ^ l * 2 ^ (M - l) := by rw [← pow_add, Nat.add_sub_cancel' hl]
    rw [kraftOfLengths_cons, add_mul, hk, hpow, ← mul_assoc, ← mul_pow]
    norm_num

/-- Two leaves give their room to one leaf a digit above the second: what stays free below 1 is a multiple of 2^(−M), and a
first leaf of any length takes a part of it. -/
theorem kraftOfLengths_merge {L M : Nat} {ls : Multiset Nat} (hmax : ∀ l ∈ ls, l ≤ M)
    (hk : kraftOfLengths (L ::ₘ M ::ₘ ls) ≤ 1) : 1 ≤ M ∧ kraftOfLengths ((M - 1) ::ₘ ls) ≤ 1 := by
  obtain ⟨k, hls⟩ := kraftOfLengths_mul_two_pow hmax
  have hM : (0 : ℚ) < 2 ^ M := by positivity
  have hL : (0 : ℚ) < (1 / 2) ^ L := by positivity
  have hunit : (1 / 2 : ℚ) ^ M * 2 ^ M = 1 := by rw [← mul_pow]; norm_num
  simp only [kraftOfLengths_cons] at hk ⊢
  have hroom : 2 + k ≤ 2 ^ M := by
    have hlt : ((1 / 2) ^ M + kraftOfLengths ls) * 2 ^ M < 1 * 2 ^ M := mul_lt_mul_of_pos_right (by linarith) hM
    rw [add_mul, hunit, hls, one_mul] at hlt
    have : 1 + k < 2 ^ M := by exact_mod_cast hlt
    omega
  have hM1 : 1 ≤ M := Nat.one_le_iff_ne_zero.2 (by rintro rfl; rw [pow_zero] at hroom; omega)
  refine ⟨hM1, le_of_mul_le_mul_right ?_ hM⟩
  obtain ⟨m, rfl⟩ := Nat.exists_eq_add_of_le' hM1
  rw [add_mul, hls, Nat.add_sub_cancel, pow_succ (2 : ℚ), ← mul_assoc, ← mul_pow]
  have : ((2 : ℚ) + k) ≤ 2 ^ (m + 1) := by exact_mod_cast hroom
  rw [pow_succ] at this
  norm_num
  linarith

/-- The exchange: the longest code goes to a lightest weight, at no cost. -/
theorem exists_longest_on_lightest {w : Nat} {ws : Multiset Nat} (hmin : ∀ v ∈ ws, w ≤ v) {A : Multiset (Nat × Nat)}
    (hA : A.map Prod.fst = w ::ₘ ws) :
    ∃ L B, B.map Prod.fst = ws ∧ L ::ₘ B.map Prod.snd = A.map Prod.snd ∧ (∀ l ∈ B.map Prod.snd, l ≤ L) ∧
      w * L + assignedCost B ≤ assignedCost A := by
  obtain ⟨⟨v, m⟩, hlongest, hmax⟩ := A.toFinset.exists_max_image Prod.snd
    (by rw [Multiset.toFinset_nonempty]; rintro rfl; simp at hA)
  simp only [Multiset.mem_toFinset] at hlongest hmax
  obtain ⟨⟨w, l⟩, hlightest, rfl, rfl⟩ := (Multiset.map_eq_cons _ _ _ _).2 hA
  obtain ⟨A, rfl⟩ := Multiset.exists_cons_of_mem hlightest
  rw [Multiset.erase_cons_head] at hmin ⊢
  obtain ⟨hl, hrestMax⟩ := Multiset.forall_mem_cons.1 hmax
  rcases Multiset.mem_cons.1 hlongest with heq | hrest
  · obtain ⟨rfl, rfl⟩ := Prod.mk.inj heq
    exact ⟨m, A, rfl, by simp, Multiset.forall_mem_map_iff.2 hrestMax, by simp⟩
  · obtain ⟨C, rfl⟩ := Multiset.exists_cons_of_mem hrest
    obtain ⟨-, hC⟩ := Multiset.forall_mem_cons.1 hrestMax
    have hv : w ≤ v := hmin v (by simp)
    refine ⟨m, (v, l) ::ₘ C, by simp, by simp [Multiset.cons_swap], ?_, ?_⟩
    · exact Multiset.forall_mem_map_iff.2 (Multiset.forall_mem_cons.2 ⟨hl, hC⟩)
    · have hswap : w * m + v * l ≤ w * l + v * m := mul_add_mul_le_mul_add_mul hv hl
      simp only [assignedCost_cons]
      omega

/-- Two exchanges: the two longest codes go to the two lightest weights. -/
theorem exists_longest_on_two_lightest {a b : Nat} {ws : Multiset Nat} (hab : a ≤ b) (hb : ∀ w ∈ ws, b ≤ w)
    {A : Multiset (Nat × Nat)} (hA : A.map Prod.fst = a ::ₘ b ::ₘ ws) :
    ∃ L M C, C.map Prod.fst = ws ∧ L ::ₘ M ::ₘ C.map Prod.snd = A.map Prod.snd ∧ M ≤ L ∧
      (∀ l ∈ C.map Prod.snd, l ≤ M) ∧ a * L + (b * M + assignedCost C) ≤ assignedCost A := by
  obtain ⟨L, B, hBw, hBl, hBmax, hBcost⟩ := exists_longest_on_lightest
    (Multiset.forall_mem_cons.2 ⟨hab, fun w hw => hab.trans (hb w hw)⟩) hA
  obtain ⟨M, C, hCw, hCl, hCmax, hCcost⟩ := exists_longest_on_lightest hb hBw
  exact ⟨L, M, C, hCw, by rw [hCl, hBl], hBmax M (hCl ▸ Multiset.mem_cons_self _ _), hCmax, by omega⟩

/-- The step of Huffman's optimality (R168): with the two lightest weights merged, some lengths still fit and cost less by the
merged weight. -/
theorem exists_lengths_of_merge {a b : Nat} {ws : Multiset Nat} (hab : a ≤ b) (hb : ∀ w ∈ ws, b ≤ w)
    {A : Multiset (Nat × Nat)} (hA : A.map Prod.fst = a ::ₘ b ::ₘ ws) (hk : kraftOfLengths (A.map Prod.snd) ≤ 1) :
    ∃ B : Multiset (Nat × Nat), B.map Prod.fst = (a + b) ::ₘ ws ∧ kraftOfLengths (B.map Prod.snd) ≤ 1 ∧
      assignedCost B + (a + b) ≤ assignedCost A := by
  obtain ⟨L, M, C, hCw, hlengths, hML, hmax, hcost⟩ := exists_longest_on_two_lightest hab hb hA
  obtain ⟨hM, hkraft⟩ := kraftOfLengths_merge hmax (hlengths ▸ hk)
  refine ⟨(a + b, M - 1) ::ₘ C, by simp [hCw], by simpa using hkraft, ?_⟩
  obtain ⟨M, rfl⟩ := Nat.exists_eq_add_of_le' hM
  have := Nat.mul_le_mul_left a hML
  rw [assignedCost_cons, Nat.add_sub_cancel]
  linarith

/-! ### Optimality -/

/-- In a prefix code, a code that begins another one is that code (R10, R169). -/
theorem eq_of_prefix_of_prefixFree {codes : List Code} (hp : PrefixFree codes) :
    ∀ c ∈ codes, ∀ d ∈ codes, c <+: d → c = d :=
  List.Pairwise.forall_of_forall_of_flip (R := fun c d => c <+: d → c = d) (fun _ _ _ => rfl)
    (hp.imp (fun h hcd => absurd hcd h.1)) (hp.imp (fun h hdc => absurd hdc h.2))

/-- A bit string has one reading in a prefix code: of two readings' first codes one begins the other (R188). -/
theorem uniquelyDecodable_of_prefixFree {codes : List Code} (hp : PrefixFree codes) (hne : ∀ c ∈ codes, c ≠ []) :
    InformationTheory.UniquelyDecodable {c | c ∈ codes} := by
  have hnil : ∀ l : List Code, (∀ c ∈ l, c ∈ codes) → l.flatten = [] → l = [] := fun l hl h =>
    List.eq_nil_iff_forall_not_mem.2 (fun c hc => hne c (hl c hc) (List.flatten_eq_nil_iff.1 h c hc))
  intro l
  induction l with
  | nil => exact fun l' _ hl' h => (hnil l' hl' h.symm).symm
  | cons c l ih =>
    intro l' hl hl' h
    cases l' with
    | nil => exact hnil (c :: l) hl h
    | cons d l' =>
      obtain ⟨hc, hl⟩ := List.forall_mem_cons.1 hl
      obtain ⟨hd, htail⟩ := List.forall_mem_cons.1 hl'
      rw [List.flatten_cons, List.flatten_cons] at h
      have hcd : c = d := by
        rcases List.prefix_or_prefix_of_prefix (List.prefix_append c _) (h ▸ List.prefix_append d _) with hpre | hpre
        · exact eq_of_prefix_of_prefixFree hp c hc d hd hpre
        · exact (eq_of_prefix_of_prefixFree hp d hd c hc hpre).symm
      subst hcd
      rw [ih l' hl htail (List.append_cancel_left h)]

/-- Kraft's inequality for a prefix code: McMillan's, since the code has one reading (R168). -/
theorem kraftSum_le_one {codes : List Code} (hp : PrefixFree codes) (hne : ∀ c ∈ codes, c ≠ []) :
    kraftSum codes ≤ 1 := by
  have hnodup : codes.Nodup := hp.imp (fun {c d} hcd => by rintro rfl; exact hcd.1 List.prefix_rfl)
  have hsum := InformationTheory.kraft_mcmillan_inequality (S := codes.toFinset)
    (by simpa using uniquelyDecodable_of_prefixFree hp hne)
  rw [List.sum_toFinset _ hnodup, Fintype.card_bool] at hsum
  have hcast : ((kraftSum codes : ℚ) : ℝ) = (codes.map (fun c => (1 / ((2 : Nat) : ℝ)) ^ c.length)).sum := by
    simp [kraftSum, Rat.cast_list_sum, Function.comp_def]
  exact_mod_cast hcast.trans_le hsum

/-- The pairs of an entry's count and its code's length. -/
def lengthsOf (ft : List Entry) (codes : List Code) : Multiset (Nat × Nat) :=
  ((ft.zip codes).map (fun p => (p.1.cnt, p.2.length)) : List (Nat × Nat))

theorem assignedCost_lengthsOf (ft : List Entry) (codes : List Code) :
    assignedCost (lengthsOf ft codes) = weightedLength ft codes := by
  induction ft generalizing codes with
  | nil => simp [lengthsOf, assignedCost, weightedLength]
  | cons e ft ih =>
    cases codes with
    | nil => simp [lengthsOf, assignedCost, weightedLength]
    | cons c codes =>
      rw [weightedLength, ← ih]
      simp [lengthsOf, assignedCost]

theorem lengthsOf_fst {ft : List Entry} {codes : List Code} (h : codes.length = ft.length) :
    (lengthsOf ft codes).map Prod.fst = ↑(ft.map Entry.cnt) := by
  rw [← congrArg (List.map Entry.cnt) (List.map_fst_zip h.ge)]
  simp [lengthsOf, Function.comp_def]

theorem kraftOfLengths_lengthsOf {ft : List Entry} {codes : List Code} (h : codes.length = ft.length) :
    kraftOfLengths ((lengthsOf ft codes).map Prod.snd) = kraftSum codes := by
  rw [← congrArg kraftSum (List.map_snd_zip h.le)]
  simp [kraftSum, kraftOfLengths, lengthsOf, Function.comp_def]

theorem seedNodes_weight (ft : List Entry) : (seedNodes ft).map Node.weight = ft.map Entry.cnt := by
  rw [← congrArg (List.map Entry.cnt) (List.zipIdx_map_fst 0 ft)]
  simp only [seedNodes, List.map_map, Function.comp_def]

/-- A queue whose merges will give no more than the cost C: with lengths for its nodes that fit together, what the payloads
cost already and what those lengths add stay within C. -/
structure CostsAtMost (ft : List Entry) (C : Nat) (q : List Node) : Prop where
  weights : ∀ n ∈ q, n.weight = payloadWeight ft n.payload
  bound : ∃ A : Multiset (Nat × Nat), A.map Prod.fst = ↑(q.map Node.weight) ∧ kraftOfLengths (A.map Prod.snd) ≤ 1 ∧
    (q.map (fun n => payloadCost ft n.payload)).sum + assignedCost A ≤ C

namespace CostsAtMost

/-- A merge of the two lightest nodes adds their weight to the payloads' cost, and the lengths that are left lose as much. -/
theorem merge {ft : List Entry} {C : Nat} {a b : Node} {q : List Node} (seq : Nat) (hab : a.weight ≤ b.weight)
    (hb : ∀ n ∈ q, b.weight ≤ n.weight) (h : CostsAtMost ft C (a :: b :: q)) :
    CostsAtMost ft C (mergeNodes a b seq :: q) := by
  obtain ⟨hweights, A, hA, hk, hC⟩ := h
  simp only [List.forall_mem_cons] at hweights
  obtain ⟨ha', hb', hq'⟩ := hweights
  obtain ⟨B, hB, hkB, hcost⟩ := exists_lengths_of_merge hab (ws := ↑(q.map Node.weight)) (by simpa using hb)
    (by simpa using hA) hk
  refine ⟨List.forall_mem_cons.2 ⟨?_, hq'⟩, B, by simpa [mergeNodes] using hB, hkB, ?_⟩
  · simp only [mergeNodes, payloadWeight_append, payloadWeight_prependAll, ha', hb']
  · simp only [mergeNodes, payloadCost_append, payloadCost_prependAll, List.map_cons, List.sum_cons] at hC ⊢
    omega

theorem keptByMerges (ft : List Entry) (C : Nat) : KeptByMerges (CostsAtMost ft C) where
  perm := by
    rintro q q' h ⟨hweights, A, hA, hk, hC⟩
    refine ⟨fun n hn => hweights n (h.mem_iff.2 hn), A, ?_, hk, ?_⟩
    · rw [hA, Multiset.coe_eq_coe]
      exact h.map _
    · rwa [← (h.map _).sum_eq]
  merge := merge

/-- The seeds cost nothing yet, so any lengths for the entries bound the table's cost. -/
theorem seeds (ft : List Entry) {A : Multiset (Nat × Nat)} (hA : A.map Prod.fst = ↑(ft.map Entry.cnt))
    (hk : kraftOfLengths (A.map Prod.snd) ≤ 1) : CostsAtMost ft (assignedCost A) (seedNodes ft) := by
  refine ⟨fun n hn => ?_, A, by rw [hA, seedNodes_weight], hk, ?_⟩
  · rw [seedNodes_eq] at hn
    obtain ⟨i, -, rfl⟩ := List.mem_map.1 hn
    simp [payloadWeight, entryCount]
  · rw [seedNodes_eq]
    simp [payloadCost, Function.comp_def]

end CostsAtMost

/-- The merge loop's payload costs no more than any lengths that fit together (R168). -/
theorem payloadCost_huffMerge_le {ft : List Entry} (hne : ft ≠ []) {A : Multiset (Nat × Nat)}
    (hA : A.map Prod.fst = ↑(ft.map Entry.cnt)) (hk : kraftOfLengths (A.map Prod.snd) ≤ 1) :
    payloadCost ft (huffMerge ft.length ft.length (seedNodes ft)) ≤ assignedCost A := by
  obtain ⟨n, ⟨-, B, -, -, hcost⟩, hres⟩ :=
    (CostsAtMost.keptByMerges _ _).result_of_seeds hne (CostsAtMost.seeds ft hA hk)
  rw [hres]
  simp only [List.map_cons, List.map_nil, List.sum_cons, List.sum_nil] at hcost
  omega

/-- For two entries or more SUMWL is the cost of the merge loop's payload (R39, R165). -/
theorem weightedLength_huffCodes {ft : List Entry} (h2 : 2 ≤ ft.length) :
    weightedLength ft (huffCodes ft) = payloadCost ft (huffMerge ft.length ft.length (seedNodes ft)) := by
  rw [huffCodes_of_two_le h2, weightedLength_codesOf (huffMerge_forest (List.ne_nil_of_length_pos (by omega))).1]

/-- No prefix code of non-empty codes has a smaller weighted length than the Huffman table (R168). -/
theorem weightedLength_huffCodes_le {ft : List Entry} {codes : List Code} (hlen : codes.length = ft.length)
    (hp : PrefixFree codes) (hne : ∀ c ∈ codes, c ≠ []) :
    weightedLength ft (huffCodes ft) ≤ weightedLength ft codes := by
  rcases Nat.lt_trichotomy ft.length 1 with h0 | h1 | h2
  · rw [List.length_eq_zero_iff.1 (Nat.lt_one_iff.1 h0)]
    simp [weightedLength]
  · obtain ⟨e, rfl⟩ := List.length_eq_one_iff.1 h1
    obtain ⟨c, rfl⟩ := List.length_eq_one_iff.1 hlen
    have hc := List.length_pos_of_ne_nil (hne c (by simp))
    simpa [huffCodes_singleton, weightedLength] using Nat.le_mul_of_pos_right e.cnt hc
  · rw [weightedLength_huffCodes h2, ← assignedCost_lengthsOf]
    exact payloadCost_huffMerge_le (List.ne_nil_of_length_pos (by omega)) (lengthsOf_fst hlen)
      ((kraftOfLengths_lengthsOf hlen).trans_le (kraftSum_le_one hp hne))

/-! ### BUILD_HUFF -/

theorem exec_buildHuff_built {s : State} (hlost : s.seqLost = false) :
    exec .buildHuff s = .next (s.install .huff (huffCodes s.ft)).finishOk := if_neg (by simp [hlost])

theorem exec_buildHuff_lost {s : State} (hlost : s.seqLost = true) :
    exec .buildHuff s = .next (s.raise .sequenceLost) := if_pos hlost

/-- Settles O44: SUMWL is the built table's weighted length, and the Shannon-Fano table is a prefix code of non-empty codes. -/
theorem huffmanTableIsOptimal : Obligations.HuffmanTableIsOptimal := by
  intro s t u _ ht hu hlost
  rw [exec_buildHuff_built hlost] at ht
  rw [exec_buildSf_built hlost] at hu
  cases ht
  cases hu
  rw [sumwl_of_tableValid rfl, sumwl_of_tableValid rfl]
  obtain ⟨hlen, hp, hbounds⟩ := shannonFanoTableIsAPrefixCode s.ft
  exact ⟨fun codes hlen hp hne => weightedLength_huffCodes_le hlen hp hne,
    weightedLength_huffCodes_le hlen hp (fun c hc => List.ne_nil_of_length_pos (hbounds c hc).1)⟩

/-- The one merge of two nodes: the lighter one, and the first of two alike, takes "0" (R164). -/
theorem huffMerge_pair (fuel seq : Nat) (m n : Node) (hseq : m.seq < n.seq) :
    huffMerge (fuel + 1) seq [m, n] =
      if m.weight ≤ n.weight then (mergeNodes m n seq).payload else (mergeNodes n m seq).payload := by
  have hpop : popMin [m, n] = if n.keyLt m then some (n, [m]) else some (m, [n]) := rfl
  have hkey : n.keyLt m = true ↔ ¬ m.weight ≤ n.weight := by
    rw [keyLt_iff]
    omega
  split
  · next hle => rw [huffMerge_succ (hpop.trans (if_neg (by simpa [hkey] using hle))) rfl, huffMerge_singleton]
  · next hlt => rw [huffMerge_succ (hpop.trans (if_pos (hkey.2 hlt))) rfl, huffMerge_singleton]

/-- Two entries (R160). -/
theorem huffCodes_pair (a b : Entry) :
    huffCodes [a, b] = if a.cnt ≤ b.cnt then [[false], [true]] else [[true], [false]] := by
  have hseeds : seedNodes [a, b] = [⟨a.cnt, 0, [(0, [])]⟩, ⟨b.cnt, 1, [(1, [])]⟩] := rfl
  rw [huffCodes_of_two_le (by simp), hseeds]
  change codesOf 2 (huffMerge (1 + 1) 2 _) = _
  rw [huffMerge_pair _ _ _ _ Nat.zero_lt_one]
  split <;> rfl

/-- Settles O33: form N with opcode 4, and the two branches of the rule. -/
theorem buildHuffInstallsTheHuffmanTable : Obligations.BuildHuffInstallsTheHuffmanTable := by
  refine ⟨decode_formN_iff (op := .buildHuff) rfl, fun s => ⟨fun hlost => ?_, fun hlost => ?_⟩, huffCodes_nil,
    huffCodes_singleton, huffCodes_pair⟩
  · exact ⟨_, exec_buildHuff_built hlost, by rw [State.finishOk_eq, State.install_eq], rfl, rfl, sumwl_of_tableValid rfl⟩
  · rw [exec_buildHuff_lost hlost, State.raise_eq]

end Sys2Proof.Machine

namespace Sys2Proof

/-! ### The word of ENC -/

/-- The word of an ENC: its opcode with the symbol in bits 20:0 (R101, R103). -/
theorem encode_enc (x : Symbol) : encode (.enc x) = 0x50000000#32 ||| x.setWidth 32 := by
  have hx := x.isLt
  rw [encode, commandWord_eq_or .enc (by omega), BitVec.ofNat_toNat]
  rfl

/-- The decoder reads an ENC of a symbol in range from its word (R106, R108). -/
theorem decode_encode_enc {cfg : Config} {x : Symbol} (h : x.toNat < 2 ^ cfg.symW) :
    decode cfg (encode (.enc x)) = .instr (.enc x) := by
  obtain ⟨hopc, hreserved⟩ := Laws.EncodeShape.enc x
  have hfield : (encode (.enc x)).toNat % 2 ^ 21 = x.toNat := by
    have hx := x.isLt
    rw [encode_toNat]
    dsimp only
    omega
  rw [decode_of_fields cfg _ .enc hopc hreserved (fun _ => by rwa [hfield]), Op.assemble, symField_eq_ofNat, hfield,
    BitVec.ofNat_toNat, BitVec.setWidth_eq]

end Sys2Proof

namespace Sys2Proof.Machine

/-! ### ENC -/

/-- ENC checks the range of its symbol before anything else (R106). -/
theorem exec_enc_outOfRange {s : State} {x : Symbol} (h : 2 ^ s.cfg.symW ≤ x.toNat) :
    exec (.enc x) s = .next (s.raise .illegalOperand) :=
  if_neg (by rw [symInRange_iff]; omega)

theorem exec_enc_inRange {s : State} {x : Symbol} (h : x.toNat < 2 ^ s.cfg.symW) :
    exec (.enc x) s = .next (s.encSym x) :=
  if_pos ((symInRange_iff _ _).2 h)

/-- Without a table there is no code to return, whatever the symbol (R134, R172). -/
theorem encSym_notBuilt {s : State} (x : Symbol) (htag : s.ctag = .none) : s.encSym x = s.raise .notBuilt := if_pos htag

theorem encSym_unknownSymbol {s : State} {x : Symbol} (htag : s.ctag ≠ .none) (hnew : x ∉ s.ft.map Entry.sym) :
    s.encSym x = s.raise .unknownSymbol := by
  simp [State.encSym, htag, findEntry_none.2 hnew]

/-- An entry's symbol is answered with the count and the code of the entry's place (R172). -/
theorem encSym_found {s : State} {x : Symbol} {before after : List Entry} {n : Nat} (htag : s.ctag ≠ .none)
    (hft : s.ft = before ++ ⟨x, n⟩ :: after) (hfirst : x ∉ before.map Entry.sym) :
    s.encSym x = s.finishWith ⟨x, n, s.codeAt before.length⟩ := by
  have hfound : findEntry s.ft x = some before.length := hft ▸ findEntry_split hfirst
  have hcnt : s.cntAt before.length = n := by simp [State.cntAt, hft]
  simp [State.encSym, htag, hfound, hcnt]

/-- Settles O45: one lemma per branch of the rule, then the branch's state written out. -/
theorem encFollowsItsRule : Obligations.EncFollowsItsRule := by
  refine ⟨encode_enc, fun s x => ⟨fun hout => ?_, fun hin htag => ?_,
    fun hin htag => ⟨fun hnew => ?_, fun before after n c hft hfirst hc => ?_⟩⟩⟩
  · rw [exec_enc_outOfRange hout, State.raise_eq]
  · rw [exec_enc_inRange hin, encSym_notBuilt x htag, State.raise_eq]
  · rw [exec_enc_inRange hin, encSym_unknownSymbol htag hnew, State.raise_eq]
  · have hcode : s.codeAt before.length = c := by simp [State.codeAt, hc]
    rw [exec_enc_inRange hin, encSym_found htag hft hfirst, hcode, State.finishWith_eq]

end Sys2Proof.Machine

namespace Sys2Proof.Machine

/-! ### A command issued by the host -/

/-- On an idle unit the CMD write is latched and the engine takes it next (R61, R62). -/
theorem issueWord_of_idle {s : State} (w : Word) (hp : s.pend = none) :
    issueWord w s = engineStep { s with pend := some w } := by
  have hwrite : runTurn (busWriteTurn s.cfg 0x0C w) s = .next { s with pend := some w } :=
    congrArg _ (((access_word s (off := 0x0C) (by decide) (by decide)).2 w).trans (writeCmd_idle s w hp))
  rw [issueWord, runTurns, hwrite]
  change andThen (engineStep { s with pend := some w }) (runTurns []) = _
  cases engineStep { s with pend := some w } <;> rfl

/-- An issued command that the decoder reads from its own word is executed on the latched state, and the latch emptied. -/
theorem issue_of_idle {s : State} {i : Instr} (hp : s.pend = none) (hd : decode s.cfg (encode i) = .instr i) :
    issue i s = retireOutcome (exec i { s with pend := some (encode i) }) := by
  rw [issue, issueWord_of_idle _ hp, engineStep_of_pend rfl, hd]
  rfl

/-- STATUS.ERR is the outcome code: every field below it stays below bit 8 (R35, R38). -/
theorem errField_status (s : State) : errField s.status = s.err.toByte := by
  have hbits : ∀ b : Bool, b.toNat ≤ 1 := Bool.toNat_le
  have hbusy := hbits s.busy
  have hvalid := hbits s.tableValid
  have halg : s.ctag.alg.toNat ≤ 2 := by cases s.ctag <;> decide
  have hsym := hbits s.symValid
  have hdead := hbits s.ddead
  have hlost := hbits s.seqLost
  have hoverrun := hbits s.overrun
  have herr := s.err.toByte.isLt
  apply BitVec.eq_of_toNat_eq
  rw [errField, State.status, BitVec.extractLsb'_toNat, BitVec.toNat_ofNat, Nat.shiftRight_eq_div_pow]
  omega

/-- The host reads back the whole result code when the registers hold it (R41, R175). -/
theorem readCode_eq {s : State} (h : s.resCode.length ≤ 512) : readCode s = s.resCode := by
  have hlen : (s.regValue .resultLen).toNat = s.resCode.length := by
    rw [State.regValue, BitVec.toNat_ofNat]
    omega
  rw [readCode, unpackDigits, hlen]
  refine List.ext_getElem (by simp) fun j hj hj' => ?_
  have hword : s.regValue (.resultCode (Fin.ofNat 16 (j / 32))) = packWord s.resCode (j / 32) :=
    congrArg (packWord s.resCode) (Nat.mod_eq_of_lt (show j / 32 < 16 by omega))
  rw [List.getElem_map, List.getElem_range, hword, packWord_bit _ _ _ (by omega), Nat.div_add_mod,
    List.getD_eq_getElem _ _ hj']

/-! ### ENC issued by the host -/

/-- ENC changes nothing but the completion's fields (R172): wiping them hides that it ran. -/
theorem encSym_finishOk (s : State) (x : Symbol) : (s.encSym x).finishOk = s.finishOk := by
  unfold State.encSym
  split
  · rfl
  · split <;> rfl

/-- States that differ in the completion's fields alone agree in all that an encode uses or must leave. -/
theorem kept_of_finishOk_eq {s t : State} (h : t.finishOk = s.finishOk) :
    t.cfg = s.cfg ∧ t.pend = s.pend ∧ t.ft = s.ft ∧ t.ct = s.ct ∧ t.ctag = s.ctag ∧ t.dbuf = s.dbuf ∧ t.ddead = s.ddead := by
  simp only [State.finishOk_eq, State.mk.injEq] at h
  tauto

/-- ENC does not look at the latch. -/
theorem encSym_withPend (s : State) (x : Symbol) (p : Option Word) :
    State.encSym { s with pend := p } x = { s.encSym x with pend := p } := by
  simp only [State.encSym]
  split
  · rfl
  · cases findEntry s.ft x <;> rfl

theorem issue_enc {s : State} {x : Symbol} (hp : s.pend = none) (hx : x.toNat < 2 ^ s.cfg.symW) :
    issue (.enc x) s = .next (s.encSym x) := by
  obtain ⟨-, hpend, -⟩ := kept_of_finishOk_eq (encSym_finishOk s x)
  have hidle : (s.encSym x).pend = none := hpend.trans hp
  rw [issue_of_idle hp (decode_encode_enc hx), exec_enc_inRange (s := { s with pend := some (encode (.enc x)) }) hx,
    encSym_withPend]
  change Host.Outcome.next { s.encSym x with pend := none } = _
  rw [← hidle]

/-! ### The code of a symbol -/

/-- The code of a symbol's first entry, and the empty string for a symbol without one: what `State.table` answers. -/
def codeFor (ft : List Entry) (ct : List Code) (x : Symbol) : Code := (((ft.map Entry.sym).zip ct).lookup x).getD []

theorem codeFor_cons_self (e : Entry) (ft : List Entry) (c : Code) (ct : List Code) :
    codeFor (e :: ft) (c :: ct) e.sym = c := by simp [codeFor]

theorem codeFor_cons_of_ne {e : Entry} {x : Symbol} (h : x ≠ e.sym) (ft : List Entry) (c : Code) (ct : List Code) :
    codeFor (e :: ft) (c :: ct) x = codeFor ft ct x := by
  rw [codeFor, List.map_cons, List.zip_cons_cons, List.lookup_cons, beq_false_of_ne h]
  rfl

/-- The code of a symbol stands at its first entry's index (R44). -/
theorem codeFor_split {before : List Entry} {x : Symbol} (hfirst : x ∉ before.map Entry.sym) (n : Nat)
    (after : List Entry) (ct : List Code) :
    codeFor (before ++ ⟨x, n⟩ :: after) ct x = ct.getD before.length [] := by
  induction before generalizing ct with
  | nil => cases ct <;> simp [codeFor]
  | cons e before ih =>
    simp only [List.map_cons, List.mem_cons, not_or] at hfirst
    cases ct with
    | nil => simp [codeFor]
    | cons c ct =>
      rw [List.cons_append, codeFor_cons_of_ne hfirst.1, ih hfirst.2, List.length_cons, List.getD_cons_succ]

theorem codeFor_length_le {ct : List Code} {m : Nat} (h : ∀ c ∈ ct, c.length ≤ m) (ft : List Entry) (x : Symbol) :
    (codeFor ft ct x).length ≤ m := by
  rw [codeFor]
  cases hc : ((ft.map Entry.sym).zip ct).lookup x with
  | none => exact Nat.zero_le m
  | some c =>
    obtain ⟨before, after, hsplit, -⟩ := List.lookup_eq_some_iff.1 hc
    have hmem : (x, c) ∈ (ft.map Entry.sym).zip ct := hsplit ▸ List.mem_append_right before List.mem_cons_self
    exact h c (List.of_mem_zip hmem).2

/-- ENC answers an entry's symbol with its code (R172). -/
theorem encSym_of_mem {s : State} {x : Symbol} (htag : s.ctag ≠ .none) (hx : x ∈ s.ft.map Entry.sym) :
    ∃ n, s.encSym x = s.finishWith ⟨x, n, codeFor s.ft s.ct x⟩ := by
  obtain ⟨i, hi⟩ := Option.ne_none_iff_exists'.1 (mt findEntry_none.1 (not_not.2 hx))
  obtain ⟨before, after, n, hft, hfirst, -⟩ := findEntry_some hi
  refine ⟨n, ?_⟩
  rw [encSym_found htag hft hfirst, State.codeAt, ← codeFor_split hfirst n after, ← hft]

/-! ### The host's encode -/

/-- An idle unit with a table whose symbols are in range and whose codes fit the result registers: what the host's encode
needs of the state, and all of it outside the completion's fields. -/
structure EncodeReady (s : State) : Prop where
  idle : s.pend = none
  built : s.ctag ≠ .none
  symRange : ∀ x ∈ s.ft.map Entry.sym, x.toNat < 2 ^ s.cfg.symW
  codesFit : ∀ c ∈ s.ct, c.length ≤ 512

theorem encodeReady_of_inv {s : State} (h : Inv s) (htag : s.ctag ≠ .none) (hp : s.pend = none) : EncodeReady s where
  idle := hp
  built := htag
  symRange := List.forall_mem_map.2 h.ftInv.symRange
  codesFit := fun c hc => (h.tableInv.codeLengths htag c hc).2.trans (maxCodeLen_le_512 h.cfgWf)

/-- ENC leaves everything an encode needs. -/
theorem EncodeReady.encSym {s : State} (h : EncodeReady s) (x : Symbol) : EncodeReady (s.encSym x) := by
  have hwiped : EncodeReady (s.encSym x).finishOk := encSym_finishOk s x ▸ ⟨h.idle, h.built, h.symRange, h.codesFit⟩
  exact ⟨hwiped.idle, hwiped.built, hwiped.symRange, hwiped.codesFit⟩

/-- Puts digits before the bit string of an answer; an error stays that error. -/
def prependAnswer (p : Code) (o : Host.Outcome (HostAnswer Code) Fault Refusal) :
    Host.Outcome (HostAnswer Code) Fault Refusal :=
  andThen o fun a => .next (a.1.map (p ++ ·), a.2)

theorem prependAnswer_nil (o : Host.Outcome (HostAnswer Code) Fault Refusal) : prependAnswer [] o = o := by
  rcases o with ⟨_ | _, t⟩ | _ | _ <;> rfl

theorem prependAnswer_prependAnswer (p r : Code) (o : Host.Outcome (HostAnswer Code) Fault Refusal) :
    prependAnswer p (prependAnswer r o) = prependAnswer (p ++ r) o := by
  rcases o with ⟨_ | bits, t⟩ | _ | _
  case next.ok => simp [prependAnswer, andThen, Except.map]
  all_goals rfl

/-- A symbol with an entry puts its code before the encoding of the rest (R175). -/
theorem encodeSeq_cons_of_mem {s : State} {x : Symbol} (h : EncodeReady s) (hx : x ∈ s.ft.map Entry.sym)
    (xs : List Symbol) :
    encodeSeq (x :: xs) s = prependAnswer (codeFor s.ft s.ct x) (encodeSeq xs (s.encSym x)) := by
  obtain ⟨n, hn⟩ := encSym_of_mem h.built hx
  have hok : errField ((s.encSym x).regValue .status) = 0#8 := (errField_status _).trans (by rw [hn]; rfl)
  have hread : readCode (s.encSym x) = codeFor s.ft s.ct x := by
    rw [hn, readCode_eq (codeFor_length_le h.codesFit s.ft x), State.finishWith_resCode]
  rw [encodeSeq, issue_enc h.idle (h.symRange x hx), andThen, if_neg (not_not.2 hok), hread, prependAnswer]

/-- A symbol without an entry ends the encode with UnknownSymbol (R175). -/
theorem encodeSeq_cons_of_not_mem {s : State} {x : Symbol} (h : EncodeReady s) (hx : x ∉ s.ft.map Entry.sym)
    (hr : x.toNat < 2 ^ s.cfg.symW) (xs : List Symbol) :
    encodeSeq (x :: xs) s = .next (.error 1#8, s.raise .unknownSymbol) := by
  have herr : errField ((s.raise .unknownSymbol).regValue .status) = 1#8 := errField_status _
  rw [encodeSeq, issue_enc h.idle hr, encSym_unknownSymbol h.built hx, andThen, herr, if_pos (by decide)]

/-- Symbols with entries put the concatenation of their codes before the encoding of whatever follows, and leave all but the
completion's fields (R174, R175). -/
theorem exists_encodeSeq_append {s : State} (h : EncodeReady s) {seq : List Symbol}
    (hseq : ∀ x ∈ seq, x ∈ s.ft.map Entry.sym) :
    ∃ t, EncodeReady t ∧ t.finishOk = s.finishOk ∧
      ∀ rest, encodeSeq (seq ++ rest) s = prependAnswer (seq.map (codeFor s.ft s.ct)).flatten (encodeSeq rest t) := by
  induction seq generalizing s with
  | nil => exact ⟨s, h, rfl, fun rest => (prependAnswer_nil _).symm⟩
  | cons x seq ih =>
    obtain ⟨hx, hseq⟩ := List.forall_mem_cons.1 hseq
    obtain ⟨-, -, hft, hct, -⟩ := kept_of_finishOk_eq (encSym_finishOk s x)
    obtain ⟨t, hready, hkept, henc⟩ := ih (h.encSym x) (hft.symm ▸ hseq)
    refine ⟨t, hready, hkept.trans (encSym_finishOk s x), fun rest => ?_⟩
    rw [List.cons_append, encodeSeq_cons_of_mem h hx, henc, prependAnswer_prependAnswer, hft, hct, List.map_cons,
      List.flatten_cons]

/-! ### The length of an encoded sequence -/

theorem mem_firstOccurrences {x : Symbol} {seq : List Symbol} : x ∈ firstOccurrences seq ↔ x ∈ seq := by
  induction seq with
  | nil => rfl
  | cons y seq ih =>
    rw [firstOccurrences, List.mem_cons, List.mem_filter, ih, List.mem_cons, decide_eq_true_eq]
    tauto

theorem firstOccurrences_nodup (seq : List Symbol) : (firstOccurrences seq).Nodup := by
  induction seq with
  | nil => exact List.nodup_nil
  | cons y seq ih => exact List.nodup_cons.2 ⟨by simp, ih.filter _⟩

theorem frequencyTable_syms (seq : List Symbol) : (frequencyTable seq).map Entry.sym = firstOccurrences seq := by
  simp [frequencyTable, Function.comp_def]

/-- A sum over a sequence collects equal symbols in its frequency table (R136). -/
theorem sum_frequencyTable (seq : List Symbol) (f : Symbol → Nat) :
    ((frequencyTable seq).map (fun e => e.cnt * f e.sym)).sum = (seq.map f).sum := by
  have hset : (firstOccurrences seq).toFinset = seq.toFinset := by
    ext x
    simp only [List.mem_toFinset, mem_firstOccurrences]
  rw [Finset.sum_list_map_count seq f, ← hset, List.sum_toFinset _ (firstOccurrences_nodup seq)]
  simp [frequencyTable, Function.comp_def]

/-- With distinct symbols SUMWL's sum pairs each count with its symbol's own code (R39, R43). -/
theorem weightedLength_eq_sum_codeFor {ft : List Entry} (hnodup : (ft.map Entry.sym).Nodup) (ct : List Code) :
    weightedLength ft ct = (ft.map (fun e => e.cnt * (codeFor ft ct e.sym).length)).sum := by
  induction ft generalizing ct with
  | nil => rfl
  | cons e ft ih =>
    obtain ⟨hnew, hnodup⟩ := List.nodup_cons.1 hnodup
    cases ct with
    | nil => simp [weightedLength, codeFor]
    | cons c ct =>
      have hrest : ∀ d ∈ ft, d.cnt * (codeFor (e :: ft) (c :: ct) d.sym).length = d.cnt * (codeFor ft ct d.sym).length :=
        fun d hd => by rw [codeFor_cons_of_ne (fun heq => hnew (heq ▸ List.mem_map_of_mem hd))]
      rw [weightedLength, ih hnodup, List.map_cons, List.sum_cons, codeFor_cons_self, List.map_congr_left hrest]

/-- A sequence's own table encodes it in SUMWL digits (R39, R176). -/
theorem encoded_length_eq_weightedLength (seq : List Symbol) (ct : List Code) :
    (seq.map (codeFor (frequencyTable seq) ct)).flatten.length = weightedLength (frequencyTable seq) ct := by
  have hnodup : ((frequencyTable seq).map Entry.sym).Nodup := frequencyTable_syms seq ▸ firstOccurrences_nodup seq
  rw [weightedLength_eq_sum_codeFor hnodup, sum_frequencyTable seq (fun x => (codeFor _ ct x).length),
    List.length_flatten, List.map_map]
  rfl

/-- Settles O55: the known symbols are encoded before whatever follows, which is nothing or a symbol without an entry. -/
theorem encodeConcatenatesTheCodes : Obligations.EncodeConcatenatesTheCodes := by
  intro s seq hinv htag hp hseq
  obtain ⟨t, hready, hkept, henc⟩ := exists_encodeSeq_append (encodeReady_of_inv hinv htag hp) hseq
  obtain ⟨hcfg, -, hft, hct, htag', hdbuf, hddead⟩ := kept_of_finishOk_eq hkept
  refine ⟨⟨(seq.map (codeFor s.ft s.ct)).flatten, t, ?_, rfl, hft, hct, htag', hdbuf, hddead, hready.idle, fun hown => ?_⟩,
    fun x after hx hr => ⟨t.raise .unknownSymbol, ?_⟩⟩
  · simpa [encodeSeq, prependAnswer, andThen, Except.map] using henc []
  · rw [sumwl_of_tableValid (decide_eq_true htag), ← hown, encoded_length_eq_weightedLength]
  · rw [henc, encodeSeq_cons_of_not_mem hready (hft.symm ▸ hx) (hcfg.symm ▸ hr)]
    rfl

end Sys2Proof.Machine

namespace Sys2Proof

/-! ### The words of DEC_BIT and DEC_END -/

/-- The words of DEC_BIT: its opcode with the digit in bit 0 (R101, R103). -/
theorem encode_decBit (b : Digit) : encode (.decBit b) = if b then 0x60000001#32 else 0x60000000#32 := by
  cases b <;> rfl

/-- The decoder reads a DEC_BIT from its word in every configuration (R105, R108). -/
theorem decode_encode_decBit (cfg : Config) (b : Digit) : decode cfg (encode (.decBit b)) = .instr (.decBit b) := by
  obtain ⟨hopc, hreserved⟩ := Laws.EncodeShape.decBit b
  have hfield : bitField (encode (.decBit b)) = b := by cases b <;> rfl
  rw [decode_of_fields cfg _ .decBit hopc hreserved nofun, Op.assemble, hfield]

/-- The decoder reads a DEC_END from its word in every configuration (R105, R108). -/
theorem decode_encode_decEnd (cfg : Config) : decode cfg (encode .decEnd) = .instr .decEnd :=
  (decode_formN_iff (op := .decEnd) rfl cfg _).2 rfl

end Sys2Proof

namespace Sys2Proof.Machine

/-! ### DEC_END -/

/-- Without a table there is nothing to decode with (R134, R182). -/
theorem exec_decEnd_notBuilt {s : State} (htag : s.ctag = .none) : exec .decEnd s = .next (s.raise .notBuilt) :=
  if_pos htag

theorem exec_decEnd_incomplete {s : State} (htag : s.ctag ≠ .none) (hbuf : s.dbuf ≠ []) :
    exec .decEnd s = .next (s.emptyDecoder.raise .incompleteCode) :=
  (if_neg htag).trans (if_pos hbuf)

theorem exec_decEnd_complete {s : State} (htag : s.ctag ≠ .none) (hbuf : s.dbuf = []) :
    exec .decEnd s = .next s.finishOk :=
  (if_neg htag).trans (if_neg (not_not.2 hbuf))

/-- Settles O47: form N with opcode 7, and one lemma per branch of the rule. -/
theorem decEndReportsTheBuffer : Obligations.DecEndReportsTheBuffer := by
  refine ⟨decode_formN_iff (op := .decEnd) rfl, fun s => ⟨fun htag => ?_, fun htag hbuf => ?_, fun htag hbuf => ?_⟩⟩
  · rw [exec_decEnd_notBuilt htag, State.raise_eq]
  · rw [exec_decEnd_incomplete htag hbuf, State.raise_eq, State.emptyDecoder_eq]
  · rw [exec_decEnd_complete htag hbuf, State.finishOk_eq]

/-! ### DEC_BIT -/

/-- What a valid table is to the decoder: one code for each entry, and no code the beginning of another (R44). -/
structure ValidTable (s : State) : Prop where
  built : s.ctag ≠ .none
  oneCodeEach : s.ct.length = s.ft.length
  prefixFree : PrefixFree s.ct

theorem validTable_of_inv {s : State} (h : Inv s) (htag : s.ctag ≠ .none) : ValidTable s :=
  ⟨htag, h.tableInv.oneCodeEach htag, h.tableInv.prefixFree htag⟩

theorem ValidTable.of_eq {s t : State} (h : ValidTable s) (hft : t.ft = s.ft) (hct : t.ct = s.ct) (htag : t.ctag = s.ctag) :
    ValidTable t where
  built := htag ▸ h.built
  oneCodeEach := by rw [hct, hft, h.oneCodeEach]
  prefixFree := hct ▸ h.prefixFree

theorem ValidTable.codes_eq {s : State} (h : ValidTable s) : s.codes = s.ct := Machine.codes_eq s h.oneCodeEach

theorem exec_decBit_notBuilt {s : State} (b : Digit) (htag : s.ctag = .none) :
    exec (.decBit b) s = .next (s.raise .notBuilt) := if_pos htag

theorem exec_decBit_emptyTable {s : State} (b : Digit) (htag : s.ctag ≠ .none) (hft : s.ft = []) :
    exec (.decBit b) s = .next (s.raise .emptyCodeTable) :=
  (if_neg htag).trans (if_pos (List.length_eq_zero_iff.2 hft))

/-- A dead buffer discards the digit (R180, R181). -/
theorem exec_decBit_dead {s : State} (b : Digit) (htag : s.ctag ≠ .none) (hft : s.ft ≠ []) (hdead : s.ddead = true) :
    exec (.decBit b) s = .next s.finishOk :=
  (if_neg htag).trans ((if_neg (mt List.length_eq_zero_iff.1 hft)).trans (if_pos hdead))

/-- A live buffer scans the digit after those it holds (R180). -/
theorem exec_decBit_live {s : State} (b : Digit) (htag : s.ctag ≠ .none) (hft : s.ft ≠ []) (hlive : s.ddead = false) :
    exec (.decBit b) s = .next (s.feed (s.dbuf ++ [b])) :=
  (if_neg htag).trans ((if_neg (mt List.length_eq_zero_iff.1 hft)).trans (if_neg (Bool.eq_false_iff.1 hlive)))

/-- The code of an entry, whichever it is, emits that entry and empties the buffer: no other entry has it (R180, R184). -/
theorem feed_code {s : State} (hv : ValidTable s) {nb : Code} {i : Nat} {e : Entry} (he : s.ft[i]? = some e)
    (hc : s.ct[i]? = some nb) : s.feed nb = { s with dbuf := [] }.finishEmit ⟨e.sym, e.cnt, nb⟩ := by
  have hmatch : s.matchCode nb = some i :=
    matchCode_of_prefixFree s nb (hv.codes_eq.symm ▸ hv.prefixFree) i (hv.codes_eq.symm ▸ hc)
  have hrow : s.row i = ⟨e.sym, e.cnt, nb⟩ := by simp [State.row, State.symAt, State.cntAt, State.codeAt, he, hc]
  rw [State.feed, hmatch, ← hrow]

/-- A proper beginning of a code waits in the buffer (R180). -/
theorem feed_properPrefix {s : State} (hv : ValidTable s) {nb : Code} (hnew : nb ∉ s.ct) (hext : ∃ c ∈ s.ct, nb <+: c) :
    s.feed nb = { s with dbuf := nb }.finishOk := by
  have hmatch : s.matchCode nb = none := (matchCode_none s nb).2 (hv.codes_eq.symm ▸ hnew)
  have hextendable : s.extendable nb = true := (extendable_iff s nb).2 (hv.codes_eq.symm ▸ hext)
  rw [State.feed, hmatch]
  exact if_pos hextendable

/-- A string that begins no code is kept, and the buffer is dead (R180, R181). -/
theorem feed_noPrefix {s : State} (hv : ValidTable s) {nb : Code} (hnone : ∀ c ∈ s.ct, ¬ nb <+: c) :
    s.feed nb = { s with dbuf := nb, ddead := true }.finishOk := by
  have hmatch : s.matchCode nb = none :=
    (matchCode_none s nb).2 (hv.codes_eq.symm ▸ fun hmem => hnone nb hmem List.prefix_rfl)
  have hextendable : ¬ s.extendable nb = true := by
    rw [extendable_iff, hv.codes_eq]
    push Not
    exact hnone
  rw [State.feed, hmatch]
  exact if_neg hextendable

/-- Settles O46: one lemma per test of the rule, and on a live buffer one per outcome of the scan. -/
theorem decBitFollowsItsRule : Obligations.DecBitFollowsItsRule := by
  refine ⟨encode_decBit, fun s b hinv => ⟨fun htag => ?_, fun htag hft => ?_, fun htag hft hdead => ?_,
    fun htag hft hlive => ?_⟩⟩
  · rw [exec_decBit_notBuilt b htag, State.raise_eq]
  · rw [exec_decBit_emptyTable b htag hft, State.raise_eq]
  · rw [exec_decBit_dead b htag hft hdead, State.finishOk_eq]
  · have hv := validTable_of_inv hinv htag
    rw [exec_decBit_live b htag hft hlive]
    refine ⟨fun i e he hc => ?_, fun hnew hext => ?_, fun hnone => ?_⟩
    · rw [feed_code hv he hc, State.finishEmit_eq]
    · rw [feed_properPrefix hv hnew hext, State.finishOk_eq]
    · rw [feed_noPrefix hv hnone, State.finishOk_eq]

end Sys2Proof.Machine

namespace Sys2Proof.Machine

/-! ### Commands do not look at the latch -/

theorem loadSym_withPend (s : State) (x : Symbol) (p : Option Word) :
    State.loadSym { s with pend := p } x = { s.loadSym x with pend := p } := by
  have htotal : State.total { s with pend := p } = s.total := rfl
  simp only [State.loadSym, htotal]
  split
  · rfl
  · split
    · rfl
    · cases findEntry s.ft x with
      | none => dsimp only; split <;> rfl
      | some i => rfl

theorem feed_withPend (s : State) (nb : Code) (p : Option Word) :
    State.feed { s with pend := p } nb = { s.feed nb with pend := p } := by
  have hmatch : State.matchCode { s with pend := p } nb = s.matchCode nb := rfl
  have hextendable : State.extendable { s with pend := p } nb = s.extendable nb := rfl
  simp only [State.feed, hmatch, hextendable]
  cases s.matchCode nb with
  | none => dsimp only; split <;> rfl
  | some i => rfl

/-- What a command does is the same whatever the latch holds (R62): the engine alone reads and empties it. -/
theorem exec_withPend (i : Instr) (s : State) (p : Option Word) :
    exec i { s with pend := p } = andThen (exec i s) fun t => .next { t with pend := p } := by
  cases i with
  | nop => rfl
  | clear => rfl
  | loadSym x =>
    simp only [exec, execLoadSym, loadSym_withPend]
    split <;> rfl
  | buildSf =>
    simp only [exec, execBuildSf]
    split <;> rfl
  | buildHuff =>
    simp only [exec, execBuildHuff]
    split <;> rfl
  | enc x =>
    simp only [exec, execEnc, encSym_withPend]
    split <;> rfl
  | decBit b =>
    simp only [exec, execDecBit, feed_withPend]
    split
    · rfl
    · split
      · rfl
      · split <;> rfl
  | decEnd =>
    simp only [exec, execDecEnd]
    split
    · rfl
    · split <;> rfl
  | query idx =>
    simp only [exec, execQuery]
    split
    · rfl
    · split <;> rfl

/-- A command leaves the latch to the engine (R62). -/
theorem pend_of_exec {i : Instr} {s t : State} (h : exec i s = .next t) : t.pend = s.pend := by
  have hkept : t = { t with pend := s.pend } :=
    Host.Outcome.next.inj (h.symm.trans ((exec_withPend i s s.pend).trans (by rw [h]; rfl)))
  rw [hkept]

/-- On an idle unit an issued command does what its meaning says (R61, R62, R111). -/
theorem issue_of_exec {i : Instr} {s t : State} (hp : s.pend = none) (hd : decode s.cfg (encode i) = .instr i)
    (h : exec i s = .next t) : issue i s = .next t := by
  rw [issue_of_idle hp hd, exec_withPend, h]
  change Host.Outcome.next { t with pend := none } = _
  rw [← hp, ← pend_of_exec h]

/-! ### What the host reads of an emission -/

/-- STATUS.SYM_VALID is bit 4: the fields below it fill bits 3:0 and the others stand above (R35). -/
theorem symValidField_status (s : State) : symValidField s.status = s.symValid := by
  have hbits : ∀ b : Bool, b.toNat ≤ 1 := Bool.toNat_le
  have hbusy := hbits s.busy
  have hvalid := hbits s.tableValid
  have halg : s.ctag.alg.toNat ≤ 2 := by cases s.ctag <;> decide
  have hsym := hbits s.symValid
  have hbit : (s.busy.toNat + s.tableValid.toNat * 2 ^ 1 + s.ctag.alg.toNat * 2 ^ 2 + s.symValid.toNat * 2 ^ 4 +
      s.ddead.toNat * 2 ^ 5 + s.seqLost.toNat * 2 ^ 6 + s.overrun.toNat * 2 ^ 7 + s.err.toByte.toNat * 2 ^ 8) / 2 ^ 4 % 2 =
      s.symValid.toNat := by omega
  rw [symValidField, State.status, BitVec.getLsbD_ofNat, Nat.testBit_eq_decide_div_mod_eq, hbit]
  cases s.symValid <;> rfl

theorem readSym_eq (s : State) : readSym s = s.resSym := by simp [readSym, State.regValue]

end Sys2Proof.Machine

namespace Sys2Proof.Machine

/-! ### The host's decode, one command at a time -/

/-- A DEC_BIT that completes OK hands the rest of the digits on, and its symbol, if it emitted one, comes first (R186). -/
theorem decodeSeq_cons_of_ok {s t : State} {d : Digit} (hp : s.pend = none) (h : exec (.decBit d) s = .next t)
    (hok : t.err = .ok) (ds : Code) :
    decodeSeq (d :: ds) s = andThen (decodeSeq ds t) fun a =>
      .next (a.1.map (fun out => if t.symValid then t.resSym :: out else out), a.2) := by
  have herr : errField (t.regValue .status) = 0#8 := (errField_status t).trans (by rw [hok]; rfl)
  have hvalid : symValidField (t.regValue .status) = t.symValid := symValidField_status t
  rw [decodeSeq, issue_of_exec hp (decode_encode_decBit s.cfg d) h, andThen, if_neg (not_not.2 herr), hvalid, readSym_eq]

/-- A DEC_BIT that completes with an error ends the decode (R186). -/
theorem decodeSeq_cons_of_error {s t : State} {d : Digit} (hp : s.pend = none) (h : exec (.decBit d) s = .next t)
    (herr : t.err.toByte ≠ 0#8) (ds : Code) : decodeSeq (d :: ds) s = .next (.error t.err.toByte, t) := by
  have hfield : errField (t.regValue .status) = t.err.toByte := errField_status t
  rw [decodeSeq, issue_of_exec hp (decode_encode_decBit s.cfg d) h, andThen, hfield, if_pos herr]

/-- The end of the digits is DEC_END's outcome (R186). -/
theorem decodeSeq_nil_of_exec {s t : State} (hp : s.pend = none) (h : exec .decEnd s = .next t) :
    decodeSeq [] s = .next (if t.err.toByte = 0#8 then .ok [] else .error t.err.toByte, t) := by
  have hfield : errField (t.regValue .status) = t.err.toByte := errField_status t
  rw [decodeSeq, issue_of_exec hp (decode_encode_decEnd s.cfg) h, andThen, hfield]
  by_cases herr : t.err.toByte = 0#8
  · rw [if_neg (not_not.2 herr), if_pos herr]
  · rw [if_pos herr, if_neg herr]

/-! ### The document's buffer scan -/

/-- The entry of the table whose code is `c`, if there is one: what the scan looks for at every digit (R187). -/
def codeEntry (table : List (Symbol × Code)) (c : Code) : Option (Symbol × Code) :=
  table.find? (fun p => decide (p.2 = c))

theorem bufferScan_emit {table : List (Symbol × Code)} {buf : Code} {d : Digit} {p : Symbol × Code}
    (h : codeEntry table (buf ++ [d]) = some p) (ds : Code) :
    bufferScan table buf (d :: ds) = (p.1 :: (bufferScan table [] ds).1, (bufferScan table [] ds).2) := by
  rw [codeEntry] at h
  rw [bufferScan, h]

theorem bufferScan_wait {table : List (Symbol × Code)} {buf : Code} {d : Digit}
    (h : codeEntry table (buf ++ [d]) = none) (ds : Code) :
    bufferScan table buf (d :: ds) = bufferScan table (buf ++ [d]) ds := by
  rw [codeEntry] at h
  rw [bufferScan, h]

/-- What decode answers for the outcome of a scan: its symbols, or IncompleteCode when digits are left over (R187). -/
def scanAnswer (r : List Symbol × Code) : Except (BitVec 8) (List Symbol) := if r.2 = [] then .ok r.1 else .error 2#8

theorem scanAnswer_cons (x : Symbol) (r : List Symbol × Code) :
    scanAnswer (x :: r.1, r.2) = (scanAnswer r).map (x :: ·) := by
  rw [scanAnswer, scanAnswer]
  split <;> rfl

/-- The codes of a valid table's rows are its code table. -/
theorem ValidTable.table_snd {s : State} (h : ValidTable s) : s.table.map Prod.snd = s.ct :=
  List.map_snd_zip (by rw [List.length_map, h.oneCodeEach])

/-- No row has a string that is no code. -/
theorem ValidTable.codeEntry_none {s : State} (h : ValidTable s) {c : Code} :
    codeEntry s.table c = none ↔ c ∉ s.ct := by
  simp only [← h.table_snd, codeEntry, List.find?_eq_none, List.mem_map, decide_eq_true_eq, not_exists, not_and]

/-- A row is an entry's symbol with the code at that entry's index (R44). -/
theorem exists_entry_of_codeEntry {s : State} {c : Code} {p : Symbol × Code} (h : codeEntry s.table c = some p) :
    ∃ (i : Nat) (e : Entry), s.ft[i]? = some e ∧ e.sym = p.1 ∧ s.ct[i]? = some c := by
  obtain ⟨i, hi⟩ := List.mem_iff_getElem?.1 (List.mem_of_find?_eq_some h)
  have hcode : p.2 = c := by simpa using List.find?_some h
  rw [State.table, List.getElem?_zip_eq_some, List.getElem?_map, Option.map_eq_some_iff] at hi
  obtain ⟨⟨e, he, hsym⟩, hc⟩ := hi
  exact ⟨i, e, he, hsym, hcode ▸ hc⟩

/-! ### The unit follows the scan -/

/-- The unit's decoder stands where the scan's buffer does: they hold the same digits, or both hold digits that no code can
match any more; the unit's dead buffer stays as it is while the scan's grows (R181, R187). -/
inductive Follows (s : State) (buf : Code) : Prop where
  | live (hlive : s.ddead = false) (hbuf : s.dbuf = buf)
  | dead (hdead : s.ddead = true) (hkept : s.dbuf ≠ []) (hbuf : buf ≠ []) (hnone : ∀ c ∈ s.ct, ¬ buf <+: c)

/-- A digit that completes a code for the scan is emitted by the unit. -/
theorem exec_decBit_of_emit {s : State} (hv : ValidTable s) {buf : Code} (hf : Follows s buf) {d : Digit}
    {p : Symbol × Code} (h : codeEntry s.table (buf ++ [d]) = some p) :
    ∃ t, exec (.decBit d) s = .next t ∧ t.err = .ok ∧ t.symValid = true ∧ t.resSym = p.1 ∧ Follows t [] := by
  obtain ⟨i, e, he, hsym, hc⟩ := exists_entry_of_codeEntry h
  cases hf with
  | dead hdead hkept hbuf hnone =>
    exact absurd (List.prefix_append buf [d]) (hnone _ (List.mem_of_getElem? hc))
  | live hlive hbuf =>
    subst hbuf
    refine ⟨_, (exec_decBit_live d hv.built (List.ne_nil_of_mem (List.mem_of_getElem? he)) hlive).trans
      (congrArg _ (feed_code hv he hc)), ?_, ?_, ?_, .live ?_ ?_⟩ <;> simp [hsym, hlive]

/-- A digit that completes no code for the scan is kept or discarded by the unit, which then follows the longer buffer. -/
theorem exec_decBit_of_wait {s : State} (hv : ValidTable s) (hft : s.ft ≠ []) {buf : Code} (hf : Follows s buf) {d : Digit}
    (h : codeEntry s.table (buf ++ [d]) = none) :
    ∃ t, exec (.decBit d) s = .next t ∧ t.err = .ok ∧ t.symValid = false ∧ Follows t (buf ++ [d]) := by
  have hnew := hv.codeEntry_none.1 h
  have hlonger : buf ++ [d] ≠ [] := List.append_ne_nil_of_right_ne_nil buf (List.cons_ne_nil d [])
  cases hf with
  | dead hdead hkept hbuf hnone =>
    exact ⟨_, exec_decBit_dead d hv.built hft hdead, rfl, rfl,
      .dead hdead hkept hlonger fun c hc hpre => hnone c hc ((List.prefix_append buf [d]).trans hpre)⟩
  | live hlive hbuf =>
    subst hbuf
    rw [exec_decBit_live d hv.built hft hlive]
    by_cases hext : ∃ c ∈ s.ct, s.dbuf ++ [d] <+: c
    · exact ⟨_, congrArg _ (feed_properPrefix hv hnew hext), rfl, rfl, .live hlive rfl⟩
    · push Not at hext
      exact ⟨_, congrArg _ (feed_noPrefix hv hext), rfl, rfl, .dead rfl hlonger hlonger hext⟩

/-- DEC_END answers as the scan's buffer is, and leaves the decoder empty (R182). -/
theorem exec_decEnd_of_follows {s : State} (hv : ValidTable s) {buf : Code} (hf : Follows s buf) :
    ∃ t, exec .decEnd s = .next t ∧ t.err = (if buf = [] then .ok else .incompleteCode) ∧ t.dbuf = [] ∧
      t.ddead = false := by
  cases hf with
  | dead hdead hkept hbuf hnone => exact ⟨_, exec_decEnd_incomplete hv.built hkept, by rw [if_neg hbuf]; rfl, rfl, rfl⟩
  | live hlive hbuf =>
    subst hbuf
    by_cases hempty : s.dbuf = []
    · exact ⟨_, exec_decEnd_complete hv.built hempty, by rw [if_pos hempty]; rfl, hempty, hlive⟩
    · exact ⟨_, exec_decEnd_incomplete hv.built hempty, by rw [if_neg hempty]; rfl, rfl, rfl⟩

theorem TablesKept.trans {s t u : State} (h : TablesKept s t) (h' : TablesKept t u) : TablesKept s u :=
  ⟨h'.ft.trans h.ft, h'.ct.trans h.ct, h'.ctag.trans h.ctag, h'.seqLost.trans h.seqLost⟩

theorem tablesKept_of_decBit {s t : State} {d : Digit} (h : exec (.decBit d) s = .next t) : TablesKept s t :=
  (exec_tables h).resolve_right (by simp)

theorem tablesKept_of_decEnd {s t : State} (h : exec .decEnd s = .next t) : TablesKept s t :=
  (exec_tables h).resolve_right (by simp)

theorem table_of_eq {s t : State} (hft : t.ft = s.ft) (hct : t.ct = s.ct) : t.table = s.table := by
  rw [State.table, State.table, hft, hct]

/-- The host's decode answers what the scan does, from wherever the unit follows it (R187). On the empty table it does so
without digits only (R183). -/
theorem decodeSeq_of_follows (bits : Code) {s : State} {buf : Code} (hp : s.pend = none) (hv : ValidTable s)
    (hft : s.ft = [] → bits = []) (hf : Follows s buf) :
    ∃ t, decodeSeq bits s = .next (scanAnswer (bufferScan s.table buf bits), t) ∧ t.dbuf = [] ∧ t.ddead = false ∧
      TablesKept s t := by
  induction bits generalizing s buf with
  | nil =>
    obtain ⟨t, hexec, herr, hdbuf, hddead⟩ := exec_decEnd_of_follows hv hf
    refine ⟨t, ?_, hdbuf, hddead, tablesKept_of_decEnd hexec⟩
    rw [decodeSeq_nil_of_exec hp hexec, herr, bufferScan, scanAnswer]
    by_cases hbuf : buf = []
    · rw [if_pos hbuf, if_pos hbuf]; rfl
    · rw [if_neg hbuf, if_neg hbuf]; rfl
  | cons d ds ih =>
    have hne : s.ft ≠ [] := fun hempty => List.cons_ne_nil d ds (hft hempty)
    have hnext : ∀ {t : State} {buf' : Code}, exec (.decBit d) s = .next t → t.err = .ok → Follows t buf' →
        ∃ u, decodeSeq (d :: ds) s = .next ((scanAnswer (bufferScan s.table buf' ds)).map
          (fun out => if t.symValid then t.resSym :: out else out), u) ∧
        u.dbuf = [] ∧ u.ddead = false ∧ TablesKept s u := by
      intro t buf' hexec hok hf
      have hkept := tablesKept_of_decBit hexec
      obtain ⟨u, hdec, hdbuf, hddead, hkept'⟩ := ih ((pend_of_exec hexec).trans hp)
        (hv.of_eq hkept.ft hkept.ct hkept.ctag) (fun hempty => absurd (hkept.ft.symm.trans hempty) hne) hf
      refine ⟨u, ?_, hdbuf, hddead, hkept.trans hkept'⟩
      rw [decodeSeq_cons_of_ok hp hexec hok, hdec, table_of_eq hkept.ft hkept.ct]
      rfl
    cases hentry : codeEntry s.table (buf ++ [d]) with
    | some p =>
      obtain ⟨t, hexec, hok, hvalid, hsym, hf⟩ := exec_decBit_of_emit hv hf hentry
      obtain ⟨u, hdec, hleft⟩ := hnext hexec hok hf
      refine ⟨u, ?_, hleft⟩
      rw [hdec, bufferScan_emit hentry, scanAnswer_cons, hvalid, hsym]
      rfl
    | none =>
      obtain ⟨t, hexec, hok, hvalid, hf⟩ := exec_decBit_of_wait hv hne hf hentry
      obtain ⟨u, hdec, hleft⟩ := hnext hexec hok hf
      refine ⟨u, ?_, hleft⟩
      rw [hdec, bufferScan_wait hentry, hvalid]
      cases scanAnswer (bufferScan s.table (buf ++ [d]) ds) <;> rfl

/-- An empty decoder of a state that meets the invariant is live: a dead buffer holds digits (R46). -/
theorem live_of_inv {s : State} (h : Inv s) (hbuf : s.dbuf = []) : s.ddead = false :=
  Bool.eq_false_iff.2 fun hdead => (h.decoderInv.deadMatchesNone hdead).1 hbuf

/-- Settles O56: the unit follows the scan from the empty buffer on; the empty table's error is its first DEC_BIT's. -/
theorem decodeAgreesWithTheBufferScan : Obligations.DecodeAgreesWithTheBufferScan := by
  intro s bits hinv htag hp hbuf
  have hv := validTable_of_inv hinv htag
  have hf : Follows s [] := .live (live_of_inv hinv hbuf) hbuf
  refine ⟨fun hne => ?_, fun hempty hbits => ?_, fun hempty hbits => ?_⟩
  · obtain ⟨t, hdec, hdbuf, hddead, hkept⟩ := decodeSeq_of_follows bits hp hv (fun hempty => absurd hempty hne) hf
    exact ⟨t, hdec, hdbuf, hddead, hkept.ft, hkept.ct, hkept.ctag⟩
  · obtain ⟨d, ds, rfl⟩ := List.exists_cons_of_ne_nil hbits
    have herr : ErrCode.emptyCodeTable.toByte ≠ 0#8 := by decide
    exact ⟨_, decodeSeq_cons_of_error hp (exec_decBit_emptyTable d htag hempty) herr ds⟩
  · obtain ⟨t, hdec, -⟩ := decodeSeq_of_follows bits hp hv (fun _ => hbits) hf
    subst hbits
    exact ⟨t, hdec⟩

end Sys2Proof.Machine

namespace Sys2Proof.Machine

/-! ### The scan of an encoded sequence -/

theorem nodup_of_prefixFree {codes : List Code} (hp : PrefixFree codes) : codes.Nodup :=
  hp.imp fun hcd => by rintro rfl; exact hcd.1 List.prefix_rfl

theorem ValidTable.mem_ct_of_mem_table {s : State} (h : ValidTable s) {p : Symbol × Code} (hp : p ∈ s.table) :
    p.2 ∈ s.ct := by
  rw [← h.table_snd]
  exact List.mem_map_of_mem hp

/-- A row is found by its code: no other row has it (R184). -/
theorem ValidTable.codeEntry_of_mem {s : State} (h : ValidTable s) {p : Symbol × Code} (hp : p ∈ s.table) :
    codeEntry s.table p.2 = some p := by
  have hcodes : (s.table.map Prod.snd).Nodup := h.table_snd.symm ▸ nodup_of_prefixFree h.prefixFree
  cases hq : codeEntry s.table p.2 with
  | none => exact absurd (h.mem_ct_of_mem_table hp) (h.codeEntry_none.1 hq)
  | some q =>
    have hcode : q.2 = p.2 := by simpa using List.find?_some hq
    exact congrArg some (List.inj_on_of_nodup_map hcodes (List.mem_of_find?_eq_some hq) hp hcode)

/-- The scan emits a row's symbol when it has read the row's code and no sooner: a proper beginning of a code is no code
(R184, R188). -/
theorem bufferScan_code {s : State} (hv : ValidTable s) {p : Symbol × Code} (hp : p ∈ s.table) {ds : Code} (hds : ds ≠ [])
    {buf : Code} (hcode : buf ++ ds = p.2) (rest : Code) :
    bufferScan s.table buf (ds ++ rest) = (p.1 :: (bufferScan s.table [] rest).1, (bufferScan s.table [] rest).2) := by
  have hmem := hv.mem_ct_of_mem_table hp
  induction ds generalizing buf with
  | nil => exact absurd rfl hds
  | cons d ds ih =>
    rw [List.append_cons] at hcode
    rcases eq_or_ne ds [] with rfl | hds
    · rw [List.append_nil] at hcode
      exact bufferScan_emit (hcode ▸ hv.codeEntry_of_mem hp) rest
    · have hnew : buf ++ [d] ∉ s.ct := fun hshort => hds <| by
        have heq := eq_of_prefix_of_prefixFree hv.prefixFree _ hshort _ hmem ⟨ds, hcode⟩
        exact List.append_right_eq_self.1 (hcode.trans heq.symm)
      rw [List.cons_append, bufferScan_wait (hv.codeEntry_none.2 hnew)]
      exact ih hds hcode

/-- A symbol with an entry has a row, at its first entry's code. -/
theorem ValidTable.mem_table_of_mem {s : State} (h : ValidTable s) {x : Symbol} (hx : x ∈ s.ft.map Entry.sym) :
    (x, codeFor s.ft s.ct x) ∈ s.table := by
  have hsyms : s.table.map Prod.fst = s.ft.map Entry.sym := List.map_fst_zip (by rw [List.length_map, h.oneCodeEach])
  change (x, (s.table.lookup x).getD []) ∈ s.table
  cases hlookup : s.table.lookup x with
  | none =>
    obtain ⟨p, hp, rfl⟩ := List.mem_map.1 (hsyms.symm ▸ hx)
    simpa using List.lookup_eq_none_iff.1 hlookup p hp
  | some c =>
    obtain ⟨before, after, hsplit, -⟩ := List.lookup_eq_some_iff.1 hlookup
    exact hsplit ▸ List.mem_append_right before List.mem_cons_self

/-- The scan of an encoded sequence is the sequence, with no digit left over (R188). -/
theorem bufferScan_encoded {s : State} (hv : ValidTable s) (hcodes : ∀ c ∈ s.ct, c ≠ []) {seq : List Symbol}
    (hseq : ∀ x ∈ seq, x ∈ s.ft.map Entry.sym) :
    bufferScan s.table [] (seq.map (codeFor s.ft s.ct)).flatten = (seq, []) := by
  induction seq with
  | nil => rfl
  | cons x seq ih =>
    obtain ⟨hx, hseq⟩ := List.forall_mem_cons.1 hseq
    have hrow := hv.mem_table_of_mem hx
    have hne : codeFor s.ft s.ct x ≠ [] := hcodes _ (hv.mem_ct_of_mem_table hrow)
    rw [List.map_cons, List.flatten_cons, bufferScan_code hv hrow hne rfl, ih hseq]

/-- Settles O57: encode leaves the table and the decoder, and the scan of what it answers is the sequence. -/
theorem decodeOfEncodeIsTheSequence : Obligations.DecodeOfEncodeIsTheSequence := by
  intro s seq hinv htag hp hbuf hseq
  obtain ⟨⟨bits, t, henc, hbits, hft, hct, htag', hdbuf, hddead, hpend, -⟩, -⟩ :=
    encodeConcatenatesTheCodes s seq hinv htag hp hseq
  have hv := validTable_of_inv hinv htag
  have hcodes : ∀ c ∈ s.ct, c ≠ [] := fun c hc =>
    List.ne_nil_of_length_pos (hinv.tableInv.codeLengths htag c hc).1
  have hempty : t.ft = [] → bits = [] := fun hnil => by
    have hnone : seq = [] := List.eq_nil_iff_forall_not_mem.2 fun x hx => by simpa [← hft, hnil] using hseq x hx
    simp [hbits, hnone]
  have hf : Follows t [] := .live (hddead.trans (live_of_inv hinv hbuf)) (hdbuf.trans hbuf)
  have hscan : bufferScan t.table [] bits = (seq, []) := by
    rw [table_of_eq hft hct, hbits]
    exact bufferScan_encoded hv hcodes hseq
  obtain ⟨u, hdec, -⟩ := decodeSeq_of_follows bits hpend (hv.of_eq hft hct htag') hempty hf
  exact ⟨bits, t, u, henc, by rw [hdec, hscan, scanAnswer, if_pos rfl]⟩

end Sys2Proof.Machine

namespace Sys2Proof

/-! ### The word of QUERY -/

/-- The word of a QUERY: its opcode with the index in bits 15:0 (R101, R103). -/
theorem encode_query (idx : BitVec 16) : encode (.query idx) = 0x80000000#32 ||| idx.setWidth 32 := by
  have hidx := idx.isLt
  rw [encode, commandWord_eq_or .query (by omega), BitVec.ofNat_toNat]
  rfl

end Sys2Proof

namespace Sys2Proof.Machine

/-! ### QUERY -/

/-- An index past the last entry has no row (R197). -/
theorem exec_query_outOfRange {s : State} {idx : BitVec 16} (h : s.ft.length ≤ idx.toNat) :
    exec (.query idx) s = .next (s.raise .indexOutOfRange) := if_pos h

/-- Without a table an entry's row has no code (R196). -/
theorem exec_query_unbuilt {s : State} {idx : BitVec 16} (h : idx.toNat < s.ft.length) (htag : s.ctag = .none) :
    exec (.query idx) s = .next (s.finishWith (s.rowUncoded idx.toNat)) :=
  (if_neg (Nat.not_le.2 h)).trans (if_pos htag)

theorem exec_query_built {s : State} {idx : BitVec 16} (h : idx.toNat < s.ft.length) (htag : s.ctag ≠ .none) :
    exec (.query idx) s = .next (s.finishWith (s.row idx.toNat)) :=
  (if_neg (Nat.not_le.2 h)).trans (if_neg htag)

/-- The row of an entry and its code (R195). -/
theorem row_eq {s : State} {i : Nat} {e : Entry} {c : Code} (he : s.ft[i]? = some e) (hc : s.ct[i]? = some c) :
    s.row i = ⟨e.sym, e.cnt, c⟩ := by
  simp [State.row, State.symAt, State.cntAt, State.codeAt, he, hc]

/-- The row of an entry without a code (R196). -/
theorem rowUncoded_eq {s : State} {i : Nat} {e : Entry} (he : s.ft[i]? = some e) :
    s.rowUncoded i = ⟨e.sym, e.cnt, []⟩ := by
  simp [State.rowUncoded, State.symAt, State.cntAt, he]

/-- Settles O49: one lemma per branch of the rule, then the branch's row and state written out. -/
theorem queryReturnsTheRow : Obligations.QueryReturnsTheRow := by
  refine ⟨encode_query, fun s idx => ⟨fun e c he htag hc => ?_, fun e he htag => ?_, fun hout => ?_⟩⟩
  · obtain ⟨hidx, -⟩ := List.getElem?_eq_some_iff.1 he
    rw [exec_query_built hidx htag, row_eq he hc, State.finishWith_eq]
  · obtain ⟨hidx, -⟩ := List.getElem?_eq_some_iff.1 he
    rw [exec_query_unbuilt hidx htag, rowUncoded_eq he, State.finishWith_eq]
  · rw [exec_query_outOfRange hout, State.raise_eq]

end Sys2Proof.Machine

namespace Sys2Proof.Machine

/-! ### Probabilities and the average code length -/

/-- SUMWL's sum over the rows of the two tables (R39). -/
theorem weightedLength_eq_sum_zip (ft : List Entry) (ct : List Code) :
    weightedLength ft ct = ((ft.zip ct).map (fun p => p.1.cnt * p.2.length)).sum := by
  rw [← assignedCost_lengthsOf]
  simp [lengthsOf, assignedCost, Function.comp_def]

theorem probability_pos {s : State} {n : Nat} (hs : 0 < s.total) (hn : 0 < n) : 0 < probability s n :=
  div_pos (Nat.cast_pos.2 hn) (Nat.cast_pos.2 hs)

/-- No entry's count exceeds TOTAL (R42, R200). -/
theorem probability_le_one {s : State} {e : Entry} (he : e ∈ s.ft) : probability s e.cnt ≤ 1 :=
  div_le_one_of_le₀ (Nat.cast_le.2 (cnt_le_total he)) (Nat.cast_nonneg _)

/-- The counts add up to TOTAL (R42, R200). -/
theorem probability_sum {s : State} (hs : 0 < s.total) : (s.ft.map (fun e => probability s e.cnt)).sum = 1 := by
  have hcounts : (s.ft.map (fun e => (e.cnt : ℚ))).sum = s.total := by
    simp [State.total, totalOf, Nat.cast_list_sum, Function.comp_def]
  simp only [probability, div_eq_mul_inv, List.sum_map_mul_right, hcounts]
  exact mul_inv_cancel₀ (Nat.cast_ne_zero.2 hs.ne')

/-- On a valid table SUMWL / TOTAL is the probability-weighted mean of the code lengths (R201). -/
theorem averageLength_eq_sum {s : State} (hs : 0 < s.total) (htag : s.ctag ≠ .none) :
    averageLength s = ((s.ft.zip s.ct).map (fun p => probability s p.1.cnt * (p.2.length : ℚ))).sum := by
  rw [averageLength, if_neg hs.ne', sumwl_of_tableValid (decide_eq_true htag), weightedLength_eq_sum_zip]
  simp only [probability, div_mul_eq_mul_div]
  simp [div_eq_mul_inv, List.sum_map_mul_right, Nat.cast_list_sum, Function.comp_def]

/-- Settles O59: the counts are positive by the invariant and add up to TOTAL, and SUMWL weighs the lengths by them. -/
theorem probabilitiesAndAverageAreExact : Obligations.ProbabilitiesAndAverageAreExact := by
  intro s hinv hs
  exact ⟨fun e he => ⟨probability_pos hs (hinv.ftInv.countsPositive e he), probability_le_one he⟩, probability_sum hs,
    averageLength_eq_sum hs⟩

/-! ### Entropy -/

/-- The entropy in the exact probabilities (R200, R202). -/
theorem entropy_eq_sum (s : State) :
    entropy s = (s.ft.map (fun e => -((probability s e.cnt : ℝ) * Real.logb 2 (probability s e.cnt)))).sum := by
  rw [entropy, List.sum_neg, List.map_map]
  simp [probability, Function.comp_def]

/-- Gibbs' inequality for one symbol of probability p with a code of l digits, which is log x ≤ x − 1 at x = 2^(−l) / p
(R204). -/
theorem information_add_le {p : ℝ} (hp : 0 < p) (l : Nat) :
    -(p * Real.logb 2 p) + p / Real.log 2 ≤ p * l + (1 / 2) ^ l / Real.log 2 := by
  have hlog2 : 0 < Real.log 2 := Real.log_pos one_lt_two
  have hroom : (0 : ℝ) < (1 / 2) ^ l := by positivity
  have hgibbs : Real.log ((1 / 2) ^ l / p) ≤ (1 / 2) ^ l / p - 1 := Real.log_le_sub_one_of_pos (div_pos hroom hp)
  rw [Real.log_div hroom.ne' hp.ne', Real.log_pow, one_div, Real.log_inv] at hgibbs
  rw [← Real.log_div_log]
  field_simp at hgibbs ⊢
  linarith

/-- A valid table has a row for each entry. -/
theorem ValidTable.map_zip_fst {s : State} (h : ValidTable s) {α : Type} (f : Entry → α) :
    (s.ft.zip s.ct).map (fun r => f r.1) = s.ft.map f := by
  rw [← congrArg (List.map f) (List.map_fst_zip h.oneCodeEach.ge), List.map_map, Function.comp_def]

/-- A valid table has a row for each code. -/
theorem ValidTable.map_zip_snd {s : State} (h : ValidTable s) {α : Type} (f : Code → α) :
    (s.ft.zip s.ct).map (fun r => f r.2) = s.ct.map f := by
  rw [← congrArg (List.map f) (List.map_snd_zip h.oneCodeEach.le), List.map_map, Function.comp_def]

/-- Gibbs' inequality for a valid table: the sum over its rows (R204). -/
theorem entropy_add_le {s : State} (hinv : Inv s) (htag : s.ctag ≠ .none) (hs : 0 < s.total) :
    entropy s + 1 / Real.log 2 ≤ averageLength s + kraftSum s.ct / Real.log 2 := by
  have hv := validTable_of_inv hinv htag
  have hone : 1 / Real.log 2 = (s.ft.map fun e => (probability s e.cnt : ℝ) / Real.log 2).sum := by
    have hsum : (s.ft.map fun e => (probability s e.cnt : ℝ)).sum = 1 := by
      simpa [Rat.cast_list_sum, Function.comp_def] using congrArg (Rat.cast (K := ℝ)) (probability_sum hs)
    simp only [div_eq_mul_inv, List.sum_map_mul_right, hsum]
  have hkraft : kraftSum s.ct / Real.log 2 = (s.ct.map fun c => (1 / 2 : ℝ) ^ c.length / Real.log 2).sum := by
    simp [kraftSum, Rat.cast_list_sum, div_eq_mul_inv, List.sum_map_mul_right, Function.comp_def]
  have haverage : (averageLength s : ℝ) =
      ((s.ft.zip s.ct).map fun r => (probability s r.1.cnt : ℝ) * r.2.length).sum := by
    simp [averageLength_eq_sum hs htag, Rat.cast_list_sum, Function.comp_def]
  rw [entropy_eq_sum, haverage, hkraft, hone, ← hv.map_zip_fst, ← hv.map_zip_fst, ← hv.map_zip_snd,
    ← List.sum_map_add, ← List.sum_map_add]
  refine List.sum_le_sum fun r hr => information_add_le ?_ r.2.length
  exact_mod_cast probability_pos hs (hinv.ftInv.countsPositive _ (List.of_mem_zip hr).1)

/-- Kraft's inequality leaves the entropy at most the average length of a valid table's codes (R204). -/
theorem entropy_le_averageLength {s : State} (hinv : Inv s) (htag : s.ctag ≠ .none) (hs : 0 < s.total) :
    entropy s ≤ (averageLength s : ℝ) := by
  have hkraft : kraftSum s.ct ≤ 1 := kraftSum_le_one (hinv.tableInv.prefixFree htag) fun c hc =>
    List.ne_nil_of_length_pos (hinv.tableInv.codeLengths htag c hc).1
  have hroom : (kraftSum s.ct : ℝ) / Real.log 2 ≤ 1 / Real.log 2 :=
    div_le_div_of_nonneg_right (by exact_mod_cast hkraft) (Real.log_pos one_lt_two).le
  linarith [entropy_add_le hinv htag hs]

/-- One entry has probability 1 and the code "0" (R204). -/
theorem statistics_of_one {s : State} (hinv : Inv s) (htag : s.ctag ≠ .none) (h1 : s.ft.length = 1) :
    averageLength s = 1 ∧ entropy s = 0 := by
  obtain ⟨e, he⟩ := List.length_eq_one_iff.1 h1
  have hpos : 0 < e.cnt := hinv.ftInv.countsPositive e (by simp [he])
  have htotal : s.total = e.cnt := by simp [State.total, totalOf, he]
  have hprob : probability s e.cnt = 1 := by
    rw [probability, htotal, div_self (Nat.cast_ne_zero.2 hpos.ne')]
  constructor
  · rw [averageLength_eq_sum (htotal ▸ hpos) htag, hinv.tableInv.singleLeaf htag h1, he]
    simp [hprob]
  · simp [entropy_eq_sum, he, hprob]

/-- Two entries of equal count have probability 1/2 each (R204). -/
theorem entropy_of_two_equal {s : State} (hinv : Inv s) {x y : Symbol} {n : Nat} (hft : s.ft = [⟨x, n⟩, ⟨y, n⟩]) :
    entropy s = 1 := by
  have hpos : 0 < n := hinv.ftInv.countsPositive ⟨x, n⟩ (by simp [hft])
  have hprob : probability s n = 1 / 2 := by
    have htotal : s.total = n + n := by simp [State.total, totalOf, hft]
    have hn : (n : ℚ) ≠ 0 := Nat.cast_ne_zero.2 hpos.ne'
    rw [probability, htotal, Nat.cast_add, ← two_mul, div_mul_cancel_right₀ hn, one_div]
  have hlogb : Real.logb 2 (1 / 2) = -1 := by rw [one_div, Real.logb_inv, Real.logb_self_eq_one one_lt_two]
  rw [entropy_eq_sum, hft]
  norm_num [hprob, hlogb]

/-- The empty sums (R203). -/
theorem statistics_of_empty {s : State} (hft : s.ft = []) : averageLength s = 0 ∧ entropy s = 0 := by
  simp [averageLength, State.total, totalOf, entropy, hft]

theorem averageLength_mono {t u : State} (htotal : t.total = u.total) (hsumwl : t.sumwl ≤ u.sumwl) :
    averageLength t ≤ averageLength u := by
  rw [averageLength, averageLength, htotal]
  split
  · exact le_rfl
  · exact div_le_div_of_nonneg_right (Nat.cast_le.2 hsumwl) (Nat.cast_nonneg _)

/-- Both builds keep TOTAL, and the Huffman table has the smaller SUMWL (R168, R204). -/
theorem averageLength_buildHuff_le {s t u : State} (hs : 0 < s.total) (hlost : s.seqLost = false)
    (ht : exec .buildHuff s = .next t) (hu : exec .buildSf s = .next u) : averageLength t ≤ averageLength u := by
  have hne : 1 ≤ s.ft.length := List.length_pos_iff.2 fun hnil => by simp [State.total, totalOf, hnil] at hs
  obtain ⟨-, hsumwl⟩ := huffmanTableIsOptimal s t u hne ht hu hlost
  refine averageLength_mono ?_ hsumwl
  rw [exec_buildHuff_built hlost] at ht
  rw [exec_buildSf_built hlost] at hu
  cases ht
  cases hu
  rfl

/-- Settles O60: Gibbs' inequality with Kraft's, Huffman's optimality, and the exact cases. -/
theorem entropyIsAtMostTheAverageLength : Obligations.EntropyIsAtMostTheAverageLength := by
  intro s hinv
  exact ⟨entropy_le_averageLength hinv, fun t u hs hlost ht hu => averageLength_buildHuff_le hs hlost ht hu,
    statistics_of_one hinv, fun x y n hft => entropy_of_two_equal hinv hft, statistics_of_empty⟩

end Sys2Proof.Machine

namespace Sys2Proof.Machine

/-! ### Precise errors (spec/60_exceptions.md) -/

/-- DEC_BIT's scan completes with OK however it ends (R180). -/
@[simp] theorem feed_err (s : State) (nb : Code) : (s.feed nb).err = .ok := by
  obtain ⟨_, -, h⟩ | ⟨-, -, h⟩ | ⟨-, -, h⟩ := feed_cases s nb <;> rw [h]

/-- The three ways a command can end in an error: a raise alone, an overflow of LOAD_SYM, an incomplete code of DEC_END. -/
def EndsInError (s t : State) : Prop :=
  (∃ e, e ≠ .countOverflow ∧ e ≠ .alphabetOverflow ∧ e ≠ .incompleteCode ∧ t = s.raise e) ∨
  (∃ e, (e = .countOverflow ∨ e = .alphabetOverflow) ∧ t = s.loseSequence.raise e) ∨
  t = s.emptyDecoder.raise .incompleteCode

/-- Every end of a command but these completes with OK. -/
theorem exec_ok_or_endsInError {i : Instr} {s t : State} (h : exec i s = .next t) : t.err = .ok ∨ EndsInError s t := by
  obtain ⟨e, -, -, hcount, halphabet, hincomplete, ht⟩ | ⟨-, rfl⟩ | ⟨-, rfl⟩ | ⟨_, e, -, -, he, ht⟩ |
    ⟨_, _, -, -, -, -, -, rfl⟩ | ⟨_, -, -, -, -, -, -, rfl⟩ | ⟨-, -, rfl⟩ | ⟨-, -, rfl⟩ | ⟨_, _, -, -, -, -, rfl⟩ |
    ⟨_, -, -, -, -, rfl⟩ | ⟨_, -, -, -, -, rfl⟩ | ⟨-, -, -, ht⟩ | ⟨-, -, -, rfl⟩ | ⟨_, -, -, -, rfl⟩ |
    ⟨_, -, -, -, rfl⟩ := exec_cases i s t h
  · exact .inr (.inl ⟨e, hcount, halphabet, hincomplete, ht⟩)
  · exact .inl (State.finishOk_err _)
  · exact .inl (State.finishOk_err _)
  · exact .inr (.inr (.inl ⟨e, he, ht⟩))
  · exact .inl (State.finishOk_err _)
  · exact .inl (State.finishOk_err _)
  · exact .inl (State.finishOk_err _)
  · exact .inl (State.finishOk_err _)
  · exact .inl (State.finishWith_err _ _)
  · exact .inl (State.finishOk_err _)
  · exact .inl (feed_err _ _)
  · exact .inr (.inr (.inr ht))
  · exact .inl (State.finishOk_err _)
  · exact .inl (State.finishWith_err _ _)
  · exact .inl (State.finishWith_err _ _)

/-- A word ends in an error as its command does; the two illegal classes of words raise and do nothing else (R108, R222). -/
theorem execDecoded_endsInError {d : Decoded} {s t : State} (h : execDecoded d s = .next t) (herr : t.err ≠ .ok) :
    EndsInError s t := by
  cases d with
  | instr i => exact (exec_ok_or_endsInError h).resolve_left herr
  | illegalCommand => cases h; exact .inl ⟨.illegalCommand, by decide, by decide, by decide, rfl⟩
  | illegalOperand => cases h; exact .inl ⟨.illegalOperand, by decide, by decide, by decide, rfl⟩

/-- Settles O50: the code of each way to end in an error selects the updates that its rule performs before the raise. -/
theorem errorsArePrecise : Obligations.ErrorsArePrecise := by
  intro d s t h herr
  obtain ⟨e, hcount, halphabet, hincomplete, rfl⟩ | ⟨e, he, rfl⟩ | rfl := execDecoded_endsInError h herr
  · rw [State.raise_err, if_neg (not_or.2 ⟨hcount, halphabet⟩), if_neg hincomplete, State.raise_eq]
  · rw [State.raise_err, if_pos he, loseSequence_raise_eq]
  · rw [State.raise_err, if_neg (by decide), if_pos rfl, State.raise_eq, State.emptyDecoder_eq]

end Sys2Proof.Machine

namespace Sys2Proof

/-! ### Encoding and decoding are inverse -/

/-- The word of a command has its row's opcode and no reserved bit (R101, R105). -/
theorem encode_fields (i : Instr) :
    (encode i).toNat / 2 ^ 28 = i.op.code.toNat ∧ encode i &&& i.op.form.reservedMask = 0#32 := by
  cases i with
  | nop => exact Laws.EncodeShape.nop
  | clear => exact Laws.EncodeShape.clear
  | loadSym x => exact Laws.EncodeShape.loadSym x
  | buildSf => exact Laws.EncodeShape.buildSf
  | buildHuff => exact Laws.EncodeShape.buildHuff
  | enc x => exact Laws.EncodeShape.enc x
  | decBit b => exact Laws.EncodeShape.decBit b
  | decEnd => exact Laws.EncodeShape.decEnd
  | query idx => exact Laws.EncodeShape.query idx

/-- The low 21 bits of a symbol command's word are its symbol. -/
theorem symField_add (c : Nat) (x : Symbol) {w : Word} (h : w.toNat = c * 2 ^ 28 + x.toNat) : symField w = x := by
  have hx := x.isLt
  exact BitVec.eq_of_toNat_eq (by rw [symField_toNat, h]; omega)

/-- The operand is read back from its field (R101, R102). -/
theorem assemble_encode (i : Instr) : i.op.assemble (encode i) = i := by
  cases i with
  | loadSym x => exact congrArg Instr.loadSym (symField_add 2 x (encode_toNat _))
  | enc x => exact congrArg Instr.enc (symField_add 5 x (encode_toNat _))
  | decBit b => cases b <;> rfl
  | query idx =>
    have hidx := idx.isLt
    exact congrArg Instr.query (BitVec.eq_of_toNat_eq (by rw [idxField_toNat, encode_toNat]; dsimp only; omega))
  | _ => rfl

/-- A command assembled for a row is well-formed exactly when the row's symbol, if it takes one, is in range (R106). -/
theorem wellFormed_assemble_iff (cfg : Config) (op : Op) (w : Word) :
    (op.assemble w).wellFormed cfg = true ↔ (op.form = .s → w.toNat % 2 ^ 21 < 2 ^ cfg.symW) := by
  rw [← symField_toNat]
  cases op <;> simp [Op.assemble, Instr.wellFormed, Op.form]

/-- Settles O2: the encoding has the fields of its command's row, and the command is assembled back from them. -/
theorem decodeOfEncodeIsTheCommand : Obligations.DecodeOfEncodeIsTheCommand := by
  intro cfg i hwf
  obtain ⟨hopc, hreserved⟩ := encode_fields i
  have hsym : i.op.form = .s → (encode i).toNat % 2 ^ 21 < 2 ^ cfg.symW := by
    rwa [← wellFormed_assemble_iff, assemble_encode]
  rw [decode_of_fields cfg _ i.op hopc hreserved hsym, assemble_encode]

/-- A word without reserved bits is its opcode and its operand field (R100, R101). -/
theorem toNat_of_fields {w : Word} {op : Op} (hopc : w.toNat / 2 ^ 28 = op.code.toNat)
    (hreserved : w &&& op.form.reservedMask = 0#32) :
    w.toNat = op.code.toNat * 2 ^ 28 + w.toNat % 2 ^ op.form.operandBits := by
  rw [reservedMask_and_eq_zero] at hreserved
  have hdvd : 2 ^ op.form.operandBits ∣ 2 ^ 28 := pow_dvd_pow 2 (by cases op <;> decide)
  have hfield : w.toNat % 2 ^ 28 = w.toNat % 2 ^ op.form.operandBits := by
    have hlt := (Nat.div_eq_zero_iff_lt (Nat.two_pow_pos _)).1 hreserved
    rw [← Nat.mod_mod_of_dvd w.toNat hdvd, Nat.mod_eq_of_lt hlt]
  rw [← hopc, ← hfield, Nat.div_add_mod']

/-- The word of an assembled command holds the row's opcode and the operand field alone (R101, R103). -/
theorem encode_assemble_toNat (op : Op) (w : Word) :
    (encode (op.assemble w)).toNat = op.code.toNat * 2 ^ 28 + w.toNat % 2 ^ op.form.operandBits := by
  rw [encode_toNat]
  cases op with
  | loadSym => exact congrArg (2 * 2 ^ 28 + ·) (symField_toNat w)
  | enc => exact congrArg (5 * 2 ^ 28 + ·) (symField_toNat w)
  | query => exact congrArg (8 * 2 ^ 28 + ·) (idxField_toNat w)
  | decBit =>
    have hbit : (bitField w).toNat = w.toNat % 2 ^ 1 := by
      rw [bitField_eq, pow_one]
      rcases Nat.mod_two_eq_zero_or_one w.toNat with h | h <;> simp [h]
    exact congrArg (6 * 2 ^ 28 + ·) hbit
  | _ => simp [Op.assemble, Op.code, Op.form, Form.operandBits, Nat.mod_one]

/-- Settles O3: the command is assembled from the word's fields, and the word holds nothing but its fields. -/
theorem encodeOfDecodeIsTheWord : Obligations.EncodeOfDecodeIsTheWord := by
  intro cfg w i h
  obtain ⟨op, hopc, hreserved, hsym, rfl⟩ := fields_of_decode h
  refine ⟨BitVec.eq_of_toNat_eq ?_, (wellFormed_assemble_iff cfg op w).2 hsym⟩
  rw [encode_assemble_toNat, ← toNat_of_fields hopc hreserved]

/-- Settles O1: each word is written out. -/
theorem decodeReadsSampleWords : Obligations.DecodeReadsSampleWords := by
  unfold Obligations.DecodeReadsSampleWords
  decide

end Sys2Proof

namespace Sys2Proof.Machine

/-! ### Commands do not look at the outside world -/

/-- `s` with the fields of `o` that no command reads or writes: the latch, CMD_OVERRUN, and what belongs to the host (R51). -/
def State.withOutside (s o : State) : State :=
  { s with pend := o.pend, overrun := o.overrun, turns := o.turns, busData := o.busData, hostFault := o.hostFault,
           draws := o.draws }

@[simp] theorem State.withOutside_ft (s o : State) : (s.withOutside o).ft = s.ft := rfl
@[simp] theorem State.withOutside_matchCode (s o : State) (c : Code) : (s.withOutside o).matchCode c = s.matchCode c := rfl

theorem encSym_withOutside (s o : State) (x : Symbol) : (s.withOutside o).encSym x = (s.encSym x).withOutside o := by
  simp only [State.encSym, State.withOutside_ft, apply_ite (State.withOutside · o)]
  cases findEntry s.ft x <;> rfl

theorem loadSym_withOutside (s o : State) (x : Symbol) : (s.withOutside o).loadSym x = (s.loadSym x).withOutside o := by
  simp only [State.loadSym, State.withOutside_ft, apply_ite (State.withOutside · o)]
  cases findEntry s.ft x with
  | some i => rfl
  | none => simp only [apply_ite (State.withOutside · o)]; rfl

theorem feed_withOutside (s o : State) (nb : Code) : (s.withOutside o).feed nb = (s.feed nb).withOutside o := by
  simp only [State.feed, State.withOutside_matchCode]
  cases s.matchCode nb with
  | some i => rfl
  | none => simp only [apply_ite (State.withOutside · o)]; rfl

theorem andThen_ite {α β : Type} (p : Prop) [Decidable p] (a b : Host.Outcome α Fault Refusal)
    (f : α → Host.Outcome β Fault Refusal) :
    andThen (if p then a else b) f = if p then andThen a f else andThen b f := apply_ite (andThen · f) p a b

/-- What a command does is the same whatever the latch, CMD_OVERRUN and the outside world hold, and it leaves them (R51). -/
theorem exec_withOutside (i : Instr) (s o : State) :
    exec i (s.withOutside o) = andThen (exec i s) fun t => .next (t.withOutside o) := by
  cases i with
  | nop => rfl
  | clear => rfl
  | loadSym x => simp only [exec, execLoadSym, loadSym_withOutside, andThen_ite]; rfl
  | buildSf => simp only [exec, execBuildSf, andThen_ite]; rfl
  | buildHuff => simp only [exec, execBuildHuff, andThen_ite]; rfl
  | enc x => simp only [exec, execEnc, encSym_withOutside, andThen_ite]; rfl
  | decBit b => simp only [exec, execDecBit, feed_withOutside, andThen_ite]; rfl
  | decEnd => simp only [exec, execDecEnd, andThen_ite]; rfl
  | query idx => simp only [exec, execQuery, andThen_ite]; rfl

/-- A command leaves the latch, CMD_OVERRUN and the outside world as they are (R51, R64). -/
theorem eq_withOutside_of_exec {i : Instr} {s t : State} (h : exec i s = .next t) : t = t.withOutside s :=
  Host.Outcome.next.inj (h.symm.trans ((exec_withOutside i s s).trans (by rw [h]; rfl)))

@[simp] theorem feed_cfg (s : State) (nb : Code) : (s.feed nb).cfg = s.cfg := by
  obtain ⟨_, -, h⟩ | ⟨-, -, h⟩ | ⟨-, -, h⟩ := feed_cases s nb <;> rw [h]

/-- A command leaves the configuration, which is no state (R30). -/
theorem cfg_of_exec {i : Instr} {s t : State} (h : exec i s = .next t) : t.cfg = s.cfg := by
  obtain ⟨_, -, -, -, -, -, rfl⟩ | ⟨-, rfl⟩ | ⟨-, rfl⟩ | ⟨_, _, -, -, -, rfl⟩ | ⟨_, _, -, -, -, -, -, rfl⟩ |
    ⟨_, -, -, -, -, -, -, rfl⟩ | ⟨-, -, rfl⟩ | ⟨-, -, rfl⟩ | ⟨_, _, -, -, -, -, rfl⟩ | ⟨_, -, -, -, -, rfl⟩ |
    ⟨_, -, -, -, -, rfl⟩ | ⟨-, -, -, rfl⟩ | ⟨-, -, -, rfl⟩ | ⟨_, -, -, -, rfl⟩ | ⟨_, -, -, -, rfl⟩ := exec_cases i s t h
  pick_goal 11
  · exact feed_cfg _ _
  all_goals rfl

/-- NOP, ENC and QUERY end in a completion alone, whatever its code and its result (R51). -/
theorem exists_finish_of_exec {i : Instr} {s t : State} (h : exec i s = .next t)
    (hi : i = .nop ∨ (∃ x, i = .enc x) ∨ ∃ x, i = .query x) : ∃ e r, t = s.finish e r false := by
  rcases hi with rfl | ⟨x, rfl⟩ | ⟨x, rfl⟩
  · cases h
    exact ⟨_, _, rfl⟩
  · simp only [exec, execEnc, State.encSym] at h
    split at h
    · split at h
      · cases h; exact ⟨_, _, rfl⟩
      · split at h <;> cases h <;> exact ⟨_, _, rfl⟩
    · cases h; exact ⟨_, _, rfl⟩
  · simp only [exec, execQuery] at h
    split at h
    · cases h; exact ⟨_, _, rfl⟩
    · split at h <;> cases h <;> exact ⟨_, _, rfl⟩

/-- Settles O53: no command reads or writes what is outside it, and the tables and the decoder have their own writers. -/
theorem commandFrames : Obligations.CommandFrames := by
  intro i s t h
  have hout := eq_withOutside_of_exec h
  refine ⟨⟨cfg_of_exec h, ?_⟩, fun hi => ?_, fun hi => ?_, fun hi => ?_⟩
  · rw [hout]
    exact ⟨rfl, rfl, rfl, rfl, rfl, rfl⟩
  · have hkept : TablesKept s t :=
      (exec_tables h).resolve_right (by rcases hi with rfl | ⟨_, rfl⟩ | ⟨_, rfl⟩ | rfl | ⟨_, rfl⟩ <;> simp)
    exact ⟨hkept.ft, hkept.ctag, hkept.ct, hkept.seqLost⟩
  · obtain ⟨e, r, rfl⟩ := exists_finish_of_exec h hi
    exact ⟨rfl, rfl⟩
  · obtain hkept | ⟨rfl, -⟩ | ⟨x, e, rfl, -⟩ | ⟨x, l, rfl, -⟩ | ⟨-, rfl⟩ | ⟨-, rfl⟩ := exec_tables h
    · exact ⟨hkept.ft, hkept.seqLost⟩
    · simp at hi
    · simp at hi
    · simp at hi
    · exact ⟨rfl, rfl⟩
    · exact ⟨rfl, rfl⟩

end Sys2Proof.Machine

namespace Sys2Proof.Machine

/-! ### Every turn answers a next state -/

/-- What the engine executes for a word answers a next state, and leaves the configuration, the latch and the outside world
(R30, R62, R222). -/
theorem execDecoded_next (d : Decoded) (s : State) :
    ∃ t : State, execDecoded d s = .next (t.withOutside s) ∧ t.cfg = s.cfg := by
  cases d with
  | instr i =>
    obtain ⟨t, ht⟩ := exec_next i s
    exact ⟨t, ht.trans (congrArg _ (eq_withOutside_of_exec ht)), cfg_of_exec ht⟩
  | illegalCommand => exact ⟨s.raise .illegalCommand, rfl, State.raise_cfg _ _⟩
  | illegalOperand => exact ⟨s.raise .illegalOperand, rfl, State.raise_cfg _ _⟩

theorem execDecoded_withOutside (d : Decoded) (s o : State) :
    execDecoded d (s.withOutside o) = andThen (execDecoded d s) fun t => .next (t.withOutside o) := by
  cases d with
  | instr i => exact exec_withOutside i s o
  | illegalCommand => rfl
  | illegalOperand => rfl

theorem engineStep_idle {s : State} (hp : s.pend = none) : engineStep s = .next s := by
  simp [engineStep, hp]

/-- The engine's turn empties the latch and leaves the schedule (R62). -/
theorem engineStep_next (s : State) : ∃ t, engineStep s = .next t ∧ t.pend = none ∧ t.turns = s.turns := by
  cases hp : s.pend with
  | none => exact ⟨s, engineStep_idle hp, hp, rfl⟩
  | some w =>
    obtain ⟨t, ht, -⟩ := execDecoded_next (decode s.cfg w) s
    exact ⟨(t.withOutside s).retire, by rw [engineStep_of_pend hp, ht, retireOutcome], rfl, rfl⟩

@[simp] theorem access_turns (s : State) (a : Access) : (s.access a).turns = s.turns :=
  (congrArg State.turns (access_eq s a) :)

@[simp] theorem hostFaulted_turns (s : State) (k : AccessKind) : (s.hostFaulted k).turns = s.turns := by
  cases k <;> rfl

@[simp] theorem resetDuring_turns (s : State) (d : Option Access) : (s.resetDuring d).turns = s.turns := by
  obtain ⟨-, h⟩ | ⟨a, -, -, h⟩ := resetDuring_cases s d <;> simp [h]

/-- Every turn answers a next state, and leaves the schedule to the machine (R60). -/
theorem runTurn_next (x : Turn) (s : State) : ∃ t, runTurn x s = .next t ∧ t.turns = s.turns := by
  cases x with
  | host a => exact ⟨_, rfl, access_turns s a⟩
  | engine =>
    obtain ⟨t, ht, -, hturns⟩ := engineStep_next s
    exact ⟨t, ht, hturns⟩
  | reset d => exact ⟨_, rfl, resetDuring_turns s d⟩

/-- The machine performs the first turn of its schedule (R60). -/
theorem step_of_turn {s : State} {x : Turn} {ts : List Turn} (h : s.turns = x :: ts) :
    step s = runTurn x { s with turns := ts } := by
  simp [step, advance, h]

/-- A step takes one turn off the schedule. -/
theorem step_next (s : State) : ∃ t, step s = .next t ∧ t.turns = s.turns.tail := by
  cases h : s.turns with
  | nil =>
    obtain ⟨t, ht, -, hturns⟩ := engineStep_next s
    exact ⟨t, (step_of_emptySchedule h).trans ht, hturns.trans h⟩
  | cons x ts =>
    obtain ⟨t, ht, hturns⟩ := runTurn_next x { s with turns := ts }
    exact ⟨t, (step_of_turn h).trans ht, hturns⟩

/-- Settles O7: the engine runs what the word decodes to, which is the command. -/
theorem stepRunsTheDecodedCommand : Obligations.StepRunsTheDecodedCommand := by
  intro s w i hp hd
  refine ⟨fun ht => ?_, fun ts ht => ?_⟩
  · rw [step_of_emptySchedule ht, engineStep_of_pend hp, hd]
    rfl
  · rw [step_of_engineTurn ht, engineStep_of_pend (s := { s with turns := ts }) hp, hd]
    rfl

/-- Settles O21: a step is a turn or the engine's, and the engine empties the latch. -/
theorem everyStepAnswersANextState : Obligations.EveryStepAnswersANextState := by
  intro s
  obtain ⟨t, ht, -⟩ := step_next s
  refine ⟨t, ht, ?_⟩
  rintro (hturns | ⟨ts, hturns⟩)
  · obtain ⟨u, hu, hpend, -⟩ := engineStep_next s
    cases ht.symm.trans ((step_of_emptySchedule hturns).trans hu)
    exact hpend
  · obtain ⟨u, hu, hpend, -⟩ := engineStep_next { s with turns := ts }
    cases ht.symm.trans ((step_of_engineTurn hturns).trans hu)
    exact hpend

/-! ### Runs of the machine -/

/-- A run is a step and the run from the state it answers. -/
theorem run_succ_of_step {M : Host.Core} {s t : M.State} (h : M.step s = .next t) (k : Nat) :
    M.run (k + 1) s = M.run k t := by
  rw [Host.Core.run, h]

theorem run_core_succ {s t : State} (h : step s = .next t) (k : Nat) :
    Host.Core.run core (k + 1) s = Host.Core.run core k t := run_succ_of_step (M := core) h k

/-- Settles O22: each step takes a turn off the schedule, and the one after the last is the engine's. -/
theorem scheduleEndsWithTheUnitIdle : Obligations.ScheduleEndsWithTheUnitIdle := by
  intro s
  induction hn : s.turns.length generalizing s with
  | zero =>
    have hturns := List.length_eq_zero_iff.1 hn
    obtain ⟨t, ht, hpend, hkept⟩ := engineStep_next s
    exact ⟨t, run_core_succ ((step_of_emptySchedule hturns).trans ht) 0, hpend, hkept.trans hturns⟩
  | succ n ih =>
    obtain ⟨u, hu, hturns⟩ := step_next s
    obtain ⟨t, ht, hend⟩ := ih u (by rw [hturns, List.length_tail, hn]; rfl)
    exact ⟨t, (run_core_succ hu (n + 1)).trans ht, hend⟩

/-! ### Turns do not look at the schedule -/

/-- `s` with another schedule and other contents of CT. -/
def State.withTurnsCt (s : State) (ts : List Turn) (c : List Code) : State := { s with turns := ts, ct := c }

/-- The contents of CT cannot matter: no table is valid, or they are the same (R44). -/
abbrev CtUnseen (s : State) (c : List Code) : Prop := s.ctag = .none ∨ c = s.ct

/-- Neither the schedule nor the contents of a code table that is not valid shows in a register (R39, R44). -/
theorem regValue_withTurnsCt {s : State} {c : List Code} (hc : CtUnseen s c) (ts : List Turn) (r : Reg) :
    (s.withTurnsCt ts c).regValue r = s.regValue r := by
  have hsumwl : (s.withTurnsCt ts c).sumwl = s.sumwl := by
    rcases hc with htag | rfl
    · simp [State.sumwl, State.tableValid, State.withTurnsCt, htag]
    · rfl
  cases r with
  | sumwlLo => simp only [State.regValue, hsumwl]
  | sumwlHi => simp only [State.regValue, hsumwl]
  | _ => rfl

theorem busRead_withTurnsCt {s : State} {c : List Code} (hc : CtUnseen s c) (ts : List Turn) (r : Reg) :
    (s.withTurnsCt ts c).busRead r = (s.busRead r).withTurnsCt ts c := by
  simp only [State.busRead, regValue_withTurnsCt hc, apply_ite (State.withTurnsCt · ts c)]
  cases r <;> rfl

theorem busWrite_withTurnsCt (s : State) (ts : List Turn) (c : List Code) (r : Reg) (w : Word) :
    (s.withTurnsCt ts c).busWrite r w = (s.busWrite r w).withTurnsCt ts c := by
  cases r with
  | cmd => cases h : s.pend <;> simp [State.busWrite, State.writeCmd, State.withTurnsCt, h]
  | status => simp only [State.busWrite, State.writeStatus, apply_ite (State.withTurnsCt · ts c)]; rfl
  | _ => rfl

theorem hostFaulted_withTurnsCt (s : State) (ts : List Turn) (c : List Code) (k : AccessKind) :
    (s.withTurnsCt ts c).hostFaulted k = (s.hostFaulted k).withTurnsCt ts c := by cases k <;> rfl

/-- An access does not look at the schedule, nor at a code table that is not valid. -/
theorem access_withTurnsCt {s : State} {c : List Code} (hc : CtUnseen s c) (ts : List Turn) (a : Access) :
    (s.withTurnsCt ts c).access a = (s.access a).withTurnsCt ts c := by
  simp only [State.access, busRead_withTurnsCt hc, busWrite_withTurnsCt, hostFaulted_withTurnsCt,
    apply_ite (State.withTurnsCt · ts c)]
  cases a.kind <;> rfl

/-- Reset does not look at CT, which it empties (R240). -/
theorem resetDuring_withTurnsCt (s : State) (ts : List Turn) (c : List Code) (d : Option Access) :
    (s.withTurnsCt ts c).resetDuring d = (s.resetDuring d).withTurnsCt ts [] := by
  cases d with
  | none => rfl
  | some a =>
    simp only [State.resetDuring, hostFaulted_withTurnsCt, apply_ite (State.withTurnsCt · ts [])]
    rfl

@[simp] theorem access_ct (s : State) (a : Access) : (s.access a).ct = s.ct :=
  (congrArg State.ct (access_eq s a) :)

@[simp] theorem resetDuring_ct (s : State) (d : Option Access) : (s.resetDuring d).ct = [] := by
  obtain ⟨-, h⟩ | ⟨a, -, -, h⟩ := resetDuring_cases s d <;> rw [h] <;> rfl

theorem engineStep_withTurns (s : State) (ts : List Turn) :
    engineStep { s with turns := ts } = andThen (engineStep s) fun t => .next { t with turns := ts } := by
  obtain hp | ⟨w, hp⟩ := Option.eq_none_or_eq_some s.pend
  · rw [engineStep_idle hp, engineStep_idle (s := { s with turns := ts }) hp, andThen]
  · obtain ⟨t, ht, -⟩ := execDecoded_next (decode s.cfg w) s
    have ht' := execDecoded_withOutside (decode s.cfg w) s { s with turns := ts }
    rw [ht] at ht'
    rw [engineStep_of_pend hp, engineStep_of_pend (s := { s with turns := ts }) hp, ht]
    exact congrArg retireOutcome ht'

theorem access_withTurns (s : State) (ts : List Turn) (a : Access) :
    State.access { s with turns := ts } a = { s.access a with turns := ts } :=
  (access_withTurnsCt (.inr rfl : CtUnseen s s.ct) ts a).trans
    (congrArg (State.withTurnsCt (s.access a) ts) (access_ct s a).symm)

theorem resetDuring_withTurns (s : State) (ts : List Turn) (d : Option Access) :
    State.resetDuring { s with turns := ts } d = { s.resetDuring d with turns := ts } :=
  (resetDuring_withTurnsCt s ts s.ct d).trans
    (congrArg (State.withTurnsCt (s.resetDuring d) ts) (resetDuring_ct s d).symm)

/-- A turn does not look at the schedule (R60). -/
theorem runTurn_withTurns (x : Turn) (s : State) (ts : List Turn) :
    runTurn x { s with turns := ts } = andThen (runTurn x s) fun t => .next { t with turns := ts } := by
  cases x with
  | host a => exact congrArg _ (access_withTurns s ts a)
  | engine => exact engineStep_withTurns s ts
  | reset d => exact congrArg _ (resetDuring_withTurns s ts d)

/-- Settles O23: the step performs its turn on the state with the rest of the schedule, at which no turn looks. -/
theorem runsOfStepAreRunsOfTurns : Obligations.RunsOfStepAreRunsOfTurns := by
  intro ts s
  induction ts generalizing s with
  | nil => rfl
  | cons x ts ih =>
    obtain ⟨t, ht, hturns⟩ := runTurn_next x { s with turns := [] }
    have hstep : step { s with turns := x :: ts } = .next { t with turns := ts } := by
      rw [step_of_turn rfl, runTurn_withTurns x { s with turns := [] }, ht]
      rfl
    have hkept : { t with turns := [] } = t := congrArg (fun l => { t with turns := l }) hturns.symm
    exact (run_core_succ hstep _).trans ((ih t).trans (by rw [runTurns, ht, andThen, hkept]))

/-! ### The contents of a code table that is not valid -/

/-- `s` with other contents of CT when no table is valid. -/
def State.withStaleCt (s : State) (c : List Code) : State := { s with ct := if s.ctag = .none then c else s.ct }

theorem staleEq_withStaleCt (s : State) (c : List Code) : StaleEq s (s.withStaleCt c) := by
  refine ⟨rfl, ?_⟩
  by_cases htag : s.ctag = .none
  · exact .inl htag
  · exact .inr (if_neg htag).symm

theorem staleEq_refl (s : State) : StaleEq s s := ⟨rfl, .inr rfl⟩

/-- States that differ only in the contents of a code table that is not valid: they are the same, or there is no valid table
(R44). -/
theorem eq_or_eq_withStaleCt {s t : State} (h : StaleEq s t) : t = s ∨ s.ctag = .none ∧ t = s.withStaleCt t.ct := by
  obtain ⟨heq, hct⟩ := h
  cases s
  cases t
  simp only [State.mk.injEq] at heq
  obtain ⟨rfl, rfl, rfl, -, rfl, rfl, rfl, rfl, rfl, rfl, rfl, rfl, rfl, rfl, rfl, rfl, rfl, rfl⟩ := heq
  rcases hct with rfl | rfl
  · exact .inr ⟨rfl, rfl⟩
  · exact .inl rfl

theorem loadSym_withStaleCt {s : State} (htag : s.ctag = .none) (x : Symbol) (c : List Code) :
    (s.withStaleCt c).loadSym x = (s.loadSym x).withStaleCt c := by
  have hft : (s.withStaleCt c).ft = s.ft := rfl
  simp only [State.loadSym, hft, apply_ite (State.withStaleCt · c)]
  cases s
  cases htag
  cases findEntry _ x with
  | some i => rfl
  | none => simp only [apply_ite (State.withStaleCt · c)]; rfl

/-- Without a valid table a command does not look at CT, and a build writes it (R44, R134). -/
theorem exec_withStaleCt {s : State} (htag : s.ctag = .none) (i : Instr) (c : List Code) :
    exec i (s.withStaleCt c) = andThen (exec i s) fun t => .next (t.withStaleCt c) := by
  have hload := fun x => loadSym_withStaleCt htag x c
  cases s
  cases htag
  cases i with
  | nop => rfl
  | clear => rfl
  | loadSym x => simp only [exec, execLoadSym, hload, andThen_ite]; rfl
  | buildSf => simp only [exec, execBuildSf, andThen_ite]; rfl
  | buildHuff => simp only [exec, execBuildHuff, andThen_ite]; rfl
  | enc x => simp only [exec, execEnc, State.encSym, andThen_ite]; rfl
  | decBit b => simp only [exec, execDecBit, andThen_ite]; rfl
  | decEnd => simp only [exec, execDecEnd, andThen_ite]; rfl
  | query idx => simp only [exec, execQuery, andThen_ite]; rfl

theorem engineStep_withStaleCt {s : State} (htag : s.ctag = .none) (c : List Code) :
    engineStep (s.withStaleCt c) = andThen (engineStep s) fun t => .next (t.withStaleCt c) := by
  obtain hp | ⟨w, hp⟩ := Option.eq_none_or_eq_some s.pend
  · rw [engineStep_idle hp, engineStep_idle (s := s.withStaleCt c) hp, andThen]
  · have hexec : execDecoded (decode s.cfg w) (s.withStaleCt c) =
        andThen (execDecoded (decode s.cfg w) s) fun t => .next (t.withStaleCt c) := by
      cases decode s.cfg w with
      | instr i => exact exec_withStaleCt htag i c
      | illegalCommand => cases s; cases htag; rfl
      | illegalOperand => cases s; cases htag; rfl
    obtain ⟨t, ht, -⟩ := execDecoded_next (decode s.cfg w) s
    rw [ht] at hexec
    rw [engineStep_of_pend hp, engineStep_of_pend (s := s.withStaleCt c) hp, ht]
    exact congrArg retireOutcome hexec

theorem withStaleCt_eq {s : State} (htag : s.ctag = .none) (c : List Code) : s.withStaleCt c = s.withTurnsCt s.turns c := by
  rw [State.withStaleCt, if_pos htag, State.withTurnsCt]

theorem access_withStaleCt {s : State} (htag : s.ctag = .none) (a : Access) (c : List Code) :
    (s.withStaleCt c).access a = (s.access a).withStaleCt c := by
  have htag' : (s.access a).ctag = .none := (congrArg State.ctag (access_eq s a) :).trans htag
  rw [withStaleCt_eq htag, withStaleCt_eq htag', access_withTurnsCt (.inl htag), access_turns]

/-- Without a valid table a turn leads to states that differ at most in CT, whatever CT held (R44). -/
theorem runTurn_staleEq {s t : State} (htag : s.ctag = .none) {x : Turn} (h : runTurn x s = .next t) (c : List Code) :
    ∃ t', runTurn x (s.withStaleCt c) = .next t' ∧ StaleEq t t' ∧ t.busData = t'.busData := by
  cases x with
  | host a =>
    cases h
    exact ⟨(s.access a).withStaleCt c, congrArg Host.Outcome.next (access_withStaleCt htag a c),
      staleEq_withStaleCt _ c, rfl⟩
  | engine =>
    refine ⟨t.withStaleCt c, ?_, staleEq_withStaleCt t c, rfl⟩
    rw [runTurn, engineStep_withStaleCt htag, ← runTurn, h, andThen]
  | reset d =>
    cases h
    refine ⟨_, rfl, ?_⟩
    rw [withStaleCt_eq htag, resetDuring_withTurnsCt, ← resetDuring_turns s d, ← resetDuring_ct s d]
    exact ⟨staleEq_refl _, rfl⟩

/-- Settles O25: without a valid table neither a register nor a turn looks at CT; with one the states are the same. -/
theorem staleCodeTableCannotBeObserved : Obligations.StaleCodeTableCannotBeObserved := by
  intro s t h
  obtain rfl | ⟨htag, ht⟩ := eq_or_eq_withStaleCt h
  · exact ⟨fun _ => rfl, fun s' hs' => ⟨s', hs', staleEq_refl s', rfl⟩⟩
  rw [ht]
  generalize t.ct = c
  refine ⟨fun r => ?_, fun s' hs' => ?_⟩
  · rw [withStaleCt_eq htag, regValue_withTurnsCt (.inl htag)]
  · cases hturns : s.turns with
    | nil =>
      rw [step_of_emptySchedule hturns] at hs'
      obtain ⟨t', ht', hstale⟩ := runTurn_staleEq (x := .engine) htag hs' c
      exact ⟨t', (step_of_emptySchedule (s := s.withStaleCt c) hturns).trans ht', hstale⟩
    | cons x ts =>
      rw [step_of_turn hturns] at hs'
      obtain ⟨t', ht', hstale⟩ := runTurn_staleEq (s := { s with turns := ts }) htag hs' c
      exact ⟨t', (step_of_turn (s := s.withStaleCt c) hturns).trans ht', hstale⟩

end Sys2Proof.Machine

namespace Sys2Proof.Machine

/-! ### Host faults -/

/-- An access outside R73 is a host fault and nothing else (R74, R231). -/
theorem access_undefined {s : State} {a : Access} (h : a.outsideR73 s.cfg) : s.access a = s.hostFaulted a.kind :=
  if_neg (Bool.eq_false_iff.1 ((not_defined_iff a s.cfg).2 h))

/-- In the same step as reset it is a host fault too (R231, R241). -/
theorem resetDuring_undefined {s : State} {a : Access} (h : a.outsideR73 s.cfg) :
    s.resetDuring (some a) = (s.hostFaulted a.kind).assertReset :=
  if_neg (Bool.eq_false_iff.1 ((not_defined_iff a s.cfg).2 h))

/-- A defined access leaves the host-fault record (R231). -/
theorem access_defined_hostFault {s : State} {a : Access} (h : a.defined s.cfg = true) :
    (s.access a).hostFault = s.hostFault := by
  rw [State.access, if_pos h]
  cases a.kind with
  | read =>
    simp only [State.busRead]
    split
    · cases regAt (a.offset s.cfg) <;> rfl
    · rfl
  | write w =>
    cases hr : regAt (a.offset s.cfg) with
    | cmd => simp only [State.busWrite, State.writeCmd]; split <;> rfl
    | status => simp only [State.busWrite, State.writeStatus]; split <;> rfl
    | _ => rfl

@[simp] theorem hostFaulted_hostFault (s : State) (k : AccessKind) : (s.hostFaulted k).hostFault = true := by
  cases k <;> rfl

@[simp] theorem hostFaulted_cfg (s : State) (k : AccessKind) : (s.hostFaulted k).cfg = s.cfg := by cases k <;> rfl

/-- A host fault is no event of the unit (R74). -/
theorem hostFaulted_unitPart (s : State) (k : AccessKind) : (s.hostFaulted k).unitPart = s.unitPart := by
  cases k <;> rfl

@[simp] theorem access_cfg (s : State) (a : Access) : (s.access a).cfg = s.cfg :=
  (congrArg State.cfg (access_eq s a) :)

/-- Only an access outside R73 adds to the host-fault record, and none clears it (R231). -/
theorem access_hostFault (s : State) (a : Access) :
    (s.access a).hostFault = s.hostFault ∨ a.outsideR73 s.cfg ∧ (s.access a).hostFault = true := by
  cases h : a.defined s.cfg with
  | true => exact .inl (access_defined_hostFault h)
  | false =>
    have hout := (not_defined_iff a s.cfg).1 h
    exact .inr ⟨hout, by rw [access_undefined hout, hostFaulted_hostFault]⟩

/-- Reset leaves the host-fault record, but for an access outside R73 in the same step (R231, R240). -/
theorem resetDuring_hostFault (s : State) (d : Option Access) :
    (s.resetDuring d).hostFault = s.hostFault ∨
      ∃ a, d = some a ∧ a.outsideR73 s.cfg ∧ (s.resetDuring d).hostFault = true := by
  obtain ⟨-, h⟩ | ⟨a, hd, hundef, h⟩ := resetDuring_cases s d
  · exact .inl (by rw [h, State.assertReset_hostFault])
  · exact .inr ⟨a, hd, (not_defined_iff a s.cfg).1 hundef, by rw [h, State.assertReset_hostFault, hostFaulted_hostFault]⟩

@[simp] theorem resetDuring_cfg (s : State) (d : Option Access) : (s.resetDuring d).cfg = s.cfg := by
  obtain ⟨-, h⟩ | ⟨a, -, -, h⟩ := resetDuring_cases s d <;> simp [h]

/-- The engine leaves the host-fault record and the configuration (R30, R231). -/
theorem engineStep_hostFault_cfg {s t : State} (h : engineStep s = .next t) :
    t.hostFault = s.hostFault ∧ t.cfg = s.cfg := by
  obtain hp | ⟨w, hp⟩ := Option.eq_none_or_eq_some s.pend
  · cases h.symm.trans (engineStep_idle hp)
    exact ⟨rfl, rfl⟩
  · rw [engineStep_of_pend hp] at h
    obtain ⟨u, hu, hcfg⟩ := execDecoded_next (decode s.cfg w) s
    rw [hu] at h
    cases h
    exact ⟨rfl, hcfg⟩

/-- Settles O17: a step is the engine's, which leaves the record, an access or a reset. -/
theorem hostFaultIsStickyAndOnlyFromUndefinedAccess : Obligations.HostFaultIsStickyAndOnlyFromUndefinedAccess := by
  intro s t h
  have hkept : ∀ {P : Prop}, t.hostFault = s.hostFault →
      (s.hostFault = true → t.hostFault = true) ∧ (s.hostFault = false → t.hostFault = true → P) := fun heq => by
    rw [heq]
    exact ⟨id, fun hf ht => absurd ht (Bool.eq_false_iff.1 hf)⟩
  cases hturns : s.turns with
  | nil =>
    rw [step_of_emptySchedule hturns] at h
    obtain ⟨hfault, hcfg⟩ := engineStep_hostFault_cfg h
    exact ⟨hcfg, hkept hfault⟩
  | cons x ts =>
    rw [step_of_turn hturns] at h
    cases x with
    | engine =>
      obtain ⟨hfault, hcfg⟩ := engineStep_hostFault_cfg h
      exact ⟨hcfg, hkept hfault⟩
    | host a =>
      cases h
      refine ⟨access_cfg _ _, ?_⟩
      obtain hfault | ⟨hout, hfault⟩ := access_hostFault { s with turns := ts } a
      · exact hkept hfault
      · exact ⟨fun _ => hfault, fun _ _ => ⟨a, ts, .inl rfl, hout⟩⟩
    | reset d =>
      cases h
      refine ⟨resetDuring_cfg _ _, ?_⟩
      obtain hfault | ⟨a, rfl, hout, hfault⟩ := resetDuring_hostFault { s with turns := ts } d
      · exact hkept hfault
      · exact ⟨fun _ => hfault, fun _ _ => ⟨a, ts, .inr rfl, hout⟩⟩

/-- Settles O16: outside R73 the access is the host fault alone, before a reset too. -/
theorem undefinedAccessIsAHostFault : Obligations.UndefinedAccessIsAHostFault := by
  intro s a ts hout hturns
  have hfree : ∀ u : State, a.kind = .read → (u.hostFaulted a.kind).busData = Config.freeRead u.draws := fun u hk => by
    rw [hk]
    rfl
  rcases hturns with hturns | hturns
  · refine ⟨_, step_of_hostTurn hturns, ?_⟩
    rw [access_undefined (s := { s with turns := ts }) hout, if_pos hturns]
    exact ⟨hostFaulted_unitPart _ _, hostFaulted_hostFault _ _, hfree _⟩
  · refine ⟨_, (step_of_turn hturns).trans rfl, ?_⟩
    rw [resetDuring_undefined (s := { s with turns := ts }) hout, if_neg (by rw [hturns]; simp)]
    refine ⟨?_, hostFaulted_hostFault _ _, hfree _⟩
    rw [State.assertReset, hostFaulted_cfg]
    rfl

/-! ### Reset -/

/-- Reset leaves the reset values, and of the host's fields what an access in the same step left (R240, R241). -/
theorem resetDuring_eq (s : State) (d : Option Access) :
    s.resetDuring d = { State.resetOf s.cfg with
      turns := s.turns, busData := (s.resetDuring d).busData, hostFault := (s.resetDuring d).hostFault,
      draws := (s.resetDuring d).draws } := by
  obtain ⟨-, h⟩ | ⟨a, -, -, h⟩ := resetDuring_cases s d
  · rw [h]
    rfl
  · rw [h, State.assertReset, hostFaulted_cfg, hostFaulted_turns]

/-- Every register from CMD on (R31). -/
theorem regAt_past_constants {off : Nat} (h : 0x0C ≤ off) (hoff : off < 256) :
    regAt off ≠ .id ∧ regAt off ≠ .param0 ∧ regAt off ≠ .param1 := by
  have hmap : ∀ n : Fin 64, 3 ≤ n.val → regAtIndex n ≠ .id ∧ regAtIndex n ≠ .param0 ∧ regAtIndex n ≠ .param1 := by decide
  exact hmap ⟨off / 4, by omega⟩ (show 3 ≤ off / 4 by omega)

/-- After reset every register but the three constants reads 0 (R240). -/
theorem regValue_resetDuring (s : State) (d : Option Access) {r : Reg} (h : r ≠ .id ∧ r ≠ .param0 ∧ r ≠ .param1) :
    (s.resetDuring d).regValue r = 0#32 := by
  rw [resetDuring_eq]
  obtain ⟨hid, hparam0, hparam1⟩ := h
  cases r with
  | id => exact absurd rfl hid
  | param0 => exact absurd rfl hparam0
  | param1 => exact absurd rfl hparam1
  | resultCode k => exact packWord_eq_zero (Nat.zero_le _)
  | status => simp [State.regValue, State.status, State.busy, State.tableValid, State.resetOf, CodeTag.alg, ErrCode.toByte]
  | _ =>
    simp [State.regValue, State.sumwl, State.tableValid, State.resetOf, State.nSyms, State.total, totalOf, State.decBufLen]

/-- Settles O18: reset leaves the reset values, and the host's record changes only by an access outside R73. -/
theorem resetInputRestoresTheResetState : Obligations.ResetInputRestoresTheResetState := by
  intro s d ts hturns
  refine ⟨_, (step_of_turn hturns).trans rfl, resetDuring_eq _ _, fun hdef => ?_, ?_, fun off _ hlow hoff => ?_⟩
  · obtain ⟨-, h⟩ | ⟨a, hd, hundef, -⟩ := resetDuring_cases { s with turns := ts } d
    · rw [h]
      exact ⟨rfl, rfl, rfl⟩
    · exact absurd ((not_defined_iff a s.cfg).1 hundef) (hdef a hd)
  · rintro a rfl hout
    rw [resetDuring_undefined (s := { s with turns := ts }) hout, State.assertReset_hostFault, hostFaulted_hostFault]
  · exact regValue_resetDuring _ _ (regAt_past_constants hlow hoff)

/-! ### What idle reads return -/

/-- The reserved offsets of the map (R31). -/
theorem regAt_reserved {off : Nat} (h4 : off % 4 = 0) (hoff : off < 256) (h : 0x34 ≤ off ∧ off < 0x40 ∨ 0x80 ≤ off) :
    regAt off = .reserved := by
  have hmap : ∀ n : Fin 64, 13 ≤ n.val ∧ n.val < 16 ∨ 32 ≤ n.val → regAtIndex n = .reserved := by decide
  exact hmap ⟨off / 4, by omega⟩ (show 13 ≤ off / 4 ∧ off / 4 < 16 ∨ 32 ≤ off / 4 by omega)

/-- PARAM0 of a legal configuration (R33). -/
theorem param0Value_toNat {cfg : Config} (h : cfg.wf) : (param0Value cfg).toNat = cfg.symW + 2 ^ 8 * cfg.cntW := by
  obtain ⟨hsymW, -, hcntW⟩ := h
  rw [param0Value, BitVec.toNat_ofNat]
  omega

/-- PARAM1 of a legal configuration (R7, R33). -/
theorem param1Value_toNat {cfg : Config} (h : cfg.wf) :
    (param1Value cfg).toNat = cfg.maxSyms + 2 ^ 16 * max 1 (cfg.maxSyms - 1) := by
  obtain ⟨-, ⟨-, hsyms⟩, -⟩ := h
  have hlen : max 1 (cfg.maxSyms - 1) ≤ 512 := by omega
  rw [param1Value, BitVec.toNat_ofNat, Config.maxCodeLen]
  generalize max 1 (cfg.maxSyms - 1) = len at hlen ⊢
  omega

/-- The STATUS word as a number: its fields do not overlap and fit 16 bits (R35). -/
theorem status_toNat (s : State) : s.status.toNat =
    s.busy.toNat + s.tableValid.toNat * 2 ^ 1 + s.ctag.alg.toNat * 2 ^ 2 + s.symValid.toNat * 2 ^ 4 + s.ddead.toNat * 2 ^ 5
      + s.seqLost.toNat * 2 ^ 6 + s.overrun.toNat * 2 ^ 7 + s.err.toByte.toNat * 2 ^ 8 := by
  have hbits : ∀ b : Bool, b.toNat ≤ 1 := Bool.toNat_le
  have hbusy := hbits s.busy
  have hvalid := hbits s.tableValid
  have halg : s.ctag.alg.toNat ≤ 2 := by cases s.ctag <;> decide
  have hsym := hbits s.symValid
  have hdead := hbits s.ddead
  have hlost := hbits s.seqLost
  have hoverrun := hbits s.overrun
  have herr := s.err.toByte.isLt
  rw [State.status, BitVec.toNat_ofNat]
  omega

/-- Settles O11: each offset names its register, whose value is a constant or STATUS. -/
theorem idleReadsOfIdentityAndStatus : Obligations.IdleReadsOfIdentityAndStatus := by
  intro s off ts hinv hp h4 hoff hturns
  refine ⟨_, step_of_idleRead hp h4 hoff hturns, ?_, ?_, ?_, ?_, ?_, fun hres => ?_⟩
  · rintro rfl
    rfl
  · rintro rfl
    exact param0Value_toNat hinv.cfgWf
  · rintro rfl
    exact param1Value_toNat hinv.cfgWf
  · rintro rfl
    rfl
  · rintro rfl
    have hbusy : s.busy = false := by simp [State.busy, hp]
    have htag : s.tableValid.toNat * 2 ^ 1 + s.ctag.alg.toNat * 2 ^ 2 =
        (if s.ctag = .none then 0 else 2) + (if s.ctag = .sf then 4 else if s.ctag = .huff then 8 else 0) := by
      rw [State.tableValid]
      cases s.ctag <;> rfl
    rw [← htag]
    refine (status_toNat s).trans ?_
    rw [hbusy, Bool.toNat_false]
    congr 1
    · omega
    · cases s.err <;> rfl
  · rw [regAt_reserved h4 hoff (by omega)]
    rfl

/-- A legal configuration's counts fit a register (R6). -/
theorem maxTotal_lt_two_pow_32 {cfg : Config} (h : cfg.wf) : maxTotal cfg < 2 ^ 32 := by
  obtain ⟨-, -, -, hcntW⟩ := h
  have hw : 2 ^ cfg.cntW ≤ 2 ^ 32 := Nat.pow_le_pow_right (by omega) hcntW
  unfold maxTotal
  omega

theorem toNat_ofNat_of_lt {n : Nat} (h : n < 2 ^ 32) : (BitVec.ofNat 32 n).toNat = n :=
  (BitVec.toNat_ofNat n 32).trans (Nat.mod_eq_of_lt h)

/-- Settles O12: each offset names its register, and the invariant keeps each value within it. -/
theorem idleReadsOfResultsAndTotals : Obligations.IdleReadsOfResultsAndTotals := by
  intro s off ts hinv hp h4 hoff hturns
  have hlen := maxCodeLen_le_512 hinv.cfgWf
  have hcode := hinv.resultInv.codeRange
  have hbuf := hinv.decoderInv.lengthBound
  have hsize := hinv.ftInv.sizeBound
  obtain ⟨-, ⟨-, hsyms⟩, -⟩ := hinv.cfgWf
  have hsumwl := sumwl_lt_two_pow_41 hinv
  have htotal := total_lt_two_pow_32 hinv
  have hcount : s.resCount < 2 ^ 32 := hinv.resultInv.countRange.trans_lt (maxTotal_lt_two_pow_32 hinv.cfgWf)
  have hsmall : ∀ n ≤ 513, (BitVec.ofNat 32 (n % 2 ^ 10)).toNat = n := fun n hn => by
    rw [BitVec.toNat_ofNat]
    omega
  refine ⟨_, step_of_idleRead hp h4 hoff hturns, ?_, ?_, ?_, ?_, ?_, ?_, ?_, ?_⟩
  · rintro rfl
    exact BitVec.toNat_setWidth_of_le (by decide)
  · rintro rfl
    exact toNat_ofNat_of_lt hcount
  · rintro rfl
    exact hsmall s.resCode.length (by omega)
  · rintro rfl
    exact hsmall s.ft.length (by omega)
  · rintro rfl
    exact toNat_ofNat_of_lt htotal
  · rintro rfl
    exact BitVec.toNat_ofNat _ _
  · rintro rfl
    exact toNat_ofNat_of_lt (by omega)
  · rintro rfl
    exact hsmall s.dbuf.length (by omega)

/-! ### What busy reads return -/

/-- The offsets of the registers R65 leaves free while BUSY = 1: CMD, the results, the totals and RESULT_CODE (R31). -/
theorem regAt_open {off : Nat} (h4 : off % 4 = 0)
    (h : off = 0x0C ∨ 0x14 ≤ off ∧ off < 0x34 ∨ 0x40 ≤ off ∧ off < 0x80) :
    regAt off ∉ [Reg.id, .param0, .param1, .status, .reserved] := by
  have hmap : ∀ n : Fin 64, n.val = 3 ∨ 5 ≤ n.val ∧ n.val < 13 ∨ 16 ≤ n.val ∧ n.val < 32 →
      regAtIndex n ∉ [Reg.id, .param0, .param1, .status, .reserved] := by decide
  exact hmap ⟨off / 4, by omega⟩
    (show off / 4 = 3 ∨ 5 ≤ off / 4 ∧ off / 4 < 13 ∨ 16 ≤ off / 4 ∧ off / 4 < 32 by omega)

/-- While BUSY = 1 such a register reads as a free word (R65). -/
theorem busRead_open {s : State} (hb : s.busy = true) {r : Reg} (h : r ∉ [Reg.id, .param0, .param1, .status, .reserved]) :
    s.busRead r = s.returnFree := by
  unfold State.busRead
  rw [if_pos hb]
  cases r with
  | id | param0 | param1 | status | reserved => simp at h
  | _ => rfl

/-- A busy STATUS read: BUSY, the current CMD_OVERRUN, and free bits below bit 16 (R65). -/
theorem busyStatus_getLsbD (o : Bool) (free : Word) {j : Nat} (hj : j < 32) :
    (busyStatus o free).getLsbD j = if j = 0 then true else if j = 7 then o else if j < 16 then free.getLsbD j else false := by
  have hmask : ∀ k : Fin 32, (0x0000FF7E#32).getLsbD k = decide (k.val ≠ 0 ∧ k.val ≠ 7 ∧ k.val < 16) := by decide
  have hone : ∀ k : Fin 32, (0x00000001#32).getLsbD k = decide (k.val = 0) := by decide
  have hoverrun : ∀ k : Fin 32, (if o then 0x00000080#32 else 0x00000000#32).getLsbD k = (o && decide (k.val = 7)) := by
    cases o <;> decide
  rw [busyStatus, BitVec.getLsbD_or, BitVec.getLsbD_or, BitVec.getLsbD_and, hmask ⟨j, hj⟩, hone ⟨j, hj⟩, hoverrun ⟨j, hj⟩]
  by_cases h0 : j = 0
  · simp [h0]
  · by_cases h7 : j = 7 <;> by_cases h16 : j < 16 <;> simp [h0, h7, h16]

/-- Settles O15: each offset names its register, and what a busy read of it returns. -/
theorem busyReadsGiveConstantsStatusOrFree : Obligations.BusyReadsGiveConstantsStatusOrFree := by
  intro s w off ts hp h4 hoff hturns
  have hb : State.busy { s with turns := ts } = true := by simp [State.busy, hp]
  have hread : ∀ r, State.busRead { s with turns := ts } r = _ := fun r => if_pos hb
  refine ⟨State.busRead { s with turns := ts } (regAt off), ?_, (busRead_unitPart _ _).1, ?_, ?_, ?_, ?_, fun hres => ?_,
    fun hopen => ?_⟩
  · rw [step_of_hostTurn hturns, (access_word { s with turns := ts } h4 hoff).1]
  · rintro rfl
    rw [hread]
    rfl
  · rintro rfl hwf
    rw [hread]
    exact param0Value_toNat hwf
  · rintro rfl hwf
    rw [hread]
    exact param1Value_toNat hwf
  · rintro rfl j hj
    rw [hread]
    exact busyStatus_getLsbD s.overrun _ hj
  · rw [regAt_reserved h4 hoff hres, hread]
    rfl
  · rw [busRead_open hb (regAt_open h4 hopen)]
    rfl

end Sys2Proof.Machine

namespace Sys2Proof.Machine

/-! ### An idle unit between commands -/

/-- Offset 0x0C alone is CMD (R31). -/
theorem eq_of_regAt_cmd {off : Nat} (h4 : off % 4 = 0) (hoff : off < 256) (h : regAt off = .cmd) : off = 0x0C := by
  have hmap : ∀ n : Fin 64, regAtIndex n = .cmd → n.val = 3 := by decide
  have hindex : off / 4 = 3 := hmap ⟨off / 4, by omega⟩ h
  omega

/-- A write beside CMD leaves the latch and sets no overrun (R72, R78). -/
theorem busWrite_pend_overrun (s : State) {r : Reg} (h : r ≠ .cmd) (w : Word) :
    (s.busWrite r w).pend = s.pend ∧ ((s.busWrite r w).overrun = true → s.overrun = true) := by
  by_cases hstatus : r = .status
  · subst hstatus
    simp only [State.busWrite, State.writeStatus]
    split
    · exact ⟨rfl, nofun⟩
    · exact ⟨rfl, id⟩
  · rw [busWrite_ignored s w h hstatus]
    exact ⟨rfl, id⟩

/-- Any access but a CMD write leaves the latch and sets no overrun (R63, R74, R77). -/
theorem access_pend_overrun (s : State) {a : Access} (ha : a.kind = .read ∨ a.addr ≠ s.cfg.pcuBase + 0x0C) :
    (s.access a).pend = s.pend ∧ ((s.access a).overrun = true → s.overrun = true) := by
  cases hk : a.kind with
  | read =>
    obtain ⟨hunit, -⟩ := access_read_unitPart s hk
    have hoverrun : (s.access a).overrun = s.overrun := (congrArg State.overrun hunit :)
    exact ⟨(congrArg State.pend hunit :), hoverrun ▸ id⟩
  | write w =>
    by_cases hout : a.outsideR73 s.cfg
    · rw [access_undefined hout, hk]
      exact ⟨rfl, id⟩
    · have hdef : a.defined s.cfg = true := by
        rw [← Bool.not_eq_false, not_defined_iff]
        exact hout
      have hcmd : regAt (a.offset s.cfg) ≠ .cmd := fun hreg => by
        simp only [Access.outsideR73, not_or, ne_eq, not_not] at hout
        obtain ⟨hlow, hhigh, h4, -⟩ := hout
        have hoff : a.addr - s.cfg.pcuBase = 0x0C := eq_of_regAt_cmd h4 (by omega) hreg
        rcases ha with hread | haddr
        · simp [hk] at hread
        · omega
      rw [State.access, if_pos hdef, hk]
      exact busWrite_pend_overrun s hcmd w

/-- Such an access changes nothing of the unit but CMD_OVERRUN (R67). -/
theorem access_idle_unitPart {s : State} {a : Access}
    (ha : a.kind = .read ∨ a.addr ≠ s.cfg.pcuBase + 0x0C) :
    { s.access a with overrun := s.overrun }.unitPart = s.unitPart := by
  rw [access_eq, (access_pend_overrun s ha).1]
  rfl

/-- Settles O24: the engine has nothing to do, and no access but a CMD write gives it anything. -/
theorem idleUnitKeepsItsStateUntilTheNextCommand : Obligations.IdleUnitKeepsItsStateUntilTheNextCommand := by
  intro ts
  induction ts with
  | nil =>
    intro s t _ _ h
    cases h
    exact ⟨rfl, id⟩
  | cons x ts ih =>
    intro s t hp hts h
    obtain ⟨hx, hrest⟩ := List.forall_mem_cons.1 hts
    rw [runTurns] at h
    rcases hx with rfl | ⟨a, rfl, ha⟩
    · rw [runTurn, engineStep_idle hp] at h
      exact ih s t hp hrest h
    · obtain ⟨hpend, hoverrun⟩ := access_pend_overrun s ha
      obtain ⟨hunit, hmono⟩ := ih (s.access a) t (hpend.trans hp) (by rwa [access_cfg]) h
      refine ⟨?_, hoverrun ∘ hmono⟩
      calc { t with overrun := s.overrun }.unitPart
          = { s.access a with overrun := s.overrun }.unitPart :=
            congrArg (fun u : State => { u with overrun := s.overrun }) hunit
        _ = s.unitPart := access_idle_unitPart ha

end Sys2Proof.Machine

namespace Sys2Proof.Machine

/-! ### The builders in their own terms -/

/-- Settles O34: the order is sorted by its key, and no index stands in it twice. -/
theorem shannonFanoOrderIsTheSortedPermutation : Obligations.ShannonFanoOrderIsTheSortedPermutation := by
  intro ft
  refine ⟨itemsOf_eq ft ▸ sfOrder_perm ft, ?_⟩
  have hdistinct : (sfOrder ft).Pairwise (fun a b => a.idx ≠ b.idx) := List.pairwise_map.1 (sfOrder_idx_nodup ft)
  refine ((sfOrder_sorted ft).and hdistinct).imp fun {a b} ⟨hbefore, hne⟩ => ?_
  simp only [Item.before, Bool.or_eq_true, Bool.and_eq_true, decide_eq_true_eq] at hbefore
  omega

/-- Fuel beyond the number of merges changes nothing (R164). -/
theorem huffMerge_fuel {f g seq : Nat} {q : List Node} (hf : q.length ≤ f + 1) (hg : q.length ≤ g + 1) :
    huffMerge f seq q = huffMerge g seq q := by
  induction f generalizing g seq q with
  | zero =>
    match q, hf with
    | [], _ => cases g <;> rfl
    | [n], _ => rw [huffMerge_singleton, huffMerge_singleton]
  | succ f ih =>
    rcases Nat.lt_or_ge q.length 2 with h1 | h2
    · match q, h1 with
      | [], _ => cases g <;> rfl
      | [n], _ => rw [huffMerge_singleton, huffMerge_singleton]
    · obtain ⟨a, q1, b, q2, ha, hb, hperm, -⟩ := exists_popMin_twice h2
      have hlen := hperm.length_eq
      simp only [List.length_cons] at hlen
      obtain ⟨g, rfl⟩ := Nat.exists_eq_add_of_le' (show 1 ≤ g by omega)
      rw [huffMerge_succ ha hb, huffMerge_succ ha hb]
      exact ih (by rw [List.length_cons]; omega) (by rw [List.length_cons]; omega)

/-- Settles O41: the seeds written out, one round of the loop at any fuel that is enough, and its end. -/
theorem huffmanMergeFollowsItsLoop : Obligations.HuffmanMergeFollowsItsLoop := by
  refine ⟨fun ft h2 => ?_, fun fuel seq q hfuel h2 => ?_, huffMerge_singleton⟩
  · rw [huffCodes_of_two_le h2, seedNodes_eq]
    rfl
  · obtain ⟨a, q1, b, q2, ha, hb, hperm, -⟩ := exists_popMin_twice h2
    refine ⟨a, q1, b, q2, ha, hb, hperm, ?_⟩
    rw [huffMerge_fuel (g := fuel + 1) (by omega) (by omega), huffMerge_succ ha hb]
    rfl

/-- Settles O43: a full tree is complete, and one entry has the code "0" from either builder. -/
theorem huffmanTableIsComplete : Obligations.HuffmanTableIsComplete := by
  intro ft
  refine ⟨fun h2 => ?_, fun h1 => ?_⟩
  · obtain ⟨a, ha, hperm⟩ := huffCodes_perm_fullCode h2
    exact ⟨(kraftSum_perm hperm).trans ha.kraftSum_eq_one, (complete_perm hperm).2 ha.complete⟩
  · obtain ⟨e, rfl⟩ := List.length_eq_one_iff.1 h1
    exact ⟨huffCodes_singleton e, (huffCodes_singleton e).trans (sfCodes_singleton e).symm⟩

/-! ### The dead buffer -/

/-- A valid table of two entries or more is complete, whichever builder made it (R147, R170). -/
theorem complete_of_inv {s : State} (h : Inv s) (htag : s.ctag ≠ .none) (h2 : 2 ≤ s.ft.length) : Complete s.ct := by
  cases hbuilder : s.ctag with
  | none => exact absurd hbuilder htag
  | sf => exact h.tableInv.sfBuilt hbuilder ▸ ((shannonFanoTableIsComplete s.ft).1 h2).2
  | huff => exact h.tableInv.huffBuilt hbuilder ▸ ((huffmanTableIsComplete s.ft).1 h2).2

/-- On a complete prefix code of non-empty codes no digit leads from a proper beginning of a code to a dead end (R181). -/
theorem exists_extension_of_complete {codes : List Code} (hp : PrefixFree codes) (hne : ∀ c ∈ codes, c ≠ [])
    (hcomplete : Complete codes) {buf : Code} (hbuf : buf ≠ [])
    (hlive : buf.dropLast = [] ∨ ∃ c ∈ codes, buf.dropLast <+: c ∧ buf.dropLast ≠ c) : ∃ c ∈ codes, buf <+: c := by
  obtain ⟨c, hc, hext | hpre⟩ := hcomplete buf
  · exact ⟨c, hc, hext⟩
  rcases List.prefix_concat_iff.1 ((List.dropLast_append_getLast hbuf).symm ▸ hpre) with heq | hshort
  · exact ⟨c, hc, by rw [heq, List.dropLast_append_getLast]⟩
  · rcases hlive with hnil | ⟨d, hd, hdpre, hdne⟩
    · exact absurd (List.prefix_nil.1 (hnil ▸ hshort)) (hne c hc)
    · have hcd : c = d := eq_of_prefix_of_prefixFree hp c hc d hd (hshort.trans hdpre)
      subst hcd
      exact absurd (hdpre.eq_of_length_le hshort.length_le) hdne

/-- Settles O48: a complete table has no dead buffer, and beside the one code "0" only the digit 1 is dead. -/
theorem deadBufferOnlyWithOneSymbol : Obligations.DeadBufferOnlyWithOneSymbol := by
  intro s hinv hdead
  obtain ⟨hbuf, hnone⟩ := hinv.decoderInv.deadMatchesNone hdead
  have hvalid : s.ctag ≠ .none ∧ s.ft ≠ [] := by
    rw [← not_or]
    exact fun h => hbuf (hinv.decoderInv.emptyWithoutTable h).1
  obtain ⟨htag, hft⟩ := hvalid
  have hlive := hinv.decoderInv.deadByOneDigit hdead
  rw [(validTable_of_inv hinv htag).codes_eq] at hnone hlive
  have hone : s.ft.length = 1 := by
    by_contra hmany
    have h2 : 2 ≤ s.ft.length := by
      have := List.length_pos_of_ne_nil hft
      omega
    obtain ⟨c, hc, hext⟩ := exists_extension_of_complete (hinv.tableInv.prefixFree htag)
      (fun c hc => List.ne_nil_of_length_pos (hinv.tableInv.codeLengths htag c hc).1) (complete_of_inv hinv htag h2) hbuf hlive
    exact hnone c hc hext
  refine ⟨hone, ?_⟩
  rw [hinv.tableInv.singleLeaf htag hone] at hnone hlive
  simp only [List.mem_singleton, exists_eq_left, forall_eq] at hnone hlive
  have hfirst : s.dbuf.dropLast = [] := hlive.elim id fun ⟨hpre, hne⟩ =>
    (List.prefix_concat_iff (l₂ := []).1 hpre).elim (absurd · hne) List.prefix_nil.1
  obtain ⟨d, hd⟩ : ∃ d, s.dbuf = [d] :=
    ⟨s.dbuf.getLast hbuf, by conv_lhs => rw [← List.dropLast_append_getLast hbuf, hfirst, List.nil_append]⟩
  cases d with
  | true => exact hd
  | false => exact absurd (hd ▸ List.prefix_rfl) hnone

end Sys2Proof.Machine

namespace Sys2Proof.Machine

/-! ### The invariant under the operations on the state -/

/-- The invariant says nothing of the latch, CMD_OVERRUN and the outside world. -/
theorem Inv.withOutside {s : State} (h : Inv s) (o : State) : Inv (s.withOutside o) where
  cfgWf := h.cfgWf
  ftInv := { h.ftInv with }
  tableInv := { h.tableInv with }
  decoderInv := { h.decoderInv with }
  resultInv := { h.resultInv with }

/-- A completion writes its fields alone (R64). -/
theorem Inv.withResults {s : State} (h : Inv s) {e : ErrCode} {v : Bool} {x : Symbol} {n : Nat} {c : Code}
    (hr : ResultInv { s with err := e, symValid := v, resSym := x, resCount := n, resCode := c }) :
    Inv { s with err := e, symValid := v, resSym := x, resCount := n, resCode := c } where
  cfgWf := h.cfgWf
  ftInv := { h.ftInv with }
  tableInv := { h.tableInv with }
  decoderInv := { h.decoderInv with }
  resultInv := hr

/-- The decoder is written alone by DEC_BIT and DEC_END (R51). -/
theorem Inv.withDecoder {s : State} (h : Inv s) {buf : Code} {dead : Bool}
    (hd : DecoderInv { s with dbuf := buf, ddead := dead }) : Inv { s with dbuf := buf, ddead := dead } where
  cfgWf := h.cfgWf
  ftInv := { h.ftInv with }
  tableInv := { h.tableInv with }
  decoderInv := hd
  resultInv := { h.resultInv with }

/-- An empty live decoder is fine with every table (R46). -/
theorem decoderInv_of_empty {s : State} (hbuf : s.dbuf = []) (hlive : s.ddead = false) : DecoderInv s where
  emptyWithoutTable _ := ⟨hbuf, hlive⟩
  liveExtends _ := .inl hbuf
  deadMatchesNone hdead := absurd hdead (by simp [hlive])
  deadByOneDigit hdead := absurd hdead (by simp [hlive])
  lengthBound := by simp [hbuf]

/-- A write of the tables empties the decoder (R130, R132, R140, R160). -/
theorem Inv.withTables {s : State} (h : Inv s) {ft : List Entry} {tag : CodeTag} {ct : List Code} {lost : Bool}
    (hft : FtInv { s with ft := ft }) (htable : TableInv { s with ft := ft, ctag := tag, ct := ct, seqLost := lost }) :
    Inv { s with ft := ft, ctag := tag, ct := ct, seqLost := lost, dbuf := [], ddead := false } where
  cfgWf := h.cfgWf
  ftInv := { hft with }
  tableInv := { htable with }
  decoderInv := decoderInv_of_empty rfl rfl
  resultInv := { h.resultInv with }

/-! ### Completions -/

/-- A result that the result registers can hold (R40). -/
structure ResultFits (cfg : Config) (r : Result) : Prop where
  symRange : r.sym.toNat < 2 ^ cfg.symW
  countRange : r.cnt ≤ maxTotal cfg
  codeRange : r.code.length ≤ cfg.maxCodeLen

theorem resultFits_zero (cfg : Config) : ResultFits cfg .zero := ⟨Nat.two_pow_pos _, Nat.zero_le _, Nat.zero_le _⟩

theorem Inv.raise {s : State} (h : Inv s) {e : ErrCode} (he : e ≠ .emptyInput) : Inv (s.raise e) := by
  obtain ⟨hsym, hcount, hcode⟩ := resultFits_zero s.cfg
  rw [State.raise_eq]
  exact h.withResults ⟨he, fun _ => ⟨rfl, rfl, rfl⟩, hsym, hcount, hcode, nofun⟩

theorem Inv.finishOk {s : State} (h : Inv s) : Inv s.finishOk := h.raise (e := .ok) nofun

theorem Inv.finishWith {s : State} (h : Inv s) {r : Result} (hr : ResultFits s.cfg r) : Inv (s.finishWith r) :=
  h.withResults ⟨nofun, fun hne => absurd rfl hne, hr.symRange, hr.countRange, hr.codeRange, nofun⟩

/-- An emission shows a code (R35). -/
theorem Inv.finishEmit {s : State} (h : Inv s) {r : Result} (hr : ResultFits s.cfg r) (hcode : r.code ≠ []) :
    Inv (s.finishEmit r) :=
  h.withResults ⟨nofun, fun hne => absurd rfl hne, hr.symRange, hr.countRange, hr.codeRange, fun _ => ⟨rfl, hcode⟩⟩

/-- A row's symbol and count come from FT, and past its end they are 0 (R43). -/
theorem resultFits_entry {s : State} (h : Inv s) (i : Nat) {c : Code} (hc : c.length ≤ s.cfg.maxCodeLen) :
    ResultFits s.cfg ⟨s.symAt i, s.cntAt i, c⟩ := by
  cases he : s.ft[i]? with
  | none => exact ⟨by simp [State.symAt, he], by simp [State.cntAt, he], hc⟩
  | some e =>
    have hmem := List.mem_of_getElem? he
    refine ⟨?_, ?_, hc⟩
    · simpa [State.symAt, he] using h.ftInv.symRange e hmem
    · simpa [State.cntAt, he] using (cnt_le_total hmem).trans h.ftInv.totalBound

/-- A valid table's codes fit, and past its end the code is empty (R44). -/
theorem codeAt_length_le {s : State} (h : Inv s) (htag : s.ctag ≠ .none) (i : Nat) :
    (s.codeAt i).length ≤ s.cfg.maxCodeLen := by
  cases hc : s.ct[i]? with
  | none => simp [State.codeAt, hc]
  | some c => simpa [State.codeAt, hc] using (h.tableInv.codeLengths htag c (List.mem_of_getElem? hc)).2

theorem resultFits_row {s : State} (h : Inv s) (htag : s.ctag ≠ .none) (i : Nat) : ResultFits s.cfg (s.row i) :=
  resultFits_entry h i (codeAt_length_le h htag i)

/-! ### The tables -/

theorem ftInv_nil (s : State) : FtInv { s with ft := [] } := ⟨List.nodup_nil, nofun, Nat.zero_le _, Nat.zero_le _, nofun⟩

/-- One more occurrence of an entry's symbol, with room in TOTAL (R132, R133). -/
theorem FtInv.bump {s : State} (h : FtInv s) {before after : List Entry} {x : Symbol} {n : Nat}
    (hft : s.ft = before ++ ⟨x, n⟩ :: after) (htotal : s.total ≠ maxTotal s.cfg) :
    FtInv { s with ft := before ++ ⟨x, n + 1⟩ :: after } := by
  obtain ⟨hnodup, hpos, hbound, hsize, hrange⟩ := h
  rw [hft] at hnodup hpos hsize hrange
  have hsum : State.total { s with ft := before ++ ⟨x, n + 1⟩ :: after } = s.total + 1 := by
    simp [State.total, totalOf, hft]
    omega
  simp only [List.forall_mem_append, List.forall_mem_cons] at hpos hrange
  obtain ⟨hposBefore, -, hposAfter⟩ := hpos
  refine ⟨by simpa using hnodup, ?_, ?_, by simpa using hsize, ?_⟩
  · exact List.forall_mem_append.2 ⟨hposBefore, List.forall_mem_cons.2 ⟨Nat.le_add_left 1 n, hposAfter⟩⟩
  · rw [hsum]
    exact Nat.lt_of_le_of_ne hbound htotal
  · exact List.forall_mem_append.2 ⟨hrange.1, List.forall_mem_cons.2 hrange.2⟩

/-- A new symbol in range, with room in TOTAL and in the table (R132, R133). -/
theorem FtInv.append {s : State} (h : FtInv s) {x : Symbol} (hx : x.toNat < 2 ^ s.cfg.symW)
    (hnew : x ∉ s.ft.map Entry.sym) (htotal : s.total ≠ maxTotal s.cfg) (hroom : s.ft.length ≠ s.cfg.maxSyms) :
    FtInv { s with ft := s.ft ++ [⟨x, 1⟩] } := by
  obtain ⟨hnodup, hpos, hbound, hsize, hrange⟩ := h
  have hsum : State.total { s with ft := s.ft ++ [⟨x, 1⟩] } = s.total + 1 := by simp [State.total, totalOf]
  refine ⟨?_, ?_, ?_, ?_, ?_⟩
  · rw [List.map_append]
    exact hnodup.append (List.nodup_singleton x) (List.disjoint_singleton.2 hnew)
  · exact List.forall_mem_append.2 ⟨hpos, by simp⟩
  · rw [hsum]
    exact Nat.lt_of_le_of_ne hbound htotal
  · rw [List.length_append]
    exact Nat.lt_of_le_of_ne hsize hroom
  · exact List.forall_mem_append.2 ⟨hrange, by simpa using hx⟩

theorem tableInv_of_none {s : State} (h : s.ctag = .none) : TableInv s where
  sfBuilt htag := absurd (h.symm.trans htag) nofun
  huffBuilt htag := absurd (h.symm.trans htag) nofun
  oneCodeEach htag := absurd h htag
  codeLengths htag := absurd h htag
  prefixFree htag := absurd h htag
  singleLeaf htag := absurd h htag
  lostHasNone _ := h

/-- Either builder's table of a frequency table within its size is a valid one (R146, R150, R169, R171). -/
theorem tableInv_of_built {s : State} (hsize : s.ft.length ≤ s.cfg.maxSyms) (hlost : s.seqLost = false)
    (hbuilt : s.ctag = .sf ∧ s.ct = sfCodes s.ft ∨ s.ctag = .huff ∧ s.ct = huffCodes s.ft) : TableInv s := by
  obtain ⟨⟨hlen, hp, hbounds⟩, hsingle⟩ : (s.ct.length = s.ft.length ∧ PrefixFree s.ct ∧
      ∀ c ∈ s.ct, 1 ≤ c.length ∧ c.length ≤ max 1 (s.ft.length - 1)) ∧ (s.ft.length = 1 → s.ct = [[false]]) := by
    rcases hbuilt with ⟨-, hct⟩ | ⟨-, hct⟩ <;> rw [hct]
    · exact ⟨shannonFanoTableIsAPrefixCode s.ft, fun h1 => ((shannonFanoTableIsComplete s.ft).2 h1).1⟩
    · exact ⟨huffmanTableIsAPrefixCode s.ft, fun h1 => ((huffmanTableIsComplete s.ft).2 h1).1⟩
  have hmax : max 1 (s.ft.length - 1) ≤ s.cfg.maxCodeLen := by
    unfold Config.maxCodeLen
    omega
  refine ⟨fun htag => ?_, fun htag => ?_, fun _ => hlen, fun _ c hc => ?_, fun _ => hp, fun _ => hsingle, ?_⟩
  · simpa [htag] using hbuilt
  · simpa [htag] using hbuilt
  · exact ⟨(hbounds c hc).1, (hbounds c hc).2.trans hmax⟩
  · simp [hlost]

/-- LOAD_SYM's success: a new frequency table within its bounds, and no code table (R132). -/
theorem Inv.loaded {s : State} (h : Inv s) {ft : List Entry} (hft : FtInv { s with ft := ft }) : Inv (s.loaded ft) :=
  (h.withTables (ct := s.ct) (lost := s.seqLost) hft (tableInv_of_none rfl)).finishOk

theorem Inv.clearSequence {s : State} (h : Inv s) : Inv s.clearSequence :=
  h.withTables (ct := s.ct) (ftInv_nil s) (tableInv_of_none rfl)

theorem Inv.loseSequence {s : State} (h : Inv s) : Inv s.loseSequence :=
  h.withTables (ct := s.ct) (ft := s.ft) h.ftInv (tableInv_of_none rfl)

theorem Inv.install {s : State} (h : Inv s) (hlost : s.seqLost = false) {tag : CodeTag} {ct : List Code}
    (hbuilt : tag = .sf ∧ ct = sfCodes s.ft ∨ tag = .huff ∧ ct = huffCodes s.ft) : Inv (s.install tag ct) :=
  h.withTables (ft := s.ft) (lost := s.seqLost) h.ftInv
    (tableInv_of_built (s := { s with ctag := tag, ct := ct }) h.ftInv.sizeBound hlost hbuilt)

/-! ### The decoder -/

theorem Inv.emptyDecoder {s : State} (h : Inv s) : Inv s.emptyDecoder :=
  h.withDecoder (decoderInv_of_empty rfl rfl)

/-- A live buffer has room for one more digit: it is empty or a proper beginning of a code (R7, R46). -/
theorem length_lt_of_live {s : State} (h : Inv s) (htag : s.ctag ≠ .none) (hlive : s.ddead = false) :
    s.dbuf.length < s.cfg.maxCodeLen := by
  rcases h.decoderInv.liveExtends hlive with hnil | ⟨c, hc, hpre, hne⟩
  · rw [hnil, Config.maxCodeLen]
    exact Nat.le_max_left _ _
  · rw [(validTable_of_inv h htag).codes_eq] at hc
    have hshort : s.dbuf.length < c.length :=
      Nat.lt_of_le_of_ne hpre.length_le fun heq => hne (hpre.eq_of_length heq)
    exact hshort.trans_le (h.tableInv.codeLengths htag c hc).2

/-- A live buffer that waits on a valid table (R46). -/
theorem decoderInv_of_waiting {s : State} (htag : s.ctag ≠ .none) (hft : s.ft ≠ []) (hlive : s.ddead = false)
    (hext : ∃ c ∈ s.codes, s.dbuf <+: c ∧ s.dbuf ≠ c) (hlen : s.dbuf.length ≤ s.cfg.maxCodeLen) : DecoderInv s where
  emptyWithoutTable h := (h.elim htag hft).elim
  liveExtends _ := .inr hext
  deadMatchesNone hdead := absurd hdead (by simp [hlive])
  deadByOneDigit hdead := absurd hdead (by simp [hlive])
  lengthBound := hlen

/-- A buffer that its last digit made dead on a valid table (R46, R181). -/
theorem decoderInv_of_dead {s : State} (htag : s.ctag ≠ .none) (hft : s.ft ≠ []) (hdead : s.ddead = true)
    (hbuf : s.dbuf ≠ []) (hnone : ∀ c ∈ s.codes, ¬ s.dbuf <+: c)
    (hbefore : s.dbuf.dropLast = [] ∨ ∃ c ∈ s.codes, s.dbuf.dropLast <+: c ∧ s.dbuf.dropLast ≠ c)
    (hlen : s.dbuf.length ≤ s.cfg.maxCodeLen) : DecoderInv s where
  emptyWithoutTable h := (h.elim htag hft).elim
  liveExtends hlive := absurd hlive (by simp [hdead])
  deadMatchesNone _ := ⟨hbuf, hnone⟩
  deadByOneDigit _ := hbefore
  lengthBound := hlen

/-- DEC_BIT's scan keeps the invariant: it emits a row, waits on a proper beginning of a code, or the buffer that was live
is dead by its last digit (R180, R181). -/
theorem Inv.feed {s : State} (h : Inv s) (htag : s.ctag ≠ .none) (hft : s.ft ≠ []) (hlive : s.ddead = false) (b : Digit) :
    Inv (s.feed (s.dbuf ++ [b])) := by
  have hv := validTable_of_inv h htag
  have hlen : (s.dbuf ++ [b]).length ≤ s.cfg.maxCodeLen := by
    rw [List.length_append]
    exact length_lt_of_live h htag hlive
  by_cases hcode : s.dbuf ++ [b] ∈ s.ct
  · obtain ⟨i, hi⟩ := List.mem_iff_getElem?.1 hcode
    obtain ⟨hlt, -⟩ := List.getElem?_eq_some_iff.1 hi
    obtain ⟨e, he⟩ : ∃ e, s.ft[i]? = some e := ⟨_, List.getElem?_eq_getElem (hv.oneCodeEach ▸ hlt)⟩
    have hempty : Inv { s with dbuf := [] } := h.withDecoder (decoderInv_of_empty rfl hlive)
    rw [feed_code hv he hi, ← row_eq he hi]
    exact hempty.finishEmit (resultFits_row h htag i) (by simp [row_eq he hi])
  · by_cases hext : ∃ c ∈ s.ct, s.dbuf ++ [b] <+: c
    · obtain ⟨c, hc, hpre⟩ := hext
      have hproper : ∃ d ∈ s.codes, s.dbuf ++ [b] <+: d ∧ s.dbuf ++ [b] ≠ d :=
        ⟨c, hv.codes_eq.symm ▸ hc, hpre, fun heq => hcode (heq ▸ hc)⟩
      have hwait : Inv { s with dbuf := s.dbuf ++ [b] } :=
        h.withDecoder (decoderInv_of_waiting htag hft hlive hproper hlen)
      rw [feed_properPrefix hv hcode ⟨c, hc, hpre⟩]
      exact hwait.finishOk
    · push Not at hext
      have hbefore := h.decoderInv.liveExtends hlive
      have hdead : Inv { s with dbuf := s.dbuf ++ [b], ddead := true } :=
        h.withDecoder (decoderInv_of_dead htag hft rfl (by simp) (hv.codes_eq.symm ▸ hext)
          (by rwa [← List.dropLast_concat (l₁ := s.dbuf) (b := b)] at hbefore) hlen)
      rw [feed_noPrefix hv hext]
      exact hdead.finishOk

/-! ### Reset -/

/-- The reset state of a legal configuration: empty tables, an empty decoder, and no result (R240). -/
theorem inv_resetOf {cfg : Config} (h : cfg.wf) : Inv (State.resetOf cfg) := by
  obtain ⟨hsym, hcount, hcode⟩ := resultFits_zero cfg
  exact ⟨h, ftInv_nil (State.resetOf cfg), tableInv_of_none rfl, decoderInv_of_empty rfl rfl,
    ⟨nofun, fun _ => ⟨rfl, rfl, rfl⟩, hsym, hcount, hcode, nofun⟩⟩

/-- Settles O19: the reference configuration is a legal one. -/
theorem resetStateMeetsTheInvariant : Obligations.ResetStateMeetsTheInvariant :=
  ⟨inv_resetOf (by decide), fun _ => inv_resetOf⟩

/-! ### Commands and turns -/

/-- Every command keeps the invariant, whichever way it ends. -/
theorem Inv.exec {s t : State} {i : Instr} (h : Inv s) (hexec : exec i s = .next t) : Inv t := by
  obtain ⟨e, -, he, -, -, -, rfl⟩ | ⟨-, rfl⟩ | ⟨-, rfl⟩ | ⟨x, e, -, -, he, rfl⟩ | ⟨x, k, -, -, -, htotal, hfound, rfl⟩ |
    ⟨x, -, hx, -, htotal, hnew, hroom, rfl⟩ | ⟨-, hlost, rfl⟩ | ⟨-, hlost, rfl⟩ | ⟨x, k, -, hx, htag, -, rfl⟩ |
    ⟨b, -, -, -, -, rfl⟩ | ⟨b, -, htag, hft, hlive, rfl⟩ | ⟨-, -, -, rfl⟩ | ⟨-, -, -, rfl⟩ | ⟨x, -, -, -, rfl⟩ |
    ⟨x, -, -, htag, rfl⟩ := exec_cases i s t hexec
  · exact h.raise he
  · exact h.finishOk
  · exact h.clearSequence.finishOk
  · exact h.loseSequence.raise (by rcases he with rfl | rfl <;> decide)
  · obtain ⟨before, after, n, hft, -, rfl⟩ := findEntry_some hfound
    rw [hft, modify_bump]
    exact h.loaded (h.ftInv.bump hft htotal)
  · exact h.loaded (h.ftInv.append hx (findEntry_none.1 hnew) htotal hroom)
  · exact (h.install hlost (.inl ⟨rfl, rfl⟩)).finishOk
  · exact (h.install hlost (.inr ⟨rfl, rfl⟩)).finishOk
  · obtain ⟨-, hcount, hcode⟩ := resultFits_row h htag k
    exact h.finishWith ⟨hx, hcount, hcode⟩
  · exact h.finishOk
  · exact h.feed htag (List.ne_nil_of_length_pos (Nat.pos_of_ne_zero hft)) hlive b
  · exact h.emptyDecoder.raise nofun
  · exact h.finishOk
  · exact h.finishWith (resultFits_entry h _ (Nat.zero_le _))
  · exact h.finishWith (resultFits_row h htag _)

theorem Inv.engineStep {s t : State} (h : Inv s) (hstep : engineStep s = .next t) : Inv t := by
  obtain hp | ⟨w, hp⟩ := Option.eq_none_or_eq_some s.pend
  · cases hstep.symm.trans (engineStep_idle hp)
    exact h
  · have hexec : ∃ u, execDecoded (decode s.cfg w) s = .next u ∧ Inv u := by
      cases decode s.cfg w with
      | instr i =>
        obtain ⟨u, hu⟩ := exec_next i s
        exact ⟨u, hu, h.exec hu⟩
      | illegalCommand => exact ⟨_, rfl, h.raise nofun⟩
      | illegalOperand => exact ⟨_, rfl, h.raise nofun⟩
    obtain ⟨u, hu, hinv⟩ := hexec
    rw [engineStep_of_pend hp, hu] at hstep
    cases hstep
    exact hinv.withOutside u.retire

/-- Every turn keeps the invariant. -/
theorem Inv.runTurn {s t : State} {x : Turn} (h : Inv s) (hturn : runTurn x s = .next t) : Inv t := by
  cases x with
  | host a =>
    cases hturn
    rw [access_eq]
    exact h.withOutside { s.access a with turns := s.turns }
  | engine => exact h.engineStep hturn
  | reset d =>
    cases hturn
    have hreset := (inv_resetOf h.cfgWf).withOutside { s.resetDuring d with pend := none, overrun := false }
    rw [resetDuring_eq, ← resetDuring_turns s d]
    exact hreset

/-- Settles O20: every turn keeps the invariant, and the schedule is no part of it. -/
theorem everyStepKeepsTheInvariant : Obligations.EveryStepKeepsTheInvariant := by
  intro s t h hstep
  cases hturns : s.turns with
  | nil => exact h.engineStep (step_of_emptySchedule hturns ▸ hstep)
  | cons x ts => exact (h.withOutside { s with turns := ts }).runTurn (step_of_turn hturns ▸ hstep)

end Sys2Proof.Machine

namespace Sys2Proof.Machine

/-! ### What commands do to the entries -/

/-- `l'` has every entry of `l` at its place, with its symbol and no smaller count, and its new entries after them (R131). -/
def KeepsPlaces (l l' : List Entry) : Prop :=
  l.map Entry.sym <+: l'.map Entry.sym ∧
    ∀ (k : Nat) (e : Entry), l[k]? = some e → ∃ e', l'[k]? = some e' ∧ e'.sym = e.sym ∧ e.cnt ≤ e'.cnt

theorem keepsPlaces_refl (l : List Entry) : KeepsPlaces l l := ⟨List.prefix_rfl, fun _ e he => ⟨e, he, rfl, le_rfl⟩⟩

theorem keepsPlaces_append (l new : List Entry) : KeepsPlaces l (l ++ new) := by
  refine ⟨by simp, fun k e he => ⟨e, ?_, rfl, le_rfl⟩⟩
  obtain ⟨hk, -⟩ := List.getElem?_eq_some_iff.1 he
  rw [List.getElem?_append_left hk, he]

theorem keepsPlaces_bump (l : List Entry) (i : Nat) : KeepsPlaces l (l.modify i Entry.bump) := by
  have hsyms : (l.modify i Entry.bump).map Entry.sym = l.map Entry.sym := by
    refine List.ext_getElem? fun k => ?_
    rw [List.getElem?_map, List.getElem?_map, List.getElem?_modify]
    by_cases hk : i = k <;> cases l[k]? <;> simp [hk, Entry.bump]
  refine ⟨hsyms ▸ List.prefix_rfl, fun k e he => ?_⟩
  rw [List.getElem?_modify, he]
  by_cases hk : i = k
  · exact ⟨e.bump, by simp [hk], rfl, Nat.le_succ _⟩
  · exact ⟨e, by simp [hk], rfl, le_rfl⟩

/-- Every way LOAD_SYM's rule can end on a symbol in range, with what it found on the way (R132, R223). -/
theorem loadSym_cases (s : State) (x : Symbol) :
    (s.seqLost = true ∧ s.loadSym x = s.raise .sequenceLost) ∨
    (s.seqLost = false ∧ s.total = maxTotal s.cfg ∧ s.loadSym x = s.loseSequence.raise .countOverflow) ∨
    (s.seqLost = false ∧ s.total ≠ maxTotal s.cfg ∧ x ∉ s.ft.map Entry.sym ∧ s.ft.length = s.cfg.maxSyms ∧
      s.loadSym x = s.loseSequence.raise .alphabetOverflow) ∨
    (s.seqLost = false ∧ s.total ≠ maxTotal s.cfg ∧ x ∉ s.ft.map Entry.sym ∧ s.ft.length ≠ s.cfg.maxSyms ∧
      s.loadSym x = s.loaded (s.ft ++ [⟨x, 1⟩])) ∨
    (s.seqLost = false ∧ s.total ≠ maxTotal s.cfg ∧ ∃ before after n, s.ft = before ++ ⟨x, n⟩ :: after ∧
      x ∉ before.map Entry.sym ∧ s.loadSym x = s.loaded (before ++ ⟨x, n + 1⟩ :: after)) := by
  cases hlost : s.seqLost with
  | true => exact .inl ⟨rfl, loadSym_sequenceLost x hlost⟩
  | false =>
    by_cases htotal : s.total = maxTotal s.cfg
    · exact .inr (.inl ⟨rfl, htotal, loadSym_countOverflow x hlost htotal⟩)
    · by_cases hmem : x ∈ s.ft.map Entry.sym
      · obtain ⟨i, hi⟩ := Option.ne_none_iff_exists'.1 fun hnone => findEntry_none.1 hnone hmem
        obtain ⟨before, after, n, hft, hfirst, -⟩ := findEntry_some hi
        exact .inr (.inr (.inr (.inr ⟨rfl, htotal, before, after, n, hft, hfirst, loadSym_counted hlost htotal hft hfirst⟩)))
      · by_cases hfull : s.ft.length = s.cfg.maxSyms
        · exact .inr (.inr (.inl ⟨rfl, htotal, hmem, hfull, loadSym_alphabetOverflow hlost htotal hmem hfull⟩))
        · exact .inr (.inr (.inr (.inl ⟨rfl, htotal, hmem, hfull, loadSym_appended hlost htotal hmem hfull⟩)))

theorem loadSym_keepsPlaces (s : State) (x : Symbol) : KeepsPlaces s.ft (s.loadSym x).ft := by
  obtain ⟨-, h⟩ | ⟨-, -, h⟩ | ⟨-, -, -, -, h⟩ | ⟨-, -, -, -, h⟩ | ⟨-, -, before, after, n, hft, -, h⟩ := loadSym_cases s x
  · exact h ▸ keepsPlaces_refl s.ft
  · exact h ▸ keepsPlaces_refl s.ft
  · exact h ▸ keepsPlaces_refl s.ft
  · exact h ▸ keepsPlaces_append s.ft _
  · rw [h, ← modify_bump, ← hft]
    exact keepsPlaces_bump s.ft _

/-- Settles O29: a command but CLEAR keeps FT, counts an entry in place, or appends one. -/
theorem entriesKeepTheirPlaces : Obligations.EntriesKeepTheirPlaces := by
  intro i s t h hclear
  change KeepsPlaces s.ft t.ft
  by_cases hkept : t.ft = s.ft
  · exact hkept ▸ keepsPlaces_refl s.ft
  · obtain ⟨x, rfl⟩ := ((onlyTheirCommandsWriteTheTables i s t h).1 hkept).resolve_left hclear
    rcases Nat.lt_or_ge x.toNat (2 ^ s.cfg.symW) with hin | hout
    · cases h.symm.trans (exec_loadSym_inRange hin)
      exact loadSym_keepsPlaces s x
    · cases h.symm.trans (exec_loadSym_outOfRange hout)
      exact absurd (State.raise_ft s _) hkept

/-! ### Outcome codes -/

/-- The columns "raised by" and "cause" of R220: what the word and the state are when the code is `e`. -/
abbrev RaisedFor (d : Decoded) (s : State) (e : ErrCode) : Prop :=
  match e with
  | .ok => ∃ i, d = .instr i
  | .unknownSymbol => ∃ x, d = .instr (.enc x) ∧ s.ctag ≠ .none ∧ x ∉ s.ft.map Entry.sym
  | .incompleteCode => d = .instr .decEnd ∧ s.ctag ≠ .none ∧ s.dbuf ≠ []
  | .emptyCodeTable => ∃ b, d = .instr (.decBit b) ∧ s.ctag ≠ .none ∧ s.ft = []
  | .emptyInput => False
  | .illegalCommand => d = .illegalCommand
  | .illegalOperand => d = .illegalOperand ∨ ∃ x, 2 ^ s.cfg.symW ≤ x.toNat ∧ (d = .instr (.loadSym x) ∨ d = .instr (.enc x))
  | .alphabetOverflow => ∃ x, d = .instr (.loadSym x) ∧ x ∉ s.ft.map Entry.sym ∧ s.ft.length = s.cfg.maxSyms
  | .countOverflow => ∃ x, d = .instr (.loadSym x) ∧ s.total = 2 ^ s.cfg.cntW - 1
  | .notBuilt => s.ctag = .none ∧ ((∃ x, d = .instr (.enc x)) ∨ (∃ b, d = .instr (.decBit b)) ∨ d = .instr .decEnd)
  | .sequenceLost => s.seqLost = true ∧ ((∃ x, d = .instr (.loadSym x)) ∨ d = .instr .buildSf ∨ d = .instr .buildHuff)
  | .indexOutOfRange => ∃ x, d = .instr (.query x) ∧ s.ft.length ≤ x.toNat

/-- A command answers a state whose code has its cause. -/
def EndsWithCause (i : Instr) (s : State) : Prop := ∃ t, exec i s = .next t ∧ RaisedFor (.instr i) s t.err

theorem endsWithCause_of_ok {i : Instr} {s t : State} (h : exec i s = .next t) (hok : t.err = .ok) : EndsWithCause i s :=
  ⟨t, h, by rw [hok]; exact ⟨i, rfl⟩⟩

theorem endsWithCause_of_raise {i : Instr} {s u : State} {e : ErrCode} (h : exec i s = .next (u.raise e))
    (hcause : RaisedFor (.instr i) s e) : EndsWithCause i s :=
  ⟨_, h, by rwa [State.raise_err]⟩

theorem endsWithCause_loadSym (s : State) (x : Symbol) : EndsWithCause (.loadSym x) s := by
  rcases Nat.lt_or_ge x.toNat (2 ^ s.cfg.symW) with hin | hout
  · have hexec := exec_loadSym_inRange hin
    obtain ⟨hlost, h⟩ | ⟨-, htotal, h⟩ | ⟨-, -, hnew, hfull, h⟩ | ⟨-, -, -, -, h⟩ | ⟨-, -, _, _, _, -, -, h⟩ :=
      loadSym_cases s x <;> rw [h] at hexec
    · exact endsWithCause_of_raise hexec ⟨hlost, .inl ⟨x, rfl⟩⟩
    · exact endsWithCause_of_raise hexec ⟨x, rfl, htotal⟩
    · exact endsWithCause_of_raise hexec ⟨x, rfl, hnew, hfull⟩
    · exact endsWithCause_of_ok hexec (State.finishOk_err _)
    · exact endsWithCause_of_ok hexec (State.finishOk_err _)
  · exact endsWithCause_of_raise (exec_loadSym_outOfRange hout) (.inr ⟨x, hout, .inl rfl⟩)

theorem endsWithCause_enc (s : State) (x : Symbol) : EndsWithCause (.enc x) s := by
  rcases Nat.lt_or_ge x.toNat (2 ^ s.cfg.symW) with hin | hout
  · have hexec := exec_enc_inRange hin
    by_cases htag : s.ctag = .none
    · rw [encSym_notBuilt x htag] at hexec
      exact endsWithCause_of_raise hexec ⟨htag, .inl ⟨x, rfl⟩⟩
    · by_cases hmem : x ∈ s.ft.map Entry.sym
      · obtain ⟨n, hn⟩ := encSym_of_mem htag hmem
        exact endsWithCause_of_ok (hn ▸ hexec) (State.finishWith_err _ _)
      · rw [encSym_unknownSymbol htag hmem] at hexec
        exact endsWithCause_of_raise hexec ⟨x, rfl, htag, hmem⟩
  · exact endsWithCause_of_raise (exec_enc_outOfRange hout) (.inr ⟨x, hout, .inr rfl⟩)

theorem endsWithCause_decBit (s : State) (b : Digit) : EndsWithCause (.decBit b) s := by
  by_cases htag : s.ctag = .none
  · exact endsWithCause_of_raise (exec_decBit_notBuilt b htag) ⟨htag, .inr (.inl ⟨b, rfl⟩)⟩
  · by_cases hft : s.ft = []
    · exact endsWithCause_of_raise (exec_decBit_emptyTable b htag hft) ⟨b, rfl, htag, hft⟩
    · cases hdead : s.ddead with
      | true => exact endsWithCause_of_ok (exec_decBit_dead b htag hft hdead) (State.finishOk_err _)
      | false => exact endsWithCause_of_ok (exec_decBit_live b htag hft hdead) (feed_err _ _)

theorem endsWithCause_decEnd (s : State) : EndsWithCause .decEnd s := by
  by_cases htag : s.ctag = .none
  · exact endsWithCause_of_raise (exec_decEnd_notBuilt htag) ⟨htag, .inr (.inr rfl)⟩
  · by_cases hbuf : s.dbuf = []
    · exact endsWithCause_of_ok (exec_decEnd_complete htag hbuf) (State.finishOk_err _)
    · exact endsWithCause_of_raise (exec_decEnd_incomplete htag hbuf) ⟨rfl, htag, hbuf⟩

theorem endsWithCause_query (s : State) (idx : BitVec 16) : EndsWithCause (.query idx) s := by
  rcases Nat.lt_or_ge idx.toNat s.ft.length with hin | hout
  · by_cases htag : s.ctag = .none
    · exact endsWithCause_of_ok (exec_query_unbuilt hin htag) (State.finishWith_err _ _)
    · exact endsWithCause_of_ok (exec_query_built hin htag) (State.finishWith_err _ _)
  · exact endsWithCause_of_raise (exec_query_outOfRange hout) ⟨idx, rfl, hout⟩

/-- Every command, by the branches of its rule. -/
theorem endsWithCause (i : Instr) (s : State) : EndsWithCause i s := by
  cases i with
  | nop => exact endsWithCause_of_ok (exec_nop s) (State.finishOk_err _)
  | clear => exact endsWithCause_of_ok (exec_clear s) (State.finishOk_err _)
  | loadSym x => exact endsWithCause_loadSym s x
  | buildSf =>
    cases hlost : s.seqLost with
    | true => exact endsWithCause_of_raise (exec_buildSf_lost hlost) ⟨hlost, .inr (.inl rfl)⟩
    | false => exact endsWithCause_of_ok (exec_buildSf_built hlost) (State.finishOk_err _)
  | buildHuff =>
    cases hlost : s.seqLost with
    | true => exact endsWithCause_of_raise (exec_buildHuff_lost hlost) ⟨hlost, .inr (.inr rfl)⟩
    | false => exact endsWithCause_of_ok (exec_buildHuff_built hlost) (State.finishOk_err _)
  | enc x => exact endsWithCause_enc s x
  | decBit b => exact endsWithCause_decBit s b
  | decEnd => exact endsWithCause_decEnd s
  | query idx => exact endsWithCause_query s idx

/-- Settles O51: the code of every branch of every command's rule has its cause, and the two illegal classes their own. -/
theorem outcomeCodesAreRaisedByTheirCommands : Obligations.OutcomeCodesAreRaisedByTheirCommands := by
  refine ⟨by decide, fun d s t h => ?_⟩
  change RaisedFor d s t.err
  cases d with
  | instr i =>
    obtain ⟨u, hu, hcause⟩ := endsWithCause i s
    cases h.symm.trans hu
    exact hcause
  | illegalCommand =>
    cases h
    rw [State.raise_err]
  | illegalOperand =>
    cases h
    rw [State.raise_err]
    exact .inl rfl

/-! ### What completions leave in the result registers -/

/-- The result registers read 0 and SYM_VALID is 0: what a completion without a result leaves (R64). -/
structure NoResult (t : State) : Prop where
  symValid : t.symValid = false
  resSym : t.resSym = 0#21
  resCount : t.resCount = 0
  resCode : t.resCode = []

theorem noResult_raise (s : State) (e : ErrCode) : NoResult (s.raise e) := by
  rw [State.raise_eq]
  exact ⟨rfl, rfl, rfl, rfl⟩

theorem noResult_finishOk (s : State) : NoResult s.finishOk := ⟨rfl, rfl, rfl, rfl⟩

/-- A DEC_BIT that completes a code: the table has it, and the buffer was live (R180). -/
abbrev Emits (i : Instr) (s : State) : Prop :=
  ∃ b, i = .decBit b ∧ s.ctag ≠ .none ∧ s.ft ≠ [] ∧ s.ddead = false ∧ s.dbuf ++ [b] ∈ s.codes

/-- What a command leaves in the completion's fields: no result, the result of a lookup, or an emission (R64). -/
theorem exec_result {i : Instr} {s t : State} (h : exec i s = .next t) :
    NoResult t ∨ (t.err = .ok ∧ t.symValid = false ∧ ((∃ x, i = .enc x) ∨ ∃ x, i = .query x)) ∨
      (t.err = .ok ∧ t.symValid = true ∧ Emits i s) := by
  obtain ⟨e, -, -, -, -, -, rfl⟩ | ⟨-, rfl⟩ | ⟨-, rfl⟩ | ⟨_, _, -, -, -, rfl⟩ | ⟨_, _, -, -, -, -, -, rfl⟩ |
    ⟨_, -, -, -, -, -, -, rfl⟩ | ⟨-, -, rfl⟩ | ⟨-, -, rfl⟩ | ⟨x, _, hi, -, -, -, rfl⟩ | ⟨_, -, -, -, -, rfl⟩ |
    ⟨b, hi, htag, hft, hlive, rfl⟩ | ⟨-, -, -, rfl⟩ | ⟨-, -, -, rfl⟩ | ⟨x, hi, -, -, rfl⟩ | ⟨x, hi, -, -, rfl⟩ :=
    exec_cases i s t h
  · exact .inl (noResult_raise _ _)
  · exact .inl (noResult_finishOk _)
  · exact .inl (noResult_finishOk _)
  · exact .inl (noResult_raise _ _)
  · exact .inl (noResult_finishOk _)
  · exact .inl (noResult_finishOk _)
  · exact .inl (noResult_finishOk _)
  · exact .inl (noResult_finishOk _)
  · exact .inr (.inl ⟨rfl, rfl, .inl ⟨x, hi⟩⟩)
  · exact .inl (noResult_finishOk _)
  · obtain ⟨k, hmatch, hfeed⟩ | ⟨-, -, hfeed⟩ | ⟨-, -, hfeed⟩ := feed_cases s (s.fed b) <;> rw [hfeed]
    · have hcode : s.fed b ∈ s.codes := by
        by_contra hnone
        simp [(matchCode_none s _).2 hnone] at hmatch
      exact .inr (.inr ⟨rfl, rfl, b, hi, htag, List.ne_nil_of_length_pos (Nat.pos_of_ne_zero hft), hlive, hcode⟩)
    · exact .inl ⟨rfl, rfl, rfl, rfl⟩
    · exact .inl ⟨rfl, rfl, rfl, rfl⟩
  · exact .inl (noResult_raise _ _)
  · exact .inl (noResult_finishOk _)
  · exact .inr (.inl ⟨rfl, rfl, .inr ⟨x, hi⟩⟩)
  · exact .inr (.inl ⟨rfl, rfl, .inr ⟨x, hi⟩⟩)

/-- A code of the table completed on a live buffer is emitted (R180). -/
theorem symValid_of_emits {i : Instr} {s t : State} (h : exec i s = .next t) (hemits : Emits i s) : t.symValid = true := by
  obtain ⟨b, rfl, htag, hft, hlive, hcode⟩ := hemits
  cases h.symm.trans (exec_decBit_live b htag hft hlive)
  obtain ⟨_, -, hfeed⟩ | ⟨hnone, -⟩ | ⟨hnone, -⟩ := feed_cases s (s.dbuf ++ [b])
  · rw [hfeed]
  · exact absurd hcode ((matchCode_none s _).1 hnone)
  · exact absurd hcode ((matchCode_none s _).1 hnone)

/-- Settles O54: the three kinds of completion, and an emission is one of the third kind. -/
theorem completionWritesTheResultRegisters : Obligations.CompletionWritesTheResultRegisters := by
  intro i s t h
  obtain ⟨hv, hsym, hcount, hcode⟩ | ⟨hok, hv, hlookup⟩ | ⟨hok, hv, hemits⟩ := exec_result h
  · refine ⟨⟨fun hv' => ?_, symValid_of_emits h⟩, ?_⟩
    · simp [hv] at hv'
    · simp [hsym, hcount, hcode]
  · refine ⟨⟨fun hv' => ?_, symValid_of_emits h⟩, fun _ => ⟨hok, ?_⟩⟩
    · simp [hv] at hv'
    · exact hlookup.imp_right .inl
  · exact ⟨⟨fun _ => hemits, fun _ => hv⟩, fun _ => ⟨hok, .inr (.inr hv)⟩⟩

end Sys2Proof.Machine

namespace Sys2Proof.Machine

/-! ### The analytics rows -/

/-- The host reads back the whole result tuple when the registers hold it (R40, R41, R66). -/
theorem readResult_finishWith {s : State} (hwf : s.cfg.wf) {r : Result} (hr : ResultFits s.cfg r) :
    readResult (s.finishWith r) = r := by
  have hcount : ((s.finishWith r).regValue .resultCount).toNat = r.cnt :=
    toNat_ofNat_of_lt (hr.countRange.trans_lt (maxTotal_lt_two_pow_32 hwf))
  have hcode : readCode (s.finishWith r) = r.code := readCode_eq (hr.codeRange.trans (maxCodeLen_le_512 hwf))
  rw [readResult, readSym_eq, hcount, hcode]
  rfl

/-- A QUERY of an entry, issued by the host on a valid table, answers the entry's row (R195). -/
theorem issue_query {s : State} (h : Inv s) (htag : s.ctag ≠ .none) (hp : s.pend = none) {i : Nat} (hi : i < s.ft.length) :
    issue (.query (BitVec.ofNat 16 i)) s = .next (s.finishWith (s.row i)) := by
  have hidx : (BitVec.ofNat 16 i).toNat = i := by
    obtain ⟨-, ⟨-, hsyms⟩, -⟩ := h.cfgWf
    have hsize := h.ftInv.sizeBound
    rw [BitVec.toNat_ofNat]
    omega
  have hexec := exec_query_built (s := s) (idx := BitVec.ofNat 16 i) (by rwa [hidx]) htag
  rw [hidx] at hexec
  exact issue_of_exec hp (decodeOfEncodeIsTheCommand s.cfg _ rfl) hexec

/-- Each QUERY leaves the tables to the next one (R198). -/
theorem exists_queryRows {s : State} (h : Inv s) (htag : s.ctag ≠ .none) (hp : s.pend = none) {is : List Nat}
    (his : ∀ i ∈ is, i < s.ft.length) : ∃ t, queryRows is s = .next (is.map s.row, t) := by
  induction is generalizing s with
  | nil => exact ⟨s, rfl⟩
  | cons i is ih =>
    obtain ⟨hi, hrest⟩ := List.forall_mem_cons.1 his
    have hfits := resultFits_row h htag i
    obtain ⟨t, ht⟩ := ih (h.finishWith hfits) htag hp hrest
    refine ⟨t, ?_⟩
    rw [queryRows, issue_query h htag hp hi, andThen, ht, andThen, readResult_finishWith h.cfgWf hfits]
    rfl

/-- Settles O58: the rows of the indices 0 to N − 1 are the two tables side by side. -/
theorem analyticsRowsAreTheTable : Obligations.AnalyticsRowsAreTheTable := by
  intro s h htag hp
  obtain ⟨t, ht⟩ := exists_queryRows h htag hp (is := List.range s.nSyms) fun i hi => List.mem_range.1 hi
  have hlen := h.tableInv.oneCodeEach htag
  have hrows : (List.range s.nSyms).map s.row = (s.ft.zip s.ct).map (fun p => ⟨p.1.sym, p.1.cnt, p.2⟩) := by
    refine List.ext_getElem (by simp [State.nSyms, hlen]) fun i hi _ => ?_
    have hft : i < s.ft.length := by simpa [State.nSyms] using hi
    rw [List.getElem_map, List.getElem_range, List.getElem_map, List.getElem_zip]
    exact row_eq (List.getElem?_eq_getElem hft) (List.getElem?_eq_getElem (hlen ▸ hft))
  exact ⟨t, by rw [analyticsRows, ht, hrows]⟩

/-! ### The frequency table of a longer sequence -/

/-- A symbol counts as a first occurrence only where it is new (R136). -/
theorem firstOccurrences_concat (seq : List Symbol) (x : Symbol) :
    firstOccurrences (seq ++ [x]) = if x ∈ seq then firstOccurrences seq else firstOccurrences seq ++ [x] := by
  induction seq with
  | nil => rfl
  | cons y seq ih =>
    rw [List.cons_append, firstOccurrences, ih, firstOccurrences]
    by_cases hxy : x = y
    · subst hxy
      by_cases hx : x ∈ seq <;> simp [hx]
    · by_cases hx : x ∈ seq <;> simp [hx, hxy]

theorem frequencyTable_concat_of_not_mem {seq : List Symbol} {x : Symbol} (h : x ∉ seq) :
    frequencyTable (seq ++ [x]) = frequencyTable seq ++ [⟨x, 1⟩] := by
  rw [frequencyTable, firstOccurrences_concat, if_neg h, List.map_append]
  congr 1
  · refine List.map_congr_left fun y hy => ?_
    have hne : x ≠ y := fun heq => h (heq ▸ mem_firstOccurrences.1 hy)
    rw [List.count_append, List.count_singleton, beq_eq_false_iff_ne.2 hne, if_neg Bool.false_ne_true, Nat.add_zero]
  · simp [List.count_append, List.count_eq_zero_of_not_mem h]

/-- One more occurrence is counted at its symbol and nowhere else (R136). -/
theorem frequencyTable_concat_of_mem {seq : List Symbol} {x : Symbol} (h : x ∈ seq) :
    frequencyTable (seq ++ [x]) = (frequencyTable seq).map (fun e => if e.sym = x then e.bump else e) := by
  rw [frequencyTable, firstOccurrences_concat, if_pos h, frequencyTable, List.map_map]
  refine List.map_congr_left fun y _ => ?_
  by_cases hy : y = x
  · simp [hy, Entry.bump, List.count_append]
  · simp [hy, Ne.symm hy, List.count_append]

theorem map_bump_of_not_mem {l : List Entry} {x : Symbol} (h : x ∉ l.map Entry.sym) :
    l.map (fun e => if e.sym = x then e.bump else e) = l :=
  (List.map_congr_left fun e he => if_neg fun heq : e.sym = x => h (heq ▸ List.mem_map_of_mem he)).trans (List.map_id l)

/-- An entry of a sequence's table counts one more when its symbol comes again (R136). -/
theorem frequencyTable_concat_of_split {seq : List Symbol} {x : Symbol} {before after : List Entry} {n : Nat}
    (h : frequencyTable seq = before ++ ⟨x, n⟩ :: after) :
    frequencyTable (seq ++ [x]) = before ++ ⟨x, n + 1⟩ :: after := by
  have hsyms := frequencyTable_syms seq
  rw [h, List.map_append, List.map_cons] at hsyms
  have hmem : x ∈ seq := mem_firstOccurrences.1 (by rw [← hsyms]; simp)
  have hnodup := firstOccurrences_nodup seq
  rw [← hsyms, List.nodup_append] at hnodup
  obtain ⟨-, hafter, hbefore⟩ := hnodup
  rw [frequencyTable_concat_of_mem hmem, h, List.map_append, List.map_cons, map_bump_of_not_mem, map_bump_of_not_mem]
  · simp [Entry.bump]
  · exact (List.nodup_cons.1 hafter).1
  · exact fun hx => hbefore x hx x (by simp) rfl

end Sys2Proof.Machine

namespace Sys2Proof.Machine

/-! ### The host's build -/

/-- TOTAL of a sequence's table is its length (R42, R136). -/
theorem totalOf_frequencyTable (seq : List Symbol) : totalOf (frequencyTable seq) = seq.length := by
  simpa [totalOf, Function.comp_def] using sum_frequencyTable seq (fun _ => 1)

theorem frequencyTable_length (seq : List Symbol) : (frequencyTable seq).length = (firstOccurrences seq).length := by
  simp [frequencyTable]

/-- A sequence within the capacity limits (R133). -/
structure Fits (cfg : Config) (seq : List Symbol) : Prop where
  count : seq.length ≤ maxTotal cfg
  alphabet : (firstOccurrences seq).length ≤ cfg.maxSyms

theorem fits_nil (cfg : Config) : Fits cfg [] := ⟨Nat.zero_le _, Nat.zero_le _⟩

theorem fits_of_concat {cfg : Config} {seq : List Symbol} {x : Symbol} (h : Fits cfg (seq ++ [x])) : Fits cfg seq := by
  obtain ⟨hcount, halphabet⟩ := h
  rw [List.length_append] at hcount
  rw [firstOccurrences_concat] at halphabet
  refine ⟨(Nat.le_add_right _ _).trans hcount, ?_⟩
  split at halphabet
  · exact halphabet
  · rw [List.length_append] at halphabet
    exact (Nat.le_add_right _ _).trans halphabet

theorem fits_of_append {cfg : Config} {seq rest : List Symbol} (h : Fits cfg (seq ++ rest)) : Fits cfg seq := by
  induction rest using List.reverseRecOn with
  | nil => rwa [List.append_nil] at h
  | append_singleton rest x ih => exact ih (fits_of_concat (by rwa [List.append_assoc]))

/-- An idle unit that holds the whole sequence (R136). -/
structure HoldsSequence (cfg : Config) (seq : List Symbol) (t : State) : Prop where
  sameCfg : t.cfg = cfg
  idle : t.pend = none
  ft : t.ft = frequencyTable seq
  intact : t.seqLost = false
  ok : t.err = .ok

/-- An idle unit that has lost its sequence, with what it had counted before still within its limits (R133). -/
structure LostSequence (cfg : Config) (t : State) : Prop where
  sameCfg : t.cfg = cfg
  idle : t.pend = none
  lost : t.seqLost = true
  unbuilt : t.ctag = .none
  count : t.total ≤ maxTotal cfg
  size : t.ft.length ≤ cfg.maxSyms

theorem LostSequence.raise {cfg : Config} {t : State} (h : LostSequence cfg t) (e : ErrCode) :
    LostSequence cfg (t.raise e) := by
  obtain ⟨hcfg, hidle, hlost, hunbuilt, hcount, hsize⟩ := h
  rw [State.raise_eq]
  exact ⟨hcfg, hidle, hlost, hunbuilt, hcount, hsize⟩

/-- An overflow loses the sequence, and what was counted stays (R132). -/
theorem HoldsSequence.loseSequence {cfg : Config} {seq : List Symbol} {t : State} (h : HoldsSequence cfg seq t)
    (hfits : Fits cfg seq) : LostSequence cfg t.loseSequence where
  sameCfg := h.sameCfg
  idle := h.idle
  lost := rfl
  unbuilt := rfl
  count := by
    change totalOf t.ft ≤ _
    rw [h.ft, totalOf_frequencyTable]
    exact hfits.count
  size := by
    change t.ft.length ≤ _
    rw [h.ft, frequencyTable_length]
    exact hfits.alphabet

theorem LostSequence.loadSym {cfg : Config} {t : State} (h : LostSequence cfg t) (x : Symbol) :
    LostSequence cfg (t.loadSym x) := by
  rw [loadSym_sequenceLost x h.lost]
  exact h.raise _

/-- What is held of a sequence within the limits, or lost of one beyond them. -/
abbrev HoldsOrLost (cfg : Config) (seq : List Symbol) (t : State) : Prop :=
  (Fits cfg seq ∧ HoldsSequence cfg seq t) ∨ (¬ Fits cfg seq ∧ LostSequence cfg t)

/-- One more symbol is counted when there is room for it, and else it loses the sequence (R132, R133). -/
theorem HoldsSequence.loadSym {cfg : Config} {seq : List Symbol} {t : State} (h : HoldsSequence cfg seq t)
    (hfits : Fits cfg seq) (x : Symbol) : HoldsOrLost cfg (seq ++ [x]) (t.loadSym x) := by
  have htotal : t.total = seq.length := by rw [State.total, h.ft, totalOf_frequencyTable]
  have hmem : x ∈ t.ft.map Entry.sym ↔ x ∈ seq := by rw [h.ft, frequencyTable_syms, mem_firstOccurrences]
  have hsize : t.ft.length = (firstOccurrences seq).length := by rw [h.ft, frequencyTable_length]
  have hholds : ∀ l, l = frequencyTable (seq ++ [x]) → HoldsSequence cfg (seq ++ [x]) (t.loaded l) := fun l hl =>
    ⟨h.sameCfg, h.idle, hl, h.intact, rfl⟩
  have hcount := hfits.count
  have halphabet := hfits.alphabet
  obtain ⟨hlost, -⟩ | ⟨-, hfull, heq⟩ | ⟨-, -, hnew, hfull, heq⟩ | ⟨-, hroom, hnew, hspace, heq⟩ |
    ⟨-, hroom, before, after, n, hft, -, heq⟩ := loadSym_cases t x
  · simp [h.intact] at hlost
  · rw [heq]
    refine .inr ⟨fun hfits' => ?_, (h.loseSequence hfits).raise _⟩
    have := hfits'.count
    rw [List.length_append, List.length_singleton, ← h.sameCfg] at this
    omega
  · rw [heq]
    refine .inr ⟨fun hfits' => ?_, (h.loseSequence hfits).raise _⟩
    have := hfits'.alphabet
    rw [firstOccurrences_concat, if_neg (mt hmem.2 hnew), List.length_append, List.length_singleton, ← h.sameCfg] at this
    omega
  · rw [heq]
    have hne : seq.length ≠ maxTotal cfg := by rwa [← htotal, ← h.sameCfg]
    refine .inl ⟨⟨?_, ?_⟩, hholds _ ?_⟩
    · rw [List.length_append, List.length_singleton]
      omega
    · rw [firstOccurrences_concat, if_neg (mt hmem.2 hnew), List.length_append, List.length_singleton, ← hsize, ← h.sameCfg]
      rw [← hsize, ← h.sameCfg] at halphabet
      omega
    · rw [h.ft, frequencyTable_concat_of_not_mem (mt hmem.2 hnew)]
  · rw [heq]
    have hne : seq.length ≠ maxTotal cfg := by rwa [← htotal, ← h.sameCfg]
    have hold : x ∈ seq := hmem.1 (by simp [hft])
    refine .inl ⟨⟨?_, ?_⟩, hholds _ ?_⟩
    · rw [List.length_append, List.length_singleton]
      omega
    · rwa [firstOccurrences_concat, if_pos hold]
    · exact (frequencyTable_concat_of_split (h.ft.symm.trans hft)).symm

/-! ### The build as a list of commands -/

theorem issueAll_append (is js : List Instr) (s : State) :
    issueAll (is ++ js) s = andThen (issueAll is s) (issueAll js) := by
  induction is generalizing s with
  | nil => rfl
  | cons i is ih =>
    rw [List.cons_append, issueAll, issueAll]
    cases issue i s with
    | next t => exact ih t
    | fault r => rfl
    | refused r => rfl

theorem issueAll_singleton {i : Instr} {s t : State} (h : issue i s = .next t) : issueAll [i] s = .next t := by
  rw [issueAll, h]
  rfl

theorem issue_loadSym {s : State} {x : Symbol} (hp : s.pend = none) (hx : x.toNat < 2 ^ s.cfg.symW) :
    issue (.loadSym x) s = .next (s.loadSym x) :=
  issue_of_exec hp (decodeOfEncodeIsTheCommand s.cfg _ (decide_eq_true hx)) (exec_loadSym_inRange hx)

/-- CLEAR and a LOAD_SYM of every symbol hold the sequence, or lose it when it is beyond the limits (R133, R137). -/
theorem exists_issueAll_load {s : State} (hp : s.pend = none) {seq : List Symbol}
    (hseq : ∀ x ∈ seq, x.toNat < 2 ^ s.cfg.symW) :
    ∃ t, issueAll (.clear :: loadProgram seq) s = .next t ∧ HoldsOrLost s.cfg seq t := by
  induction seq using List.reverseRecOn with
  | nil =>
    have hclear : issue .clear s = .next s.clearSequence.finishOk :=
      issue_of_exec hp (decodeOfEncodeIsTheCommand s.cfg _ rfl) (exec_clear s)
    exact ⟨_, issueAll_singleton hclear, .inl ⟨fits_nil _, rfl, hp, rfl, rfl, rfl⟩⟩
  | append_singleton seq x ih =>
    obtain ⟨hseq, hx⟩ := List.forall_mem_append.1 hseq
    obtain ⟨t, ht, hstate⟩ := ih hseq
    have hready : t.cfg = s.cfg ∧ t.pend = none :=
      hstate.elim (fun h => ⟨h.2.sameCfg, h.2.idle⟩) (fun h => ⟨h.2.sameCfg, h.2.idle⟩)
    obtain ⟨hcfg, hidle⟩ := hready
    refine ⟨t.loadSym x, ?_, ?_⟩
    · rw [loadProgram, List.map_append, ← List.cons_append, issueAll_append, ← loadProgram, ht]
      exact issueAll_singleton (issue_loadSym hidle (hcfg ▸ hx x (List.mem_singleton_self x)))
    · obtain ⟨hfits, hholds⟩ | ⟨hbeyond, hlost⟩ := hstate
      · exact hholds.loadSym hfits x
      · exact .inr ⟨fun h => hbeyond (fits_of_concat h), hlost.loadSym x⟩

theorem decode_encode_build (cfg : Config) (alg : Alg) : decode cfg (encode alg.command) = .instr alg.command :=
  decodeOfEncodeIsTheCommand cfg _ (by cases alg <;> rfl)

theorem exec_build_built (alg : Alg) {s : State} (hlost : s.seqLost = false) :
    exec alg.command s = .next (s.install alg.tag (alg.codes s.ft)).finishOk := by
  cases alg with
  | sf => exact exec_buildSf_built hlost
  | huff => exact exec_buildHuff_built hlost

theorem exec_build_lost (alg : Alg) {s : State} (hlost : s.seqLost = true) :
    exec alg.command s = .next (s.raise .sequenceLost) := by
  cases alg with
  | sf => exact exec_buildSf_lost hlost
  | huff => exact exec_buildHuff_lost hlost

/-- A build program ends with its build command on what the loads left (R137). -/
theorem issueAll_buildProgram {alg : Alg} {seq : List Symbol} {s t u : State}
    (hload : issueAll (.clear :: loadProgram seq) s = .next t) (hp : t.pend = none) (hbuild : exec alg.command t = .next u) :
    issueAll (buildProgram alg seq) s = .next u := by
  rw [buildProgram, ← List.cons_append, issueAll_append, hload]
  exact issueAll_singleton (issue_of_exec hp (decode_encode_build t.cfg alg) hbuild)

/-- Within the limits CLEAR and the loads complete OK (R137). -/
theorem exists_issueAll_load_of_fits {s : State} (hp : s.pend = none) {seq : List Symbol}
    (hseq : ∀ x ∈ seq, x.toNat < 2 ^ s.cfg.symW) (hfits : Fits s.cfg seq) :
    ∃ t, issueAll (.clear :: loadProgram seq) s = .next t ∧ HoldsSequence s.cfg seq t := by
  obtain ⟨t, ht, ⟨-, hholds⟩ | ⟨hbeyond, -⟩⟩ := exists_issueAll_load hp hseq
  · exact ⟨t, ht, hholds⟩
  · exact absurd hfits hbeyond

/-- A beginning of the build program is one of its loads, or the whole program. -/
theorem take_buildProgram (alg : Alg) (seq : List Symbol) (m : Nat) :
    (buildProgram alg seq).take (m + 1) = .clear :: loadProgram (seq.take m) ∨
      (buildProgram alg seq).take (m + 1) = buildProgram alg seq := by
  rw [buildProgram, List.take_succ_cons]
  rcases Nat.lt_or_ge seq.length m with hall | hpart
  · exact .inr (by rw [List.take_of_length_le (by simpa [loadProgram] using hall)])
  · exact .inl (by rw [List.take_append_of_le_length (by simpa [loadProgram] using hpart), loadProgram, loadProgram,
      List.map_take])

/-- Settles O30: the loads hold the sequence, its beginnings fit too, and the build installs the table of what is held. -/
theorem buildProcedureGivesTheDocumentsTables : Obligations.BuildProcedureGivesTheDocumentsTables := by
  intro alg seq s hp hseq hcount halphabet
  have hfits : Fits s.cfg seq := ⟨hcount, halphabet⟩
  obtain ⟨t, ht, hholds⟩ := exists_issueAll_load_of_fits hp hseq hfits
  have hprogram := issueAll_buildProgram ht hholds.idle (exec_build_built alg hholds.intact)
  refine ⟨_, hprogram, hholds.ft, ?_, rfl, congrArg alg.codes hholds.ft, hholds.intact, rfl, rfl, hholds.idle, fun k hk => ?_⟩
  · exact (congrArg totalOf hholds.ft).trans (totalOf_frequencyTable seq)
  · obtain ⟨m, rfl⟩ := Nat.exists_eq_add_of_le' hk
    rcases take_buildProgram alg seq m with htake | htake <;> rw [htake]
    · have hpart : Fits s.cfg (seq.take m) := fits_of_append (by rwa [List.take_append_drop])
      obtain ⟨u, hu, hheld⟩ := exists_issueAll_load_of_fits hp (fun x hx => hseq x (List.mem_of_mem_take hx)) hpart
      exact ⟨u, hu, hheld.ok⟩
    · exact ⟨_, hprogram, rfl⟩

/-- Settles O31: the loads lose the sequence, and the build is refused. -/
theorem oversizedSequenceIsLost : Obligations.OversizedSequenceIsLost := by
  intro alg seq s hp hseq hover
  obtain ⟨t, ht, ⟨⟨hcount, halphabet⟩, -⟩ | ⟨-, hlost⟩⟩ := exists_issueAll_load hp hseq
  · unfold maxTotal at hcount
    omega
  · obtain ⟨-, -, hflag, htag, htotal, hsize⟩ := hlost.raise .sequenceLost
    exact ⟨_, issueAll_buildProgram ht hlost.idle (exec_build_lost alg hlost.lost), hflag, htag, State.raise_err _ _, htotal,
      hsize⟩

end Sys2Proof.Machine
